-- ==== Sys2Proof/Word.lean ====
section
/-! DEFINITION. The widths of the block's values (spec 00_scope.md R9, R12): every value is an unsigned bit vector of
the width the spec states for it. -/

namespace Sys2Proof

/-- A host word: the bus carries 32 bits per access (R9, R86). -/
abbrev Word := BitVec 32

/-- A symbol, a stream byte or one byte lane of a word (R9 `SYM_BITS` = 8). -/
abbrev Byte := BitVec 8

/-- The width of SYMCOUNT, TARGET, SYMS and BITS (R9 `CNT_BITS` = 64). -/
abbrev Count := BitVec 64

/-- An index into NODE RAM (R9: 512 entries, 9 bits). -/
abbrev NodeIndex := BitVec 9

/-- A codeword value, `CODE7 .. CODE0` with CODE0 least significant (R9 `CODE_WORDS` = 8, R128). -/
abbrev CodeValue := BitVec 256

end Sys2Proof
end

