-- ==== Sys2Proof/Config.lean ====
section
/-! DEFINITION. What a build of the block fixes (spec 00_scope.md R9), and the values the spec leaves unspecified. -/

namespace Sys2Proof

/-- The OPEN parameters of R9 that a command reads: `LMAX` (1..255) and `OUT_DEPTH` (33..255).
Both are 8-bit fields of CONFIG (R34), which is how the host learns them.
"A model takes the OPEN ones as arguments": they stand in State, so that a statement over every state is a statement
over every build (assumption log 1). -/
structure Params where
  lmax : Byte
  outDepth : Byte
deriving DecidableEq, Repr

/-- The ranges R9 gives: `LMAX` in 1..255 and `OUT_DEPTH` in 33..255 (the upper ends are the fields' width). -/
abbrev Params.wf (p : Params) : Prop := 1 ≤ p.lmax.toNat ∧ 33 ≤ p.outDepth.toNat

/-- The reference values of R9: `LMAX` = 255 and `OUT_DEPTH` = 64. -/
def Params.reference : Params := { lmax := 255, outDepth := 64 }

/-- `ID_VALUE` (R9, R33). -/
def Config.idValue : Word := 0x48554646

/-- `NODE_ENTRIES` (R9). -/
def Config.nodeEntries : Nat := 512

/-- The node index width that CONFIG reports (R34). -/
def Config.nodeIndexWidth : BitVec 4 := 9

/-- `DEPTH_LIMIT` (R9, R296). -/
def Config.depthLimit : Nat := 255

/-- The bytes of the host window: offsets 0x0000 to 0x7FFF (R9, R80). -/
def Config.windowBytes : Nat := 0x8000

/-- FREE VALUE. What the n-th read of STATUS (but for its BUSY bit), SYMS, BITS, BITBUF or CURSOR made while
BUSY = 1 returns: "any value" (R333, 93_implementation_defined.md U3; assumption log 4). -/
opaque Config.busyReadValue : Nat → Word

/-- FREE VALUE. `BASE`, the platform address of the window (R81, U2; assumption log 11). -/
opaque Config.base : Nat

/-- The platform address of a window offset: "every address in the spec is an offset from BASE" (R81). -/
def Config.platformAddress (offset : Nat) : Nat := Config.base + offset

/-- The window offset a platform address names, if it lies in the window (R80, R81). -/
def Config.windowOffset (address : Nat) : Option Nat :=
  if Config.base ≤ address ∧ address < Config.base + Config.windowBytes then
    some (address - Config.base)
  else none

end Sys2Proof
end

