-- ==== Sys2Proof/Syntax.lean ====
section
/-! DEFINITION. The block's instructions: the eight host commands of spec/opcode_table.json (30_encoding.md R121, R122),
one constructor per row. An operand has exactly the width its format gives it, so no ill-formed command can be built;
what can be ill formed is a line of source text (WellFormed.lean). -/

namespace Sys2Proof

/-- The eight commands (R122). -/
inductive Instr where
  /-- ENC_OPEN (0x01, F0): open an encode stream, R260. -/
  | encOpen
  /-- ENC_SYM s (0x02, F8): encode the symbol s, R261. -/
  | encSym (s : Byte)
  /-- ENC_BIT b (0x03, F1): write one raw bit, R262. -/
  | encBit (b : Bool)
  /-- ENC_FINISH (0x04, F0): close the encode stream, R263. -/
  | encFinish
  /-- DEC_OPEN (0x11, F0): open a decode stream, R290. -/
  | decOpen
  /-- DEC_BYTE v (0x12, F8): feed one stream byte, R291. -/
  | decByte (v : Byte)
  /-- DEC_END (0x13, F0): the end of the compressed input, R299. -/
  | decEnd
  /-- CLEAR (0x20, F0): leave ERROR mode, R330. -/
  | clear
deriving DecidableEq, Repr

/-- The three command formats (R121). -/
inductive Format where
  /-- No operand. -/
  | f0
  /-- A byte operand in bits 15:8. -/
  | f8
  /-- A bit operand in bit 8. -/
  | f1
deriving DecidableEq, Repr

/-- How many bits of operand a format carries (R121). -/
def Format.operandBits : Format → Nat
  | .f0 => 0
  | .f8 => 8
  | .f1 => 1

/-- The format column of R122. -/
def Instr.format : Instr → Format
  | .encOpen => .f0
  | .encSym _ => .f8
  | .encBit _ => .f1
  | .encFinish => .f0
  | .decOpen => .f0
  | .decByte _ => .f8
  | .decEnd => .f0
  | .clear => .f0

/-- The OP column of R122. -/
def Instr.opcode : Instr → Byte
  | .encOpen => 0x01
  | .encSym _ => 0x02
  | .encBit _ => 0x03
  | .encFinish => 0x04
  | .decOpen => 0x11
  | .decByte _ => 0x12
  | .decEnd => 0x13
  | .clear => 0x20

end Sys2Proof
end

