-- ==== Sys2Proof/WellFormed.lean ====
section
/-! DEFINITION. Well-formedness of source lines (30_encoding.md R133): an assembler refuses a mnemonic that is not in the
table, an operand out of range, an operand on an F0 command, and operands that are not those the syntax gives (assumption
log 19). A term of Instr carries its operand at the field's own width and is always well formed. -/

namespace Sys2Proof

/-- An operand of a source line: a number, or a character between single quotes (R133). -/
inductive LineOperand where
  | number (n : Nat)
  | character (c : Char)
deriving DecidableEq, Repr

/-- One line of R133's syntax: a mnemonic and its operands, the comment being gone. -/
structure SourceLine where
  mnemonic : String
  operands : List LineOperand
deriving DecidableEq, Repr

/-- Why an assembler refuses a line (R133; assumption log 19 for the last two). -/
inductive LineError where
  /-- The mnemonic is none of the table's. -/
  | unknownMnemonic
  /-- The operand does not fit its range. -/
  | operandOutOfRange
  /-- An operand stands on a command of format F0. -/
  | operandOnF0
  /-- The line has fewer or more operands than its syntax gives. -/
  | operandCount
  /-- An operand of another kind stands where the syntax gives a number, a symbol, a name or a text. -/
  | operandKind
deriving DecidableEq, Repr

/-- What a line of R133's table does: write a command to CMD, write a word, read a word, or write a raw word to CMD. -/
inductive Operation where
  | command (i : Instr)
  | write (off : Nat) (val : Word)
  | read (off : Nat)
  | raw (w : Word)
deriving DecidableEq, Repr

/-- An assembler's answer. -/
inductive Assembled (α : Type) where
  | accepted (a : α)
  | refusedLine (e : LineError)
deriving DecidableEq, Repr

/-- Go on with what an assembler accepted. -/
def Assembled.andThen {α β : Type} (r : Assembled α) (f : α → Assembled β) : Assembled β :=
  match r with
  | .accepted a => f a
  | .refusedLine e => .refusedLine e

/-- A number below a bound. -/
def numberBelow (bound : Nat) : LineOperand → Assembled Nat
  | .number n => if n < bound then .accepted n else .refusedLine .operandOutOfRange
  | .character _ => .refusedLine .operandKind

/-- A 32-bit word. -/
def wordOperand (x : LineOperand) : Assembled Word :=
  (numberBelow (2 ^ 32) x).andThen (fun n => .accepted (BitVec.ofNat 32 n))

/-- The ASCII code of a character (R133); ASCII ends at 127. -/
def asciiCode (c : Char) : Assembled Byte :=
  if c.toNat < 128 then .accepted (BitVec.ofNat 8 c.toNat) else .refusedLine .operandOutOfRange

/-- A symbol: "a number 0..255 or a character `'a'` meaning its ASCII code" (R133). -/
def symbolOperand : LineOperand → Assembled Byte
  | .number n => (numberBelow 256 (.number n)).andThen (fun n => .accepted (BitVec.ofNat 8 n))
  | .character c => asciiCode c

/-- A command of format F0: no operand may stand on it. -/
def assembleF0 (i : Instr) : List LineOperand → Assembled Operation
  | [] => .accepted (.command i)
  | _ :: _ => .refusedLine .operandOnF0

/-- A line with exactly one operand. -/
def assembleOne {α : Type} (operand : LineOperand → Assembled α) (build : α → Operation) :
    List LineOperand → Assembled Operation
  | [x] => (operand x).andThen (fun a => .accepted (build a))
  | [] => .refusedLine .operandCount
  | _ :: _ :: _ => .refusedLine .operandCount

/-- `WR <off>, <val>`. -/
def assembleWrite : List LineOperand → Assembled Operation
  | [off, val] =>
    match off with
    | .number a => (wordOperand val).andThen (fun d => .accepted (.write a d))
    | .character _ => .refusedLine .operandKind
  | [] => .refusedLine .operandCount
  | [_] => .refusedLine .operandCount
  | _ :: _ :: _ :: _ => .refusedLine .operandCount

/-- An offset, of any size: what an access outside the window does is R91's and R80's to say. -/
def offsetOperand : LineOperand → Assembled Nat
  | .number n => .accepted n
  | .character _ => .refusedLine .operandKind

/-- What a line does, or why it is refused: R133's table, row by row. -/
def SourceLine.assemble (l : SourceLine) : Assembled Operation :=
  if l.mnemonic = "ENC_OPEN" then assembleF0 .encOpen l.operands
  else if l.mnemonic = "ENC_FINISH" then assembleF0 .encFinish l.operands
  else if l.mnemonic = "DEC_OPEN" then assembleF0 .decOpen l.operands
  else if l.mnemonic = "DEC_END" then assembleF0 .decEnd l.operands
  else if l.mnemonic = "CLEAR" then assembleF0 .clear l.operands
  else if l.mnemonic = "ENC_SYM" then assembleOne symbolOperand (fun s => .command (.encSym s)) l.operands
  else if l.mnemonic = "ENC_BIT" then
    assembleOne (numberBelow (2 ^ Format.f1.operandBits)) (fun n => .command (.encBit (decide (n = 1)))) l.operands
  else if l.mnemonic = "DEC_BYTE" then
    assembleOne (numberBelow (2 ^ Format.f8.operandBits)) (fun n => .command (.decByte (BitVec.ofNat 8 n))) l.operands
  else if l.mnemonic = "WR" then assembleWrite l.operands
  else if l.mnemonic = "RD" then assembleOne offsetOperand .read l.operands
  else if l.mnemonic = ".word" then assembleOne wordOperand .raw l.operands
  else .refusedLine .unknownMnemonic

/-- A line is well formed when an assembler accepts it. -/
def SourceLine.wellFormed (l : SourceLine) : Bool :=
  match l.assemble with
  | .accepted _ => true
  | .refusedLine _ => false

end Sys2Proof
end

