-- ==== Sys2Proof/Decode.lean ====
section
/-! DEFINITION. The command decoder, total on every 32-bit word (30_encoding.md R120 to R124), the encoder (R123), and the
opcode map as the spec's table of patterns and masks (R122), against which the decoder is checked. -/

namespace Sys2Proof

/-- Why a word is no command (R124). -/
inductive Reject where
  /-- The opcode field is none of the eight listed. -/
  | unknownOpcode (op : Byte)
  /-- The opcode is listed, and a bit its format marks 0 is 1. -/
  | reservedBits (op : Byte)
deriving DecidableEq, Repr

/-- What the decoder makes of a word. -/
inductive Decoded where
  | command (i : Instr)
  | illegal (r : Reject)
deriving DecidableEq, Repr

/-- `OP = CMD[7:0]` (R121). -/
def opcodeField (w : Word) : Byte := w.extractLsb' 0 8

/-- The byte operand `CMD[15:8]` of format F8 (R121, R123). -/
def byteOperand (w : Word) : Byte := w.extractLsb' 8 8

/-- The bit operand `CMD[8]` of format F1 (R121, R123). -/
def bitOperand (w : Word) : Bool := w.getLsbD 8

/-- Format F0: bits 31:8 must be 0 (R121). -/
def decodeF0 (i : Instr) (w : Word) : Decoded :=
  if w.extractLsb' 8 24 = 0 then .command i else .illegal (.reservedBits (opcodeField w))

/-- Format F8: bits 31:16 must be 0 (R121). -/
def decodeF8 (build : Byte → Instr) (w : Word) : Decoded :=
  if w.extractLsb' 16 16 = 0 then .command (build (byteOperand w)) else .illegal (.reservedBits (opcodeField w))

/-- Format F1: bits 31:9 must be 0 (R121). -/
def decodeF1 (build : Bool → Instr) (w : Word) : Decoded :=
  if w.extractLsb' 9 23 = 0 then .command (build (bitOperand w)) else .illegal (.reservedBits (opcodeField w))

/-- The decoder: by the opcode field, then by the bits the format marks 0 (R121, R122, R124). -/
def decode (w : Word) : Decoded :=
  if opcodeField w = 0x01 then decodeF0 .encOpen w
  else if opcodeField w = 0x02 then decodeF8 .encSym w
  else if opcodeField w = 0x03 then decodeF1 .encBit w
  else if opcodeField w = 0x04 then decodeF0 .encFinish w
  else if opcodeField w = 0x11 then decodeF0 .decOpen w
  else if opcodeField w = 0x12 then decodeF8 .decByte w
  else if opcodeField w = 0x13 then decodeF0 .decEnd w
  else if opcodeField w = 0x20 then decodeF0 .clear w
  else .illegal (.unknownOpcode (opcodeField w))

/-- The operand of a command as an unsigned number (R123). -/
def Instr.operand : Instr → Nat
  | .encSym s => s.toNat
  | .encBit b => b.toNat
  | .decByte v => v.toNat
  | .encOpen | .encFinish | .decOpen | .decEnd | .clear => 0

/-- "The encoding of a command is `OP | (operand << 8)`" (R123). -/
def encode (i : Instr) : Word :=
  i.opcode.setWidth 32 ||| (BitVec.ofNat 32 i.operand <<< 8)

/-- One row of the opcode map (R122): the word w selects it when `(w & mask) = pattern`. -/
structure OpcodeRow where
  opcode : Byte
  pattern : Word
  mask : Word
deriving DecidableEq, Repr

/-- Does a word select a row (R122)? -/
def OpcodeRow.selects (r : OpcodeRow) (w : Word) : Bool := w &&& r.mask == r.pattern

/-- The opcode map of R122, row by row: OP, match, mask. -/
def opcodeMap : List OpcodeRow :=
  [ { opcode := 0x01, pattern := 0x00000001, mask := 0xFFFFFFFF },
    { opcode := 0x02, pattern := 0x00000002, mask := 0xFFFF00FF },
    { opcode := 0x03, pattern := 0x00000003, mask := 0xFFFFFEFF },
    { opcode := 0x04, pattern := 0x00000004, mask := 0xFFFFFFFF },
    { opcode := 0x11, pattern := 0x00000011, mask := 0xFFFFFFFF },
    { opcode := 0x12, pattern := 0x00000012, mask := 0xFFFF00FF },
    { opcode := 0x13, pattern := 0x00000013, mask := 0xFFFFFFFF },
    { opcode := 0x20, pattern := 0x00000020, mask := 0xFFFFFFFF } ]

/-- The instruction the decoder reads from an opcode-table word of `nbits` bits.
A command is one 32-bit word written whole to CMD (R120), so the word's own bits are the table's bits. -/
def decodeTableWord (nbits w : Nat) : Option Instr :=
  match decode (BitVec.ofNat 32 (w % 2 ^ nbits)) with
  | .command i => some i
  | .illegal _ => none

end Sys2Proof
end

