-- ==== Sys2Proof/Machine/State.lean ====
section
/-! DEFINITION. The machine's state as plain data (10_state.md), the reasons a step can stop, and the state after
reset (R60, R400). -/

namespace Sys2Proof.Machine

open Sys2Proof

/-- The engine modes (R55). -/
inductive Mode where
  /-- No stream is open. -/
  | idle
  /-- An encode stream is open: the BitWriter is live. -/
  | enc
  /-- A decode stream is open: the cursor is live. -/
  | dec
  /-- A stream or a command failed: only CLEAR is executed. -/
  | error
deriving DecidableEq, Repr

/-- The error record, the fields of the ERROR register (R41, R56). -/
structure ErrorRecord where
  kind : BitVec 4
  sub : BitVec 8
  arg : Byte
  bitidx : BitVec 3
deriving DecidableEq, Repr

/-- The record that says "no error" (R41: cleared to 0). -/
def ErrorRecord.none : ErrorRecord := { kind := 0, sub := 0, arg := 0, bitidx := 0 }

/-- The (KIND, SUB) pairs the block produces, by their names (R361). -/
inductive ErrorCause where
  /-- InvalidInput: ENC_SYM met VALID = 1 with LEN = 0. -/
  | zeroLengthCode
  /-- UnknownSymbol: ENC_SYM met VALID = 0. -/
  | notInTable
  /-- CorruptStream: DEC_END with SYMS ≠ TARGET. -/
  | prematureEnd
  /-- CorruptStream: the bits after the last symbol are not the marker and zeros. -/
  | badPadding
  /-- CorruptStream: DEC_BYTE after the count was reached. -/
  | trailingData
  /-- CorruptStream: the walk read a node word that is neither LEAF nor INTERNAL. -/
  | malformedTree
  /-- CorruptStream: a bit 1 at a leaf root. -/
  | walkPastLeaf
  /-- CorruptStream: the walk would enter an internal node at depth 255. -/
  | depthExceeded
  /-- UnsupportedAlphabetSize: LEN > LMAX. -/
  | codeTooLong
  /-- HostProtocol: the word matches no row of the opcode map. -/
  | illegalCommand
  /-- HostProtocol: the command is not legal in the current MODE. -/
  | wrongMode
  /-- HostProtocol: OUT has too little room. -/
  | outOverflow
  /-- HostProtocol: OUT holds entries at an OPEN. -/
  | outNotEmpty
deriving DecidableEq, Repr

/-- One thing the platform does to the block: a bus access of the host (R10, R91), the two polling loops of R134,
or the reset input (R400). Addresses are offsets from BASE (R81). -/
inductive HostOp where
  /-- A read of `size` bytes at an offset; the block admits size 4 at a multiple of 4 (R91). -/
  | read (addr size : Nat)
  /-- A write of `size` bytes at an offset. -/
  | write (addr size : Nat) (data : Word)
  /-- `WAIT`: repeat `RD 0x00C` until bit 2 of the value read is 0 (R134). -/
  | wait
  /-- `DRAIN`: repeat `RD 0x014` until bit 8 of the value read is 0 (R134). -/
  | drain
  /-- The platform asserts reset (R400). -/
  | reset
deriving DecidableEq, Repr

/-- A value a host read returned, with the offset read. -/
structure Reply where
  addr : Nat
  value : Word
deriving DecidableEq, Repr

/-- The machine. The first group is the state the spec gives the block (R32 to R58); the second is the model's own: the
one other agent, the host, as data (assumption logs 2, 3, 4, 14). -/
structure State where
  /-- The OPEN parameters of this build; LMAX and OUT_DEPTH are what CONFIG reads (R9, R34). -/
  params : Params
  /-- MODE (R55). -/
  mode : Mode
  /-- BUSY (R53). -/
  busy : Bool
  /-- PENDING, the command latch (R53). -/
  pending : Word
  /-- STATUS.OVERRUN, sticky (R39). -/
  overrun : Bool
  /-- STATUS.LOCKVIO, sticky (R40). -/
  lockvio : Bool
  /-- The ERROR register (R41). -/
  error : ErrorRecord
  /-- OUT, head first (R54). -/
  out : List Byte
  /-- ROOT (R43). -/
  root : NodeIndex
  /-- SYMCOUNT (R44). -/
  symcount : Count
  /-- SYMS (R45). -/
  syms : Count
  /-- BITS (R46). -/
  bits : Count
  /-- WBUF, the pending bits of the BitWriter, right-aligned (R49). -/
  wbuf : Byte
  /-- WCNT, how many bits are pending (R49). -/
  wcnt : BitVec 4
  /-- RBUF, the byte the BitReader consumes (R50). -/
  rbuf : Byte
  /-- RCNT, how many bits of RBUF are not yet consumed (R50). -/
  rcnt : BitVec 4
  /-- CUR, the decoder cursor (R51). -/
  cur : NodeIndex
  /-- DEPTH, edges from the root to CUR (R51). -/
  depth : Byte
  /-- RROOT, the root latched by DEC_OPEN (R52). -/
  rroot : NodeIndex
  /-- TARGET, the count latched by DEC_OPEN (R52). -/
  target : Count
  /-- NODE RAM and CT RAM (R57, R58), byte by byte at their window offsets (R84, R85), in canonical form: offsets strictly
  rising, no entry 0 (the value an unlisted offset holds, R60). -/
  mem : List Host.Cell
  /-- MODEL'S OWN: what the platform has still to do, in order. -/
  script : List HostOp
  /-- MODEL'S OWN: what host reads have returned, oldest first. -/
  heard : List Reply
  /-- MODEL'S OWN: for each command still to be latched, how many host accesses come between its latch and its engine
  step; an exhausted list means none. -/
  schedule : List Nat
  /-- MODEL'S OWN: how many host accesses may still come before the engine step of the command now latched. -/
  delay : Nat
  /-- MODEL'S OWN: how many free values have been drawn (Config.busyReadValue is applied to it). -/
  draws : Nat
deriving DecidableEq, Repr

/-- Why the machine stops with a fault. -/
inductive Fault where
  /-- Raised by the host bus (Machine/Bus.lean) on a 32-bit aligned access whose offset is not in the window
  0x0000 to 0x7FFF: no such address exists (R80, R91; assumption log 6). Safe: the machine stops. -/
  | outsideWindow (addr : Nat)
deriving DecidableEq, Repr

/-- Why the model refuses to go on. -/
inductive Refusal where
  /-- Raised by an arm of exec whose instruction has no meaning yet. Safe. No arm raises it. -/
  | notModelled (mnemonic : String)
  /-- Raised by the host bus on an access that is not an aligned 32-bit word: `MISALIGNED_POLICY` is OPEN and "a model
  refuses such an access" (R91, U1; assumption log 5). Safe: the machine stops. -/
  | misalignedAccess (addr size : Nat)
deriving DecidableEq, Repr

/-- The reset state of a build: every value is R60's, and nothing is left for the host to do (assumption log 10). -/
def State.resetWith (p : Params) : State :=
  { params := p
    mode := .idle
    busy := false
    pending := 0
    overrun := false
    lockvio := false
    error := ErrorRecord.none
    out := []
    root := 0
    symcount := 0
    syms := 0
    bits := 0
    wbuf := 0
    wcnt := 0
    rbuf := 0
    rcnt := 0
    cur := 0
    depth := 0
    rroot := 0
    target := 0
    mem := []
    script := []
    heard := []
    schedule := []
    delay := 0
    draws := 0 }

/-- The machine right after reset (R60, R400), in the reference build of R9 (assumption log 1). -/
def State.reset : State := State.resetWith Params.reference

end Sys2Proof.Machine
end

