-- ==== Sys2Proof/Machine/Memory.lean ====
section
/-! DEFINITION. The two RAMs of the block as one byte-addressed memory over window offsets (20_memory.md R80 to R87), in
canonical form, and the 32-bit words in it. -/

namespace Sys2Proof.Machine

open Sys2Proof

/-- What an offset that is not listed holds: both RAMs are cleared to 0 by reset (R60; assumption log 7). -/
def Memory.unlisted : Byte := 0

/-- The canonical form: offsets strictly rising, no entry equal to what an unlisted offset holds. -/
abbrev Memory.wf (m : List Host.Cell) : Prop :=
  m.Pairwise (fun p q => p.1 < q.1) ∧ ∀ c ∈ m, c.2 ≠ Memory.unlisted

/-- The byte at an offset. -/
def Memory.readByte : List Host.Cell → Nat → Byte
  | [], _ => Memory.unlisted
  | (b, v) :: m, a => if a = b then v else Memory.readByte m a

/-- Store a byte, keeping the canonical form. -/
def Memory.writeByte : List Host.Cell → Nat → Byte → List Host.Cell
  | [], a, v => if v = Memory.unlisted then [] else [(a, v)]
  | (b, w) :: m, a, v =>
    if a < b then (if v = Memory.unlisted then (b, w) :: m else (a, v) :: (b, w) :: m)
    else if a = b then (if v = Memory.unlisted then m else (a, v) :: m)
    else (b, w) :: Memory.writeByte m a v

/-- Byte lane k of a word: "byte lane k of a word carries bits [8k+7:8k], and lane k sits at byte offset addr + k"
(R86). -/
def Memory.lane (w : Word) (k : Nat) : Byte := w.extractLsb' (8 * k) 8

/-- The 32-bit word at an offset (R86). -/
def Memory.readWord (m : List Host.Cell) (a : Nat) : Word :=
  Memory.readByte m (a + 3) ++ Memory.readByte m (a + 2) ++ Memory.readByte m (a + 1) ++ Memory.readByte m a

/-- Store a 32-bit word at an offset (R86). -/
def Memory.writeWord (m : List Host.Cell) (a : Nat) (w : Word) : List Host.Cell :=
  Memory.writeByte
    (Memory.writeByte
      (Memory.writeByte (Memory.writeByte m a (Memory.lane w 0)) (a + 1) (Memory.lane w 1))
      (a + 2) (Memory.lane w 2))
    (a + 3) (Memory.lane w 3)

/-- The offset of NODE RAM entry i: `0x0800 + 4·i` (R84). -/
def nodeOffset (i : NodeIndex) : Nat := 0x0800 + 4 * i.toNat

/-- The offset of word w of CT RAM entry s: `0x4000 + 64·s + 4·w` (R85). -/
def ctOffset (s : Byte) (w : Nat) : Nat := 0x4000 + 64 * s.toNat + 4 * w

/-- `NODE[i]`, the word the engine and the host read (R13, R84). -/
def nodeWord (m : List Host.Cell) (i : NodeIndex) : Word := Memory.readWord m (nodeOffset i)

/-- The offsets at which a RAM of the block holds a byte: NODE RAM, and of each CT entry the header and the eight code
words (R82, R84, R85). -/
def inRam (a : Nat) : Bool :=
  (decide (0x0800 ≤ a) && decide (a < 0x1000)) ||
    (decide (0x4000 ≤ a) && decide (a < 0x8000) && decide ((a - 0x4000) % 64 < 36))

end Sys2Proof.Machine
end

