-- ==== Sys2Proof/Machine/Operands.lean ====
section
/-! DEFINITION. What the commands read from the tables: the fields of a node word (30_encoding.md R125, R126) and of a
code-table entry (R127, R128). The operands carried in the command word are Decode.lean's. -/

namespace Sys2Proof.Machine

open Sys2Proof

/-- A node word by its TAG (R125). -/
inductive Node where
  /-- TAG 0. -/
  | empty
  /-- TAG 1: the leaf's symbol. -/
  | leaf (sym : Byte)
  /-- TAG 2: the child indices. -/
  | internal (left right : NodeIndex)
  /-- TAG 3. -/
  | rsvd
deriving DecidableEq, Repr

/-- The fields of a node word: TAG = [31:30], SYM = [7:0], LEFT = [8:0], RIGHT = [24:16]; the other bits are ignored
(R125). -/
def nodeOfWord (n : Word) : Node :=
  if n.extractLsb' 30 2 = 1 then .leaf (n.extractLsb' 0 8)
  else if n.extractLsb' 30 2 = 2 then .internal (n.extractLsb' 0 9) (n.extractLsb' 16 9)
  else if n.extractLsb' 30 2 = 3 then .rsvd
  else .empty

/-- The node at a NODE RAM index. -/
def nodeAt (m : List Host.Cell) (i : NodeIndex) : Node := nodeOfWord (nodeWord m i)

/-- The child a bit selects: left on 0, right on 1 (R292). -/
def childOf (left right : NodeIndex) (bit : Bool) : NodeIndex := if bit then right else left

/-- `leaf(s) = 0x4000_0000 | s` (R126). -/
def leafWord (s : Byte) : Word := 0x40000000 ||| s.setWidth 32

/-- `internal(l, r) = 0x8000_0000 | (r << 16) | l` (R126). -/
def internalWord (l r : NodeIndex) : Word := 0x80000000 ||| (r.setWidth 32 <<< 16) ||| l.setWidth 32

/-- A code-table entry (R57). -/
structure CtEntry where
  valid : Bool
  len : BitVec 16
  code : CodeValue
deriving DecidableEq, Repr

/-- CODEk of entry s, k = 0..7 (R85). -/
def codeWord (m : List Host.Cell) (s : Byte) (k : Nat) : Word := Memory.readWord m (ctOffset s (1 + k))

/-- `CT[s]`: VALID = HDR[0], LEN = HDR[31:16], CODE = {CODE7, ..., CODE0} (R127, R128). -/
def ctEntry (m : List Host.Cell) (s : Byte) : CtEntry :=
  { valid := (Memory.readWord m (ctOffset s 0)).getLsbD 0
    len := (Memory.readWord m (ctOffset s 0)).extractLsb' 16 16
    code :=
      codeWord m s 7 ++ codeWord m s 6 ++ codeWord m s 5 ++ codeWord m s 4 ++
        codeWord m s 3 ++ codeWord m s 2 ++ codeWord m s 1 ++ codeWord m s 0 }

/-- The header word of an entry as a read returns it: `{LEN, 15'b0, VALID}` (R127). -/
def headerWord (valid : Bool) (len : BitVec 16) : Word := len ++ 0#15 ++ BitVec.ofBool valid

end Sys2Proof.Machine
end

