-- ==== Sys2Proof/Machine/Flags.lean ====
section
/-! DEFINITION. The block's flags and the register words computed from state (10_state.md R34 to R48, R59), and the numeric
codes of modes and errors (R55, R360, R361). -/

namespace Sys2Proof.Machine

open Sys2Proof

/-- MODE as STATUS[1:0] shows it (R36). -/
def Mode.code : Mode → BitVec 2
  | .idle => 0
  | .enc => 1
  | .dec => 2
  | .error => 3

/-- ERROR.KIND of a cause (R360, R361). -/
def ErrorCause.kind : ErrorCause → BitVec 4
  | .zeroLengthCode => 1
  | .notInTable => 2
  | .prematureEnd => 3
  | .badPadding => 3
  | .trailingData => 3
  | .malformedTree => 3
  | .walkPastLeaf => 3
  | .depthExceeded => 3
  | .codeTooLong => 4
  | .illegalCommand => 5
  | .wrongMode => 5
  | .outOverflow => 5
  | .outNotEmpty => 5

/-- ERROR.SUB of a cause (R361). -/
def ErrorCause.sub : ErrorCause → BitVec 8
  | .zeroLengthCode => 1
  | .notInTable => 1
  | .prematureEnd => 1
  | .badPadding => 2
  | .trailingData => 3
  | .malformedTree => 4
  | .walkPastLeaf => 5
  | .depthExceeded => 6
  | .codeTooLong => 1
  | .illegalCommand => 1
  | .wrongMode => 2
  | .outOverflow => 3
  | .outNotEmpty => 4

/-- The error record of a cause with its argument and bit index (R366). -/
def errorRecord (c : ErrorCause) (arg : Byte) (bitidx : BitVec 3) : ErrorRecord :=
  { kind := c.kind, sub := c.sub, arg := arg, bitidx := bitidx }

/-- OUT_COUNT (R13). -/
def outCount (s : State) : Nat := s.out.length

/-- `FREE = OUT_DEPTH − OUT_COUNT` (R13). -/
def freeRoom (s : State) : Nat := s.params.outDepth.toNat - outCount s

/-- STATUS.DONE: `(MODE = DEC) and (SYMS = TARGET)` (R38). -/
def done (s : State) : Bool := decide (s.mode = .dec) && decide (s.syms = s.target)

/-- STATUS.OUTV: OUT_COUNT ≠ 0 (R36). -/
def outValid (s : State) : Bool := !s.out.isEmpty

/-- STATUS (R36), with BUSY as it stands. -/
def statusWord (s : State) : Word :=
  0#8 ++ BitVec.ofNat 8 (outCount s) ++ 0#4 ++ s.wcnt ++ 0#1 ++ BitVec.ofBool (outValid s) ++
    BitVec.ofBool s.lockvio ++ BitVec.ofBool s.overrun ++ BitVec.ofBool (done s) ++ BitVec.ofBool s.busy ++ s.mode.code

/-- STATUS while BUSY = 1: BUSY reads 1, every other field is the free value (R36, R333). -/
def busyStatus (free : Word) : Word := free ||| 0x4

/-- CONFIG: `{12'b0, 4'd9, OUT_DEPTH[7:0], LMAX[7:0]}` (R34). -/
def configWord (p : Params) : Word := 0#12 ++ Config.nodeIndexWidth ++ p.outDepth ++ p.lmax

/-- ERROR: `[3:0]` KIND, `[15:8]` SUB, `[23:16]` ARG, `[26:24]` BITIDX, the other bits 0 (R41, R362). -/
def errorWord (e : ErrorRecord) : Word := 0#5 ++ e.bitidx ++ e.arg ++ e.sub ++ 0#4 ++ e.kind

/-- BITBUF: `{20'b0, WCNT, WBUF}` (R47). -/
def bitbufWord (s : State) : Word := 0#20 ++ s.wcnt ++ s.wbuf

/-- CURSOR: `{8'b0, DEPTH, 7'b0, CUR}` (R48). -/
def cursorWord (s : State) : Word := 0#8 ++ s.depth ++ 0#7 ++ s.cur

/-- The low half of a 64-bit counter (R44 to R46). -/
def lowHalf (c : Count) : Word := c.extractLsb' 0 32

/-- The high half of a 64-bit counter. -/
def highHalf (c : Count) : Word := c.extractLsb' 32 32

end Sys2Proof.Machine
end

