-- ==== Sys2Proof/Machine/Ops.lean ====
section
/-! DEFINITION. The operations every command is written with: the output FIFO, the BitWriter and BitReader
(41_bit_framing.md), error entry (60_exceptions.md R366), and the dispatch checks around a command's own rule
(42_command_dispatch.md). -/

namespace Sys2Proof.Machine

open Sys2Proof

/-- `push(v)`: append at the tail of OUT (R13, R54); total, whatever the room (assumption log 8). -/
def push (v : Byte) (s : State) : State := { s with out := s.out ++ [v] }

/-- `write_bit(b)` (R200). -/
def writeBit (b : Bool) (s : State) : State :=
  if s.wcnt + 1 = 8 then
    { push ((s.wbuf <<< 1) ||| (BitVec.ofBool b).setWidth 8) s with wbuf := 0, wcnt := 0 }
  else
    { s with wbuf := (s.wbuf <<< 1) ||| (BitVec.ofBool b).setWidth 8, wcnt := s.wcnt + 1 }

/-- `for k from n − 1 down to 0: write_bit(code[k])` (R261). -/
def writeCode (code : CodeValue) : Nat → State → State
  | 0, s => s
  | k + 1, s => writeCode code k (writeBit (code.getLsbD k) s)

/-- The byte `finish()` pushes: the pending bits left-aligned, then the marker 1 at position 7 − WCNT, then zeros
(R202). -/
def finalByte (wbuf : Byte) (wcnt : BitVec 4) : Byte :=
  (wbuf <<< (8 - wcnt.toNat)) ||| (1#8 <<< (7 - wcnt.toNat))

/-- `finish()` (R202). -/
def finish (s : State) : State :=
  if s.wcnt = 0 then s else { push (finalByte s.wbuf s.wcnt) s with wbuf := 0, wcnt := 0 }

/-- `load(v)`: RBUF <- v; RCNT <- 8 (R206, R293). -/
def load (v : Byte) (s : State) : State := { s with rbuf := v, rcnt := 8 }

/-- The bit `next_bit()` returns: `RBUF[RCNT − 1]` (R206). -/
def bitToRead (s : State) : Bool := s.rbuf.getLsbD (s.rcnt - 1).toNat

/-- The state after `next_bit()`: RCNT <- RCNT − 1 (R206). -/
def consumeBit (s : State) : State := { s with rcnt := s.rcnt - 1 }

/-- Error entry, `raise K(SUB, ARG, BITIDX)`: flush when encoding, discard the rest of the operand, record the error,
enter ERROR mode (R366). The command that calls it ends with it. -/
def raise (c : ErrorCause) (arg : Byte) (bitidx : BitVec 3) (s : State) : State :=
  { (if s.mode = .enc then finish s else s) with
    rcnt := 0
    error := errorRecord c arg bitidx
    mode := .error }

/-- Return from an error: what CLEAR writes (R330, R369). -/
def clearErrors (s : State) : State :=
  { s with mode := .idle, error := ErrorRecord.none, overrun := false, lockvio := false }

/-- The modes a command is legal in, the last but one column of R122 (R234, R372). -/
def legalIn (i : Instr) (m : Mode) : Bool :=
  match i with
  | .encOpen => decide (m = .idle)
  | .encSym _ => decide (m = .enc)
  | .encBit _ => decide (m = .enc)
  | .encFinish => decide (m = .enc)
  | .decOpen => decide (m = .idle)
  | .decByte _ => decide (m = .dec)
  | .decEnd => decide (m = .dec)
  | .clear => decide (m = .idle) || decide (m = .error)

/-- The dispatch checks around a decoded command, in R238's order: dropped in ERROR mode unless it is CLEAR (R232), raised
as WRONG_MODE where the mode is not among its legal ones (R234), else its own rule runs (R235). The word is decoded before the
drop (assumption log 12). -/
def dispatchCommand (i : Instr) (body : State → State) (s : State) : Host.Outcome State Fault Refusal :=
  if legalIn i s.mode then .next (body s)
  else if s.mode = .error then .next s
  else .next (raise .wrongMode i.opcode 0 s)

/-- A word that matches no row of the opcode map: dropped in ERROR mode (R232), else ILLEGAL_COMMAND with its opcode field
(R233). -/
def illegalCommand (w : Word) (s : State) : State :=
  if s.mode = .error then s else raise .illegalCommand (opcodeField w) 0 s

/-- The end of an engine step: BUSY <- 0 (R231). -/
def retire (s : State) : State := { s with busy := false }

/-- The entries ENC_SYM and ENC_BIT need free for n bits: what they push, and one kept for the flush (R236). -/
def encodeRoom (s : State) (n : Nat) : Nat := (s.wcnt.toNat + n) / 8 + 1

/-- The entries DEC_BYTE needs free: `min(8, TARGET − SYMS)`, the difference as a 64-bit unsigned value (R236, R12). -/
def decodeRoom (s : State) : Nat := min 8 (s.target - s.syms).toNat

end Sys2Proof.Machine
end

