-- ==== Sys2Proof/Machine/Bus.lean ====
section
/-! DEFINITION. The host's side of the block: the address map (20_memory.md R82 to R85), host reads and writes
(45_control_and_bus.md R332 to R338), the reset input (70_reset_and_hazards.md R400), and one action of the platform. -/

namespace Sys2Proof.Machine

open Sys2Proof

/-- The sixteen register words (R32). -/
inductive Reg where
  | id
  | config
  | cmd
  | status
  | error
  | dout
  | root
  | reserved
  | symcountLo
  | symcountHi
  | symsLo
  | symsHi
  | bitsLo
  | bitsHi
  | bitbuf
  | cursor
deriving DecidableEq, Repr

/-- What an aligned offset of the window names (R82). -/
inductive Target where
  /-- 0x0000 to 0x003F. -/
  | reg (r : Reg)
  /-- NODE RAM, 0x0800 to 0x0FFF (R84). -/
  | node (i : NodeIndex)
  /-- Word 0 of a CT entry (R85). -/
  | ctHeader (s : Byte)
  /-- Word 1 + k of a CT entry, CODEk. -/
  | ctCode (s : Byte) (k : Nat)
  /-- Words 9 to 15 of a CT entry, reserved. -/
  | ctReserved
  /-- Every other offset (R83). -/
  | unmapped
deriving DecidableEq, Repr

/-- The register at word index n of the register file (R32). -/
def regOfIndex : Nat → Reg
  | 0 => .id
  | 1 => .config
  | 2 => .cmd
  | 3 => .status
  | 4 => .error
  | 5 => .dout
  | 6 => .root
  | 7 => .reserved
  | 8 => .symcountLo
  | 9 => .symcountHi
  | 10 => .symsLo
  | 11 => .symsHi
  | 12 => .bitsLo
  | 13 => .bitsHi
  | 14 => .bitbuf
  | _ => .cursor

/-- The address map (R82) at an aligned offset below 0x8000. -/
def targetOf (a : Nat) : Target :=
  if a < 0x0040 then .reg (regOfIndex (a / 4))
  else if a < 0x0800 then .unmapped
  else if a < 0x1000 then .node (BitVec.ofNat 9 ((a - 0x0800) / 4))
  else if a < 0x4000 then .unmapped
  else if (a - 0x4000) / 4 % 16 = 0 then .ctHeader (BitVec.ofNat 8 ((a - 0x4000) / 64))
  else if (a - 0x4000) / 4 % 16 ≤ 8 then .ctCode (BitVec.ofNat 8 ((a - 0x4000) / 64)) ((a - 0x4000) / 4 % 16 - 1)
  else .ctReserved

/-- Is the offset in CT RAM's range, reserved words among them (R337)? -/
def Target.inCtRam : Target → Bool
  | .ctHeader _ => true
  | .ctCode _ _ => true
  | .ctReserved => true
  | .reg _ => false
  | .node _ => false
  | .unmapped => false

/-- Is the offset in NODE RAM's range (R337)? -/
def Target.inNodeRam : Target → Bool
  | .node _ => true
  | .reg _ => false
  | .ctHeader _ => false
  | .ctCode _ _ => false
  | .ctReserved => false
  | .unmapped => false

/-- The value a register read returns where the read has no side effect (R332); DOUT is `readDout`. -/
def regValue (r : Reg) (s : State) : Word :=
  match r with
  | .id => Config.idValue
  | .config => configWord s.params
  | .cmd => 0
  | .status => statusWord s
  | .error => errorWord s.error
  | .dout => 0
  | .root => s.root.setWidth 32
  | .reserved => 0
  | .symcountLo => lowHalf s.symcount
  | .symcountHi => highHalf s.symcount
  | .symsLo => lowHalf s.syms
  | .symsHi => highHalf s.syms
  | .bitsLo => lowHalf s.bits
  | .bitsHi => highHalf s.bits
  | .bitbuf => bitbufWord s
  | .cursor => cursorWord s

/-- The registers whose value is unspecified while BUSY = 1 (R333, U3). -/
def Reg.busyOpen : Reg → Bool
  | .status => true
  | .symsLo => true
  | .symsHi => true
  | .bitsLo => true
  | .bitsHi => true
  | .bitbuf => true
  | .cursor => true
  | .id => false
  | .config => false
  | .cmd => false
  | .error => false
  | .dout => false
  | .root => false
  | .reserved => false
  | .symcountLo => false
  | .symcountHi => false

/-- A value read, and the state after the read. -/
structure ReadResult where
  value : Word
  after : State
deriving DecidableEq, Repr

/-- DOUT: `{23'b0, VALID = 1, DATA = head of OUT}` and a pop, or 0 and nothing while OUT is empty or BUSY = 1 (R42). -/
def readDout (s : State) : ReadResult :=
  if s.busy then { value := 0, after := s }
  else
    match s.out with
    | [] => { value := 0, after := s }
    | v :: rest => { value := 0#23 ++ 1#1 ++ v, after := { s with out := rest } }

/-- The next free value, and the counter advanced past it (R333, U3). -/
def drawBusy (s : State) : ReadResult :=
  { value := Config.busyReadValue s.draws, after := { s with draws := s.draws + 1 } }

/-- A register read (R332, R333). -/
def readReg (r : Reg) (s : State) : ReadResult :=
  if r = .dout then readDout s
  else if s.busy = true ∧ r.busyOpen = true then
    { value := if r = .status then busyStatus (drawBusy s).value else (drawBusy s).value
      after := (drawBusy s).after }
  else { value := regValue r s, after := s }

/-- `MemRead(a, 4)` at an aligned offset of the window (R332, R333). -/
def busRead (a : Nat) (s : State) : ReadResult :=
  match targetOf a with
  | .reg r => readReg r s
  | .node i => { value := nodeWord s.mem i, after := s }
  | .ctHeader sym => { value := headerWord (ctEntry s.mem sym).valid (ctEntry s.mem sym).len, after := s }
  | .ctCode sym k => { value := codeWord s.mem sym k, after := s }
  | .ctReserved => { value := 0, after := s }
  | .unmapped => { value := 0, after := s }

/-- The command latch: PENDING <- d, BUSY <- 1 (R230, R53); the schedule says how many host accesses come before the engine
step (R231, R412; assumption log 3). -/
def latchCommand (d : Word) (s : State) : State :=
  { s with pending := d, busy := true, delay := s.schedule.headD 0, schedule := s.schedule.tail }

/-- A register write with BUSY = 0 (R334): CMD, ROOT and the two halves of SYMCOUNT take it, the others ignore it. -/
def writeReg (r : Reg) (d : Word) (s : State) : State :=
  match r with
  | .cmd => latchCommand d s
  | .root => { s with root := d.extractLsb' 0 9 }
  | .symcountLo => { s with symcount := highHalf s.symcount ++ d }
  | .symcountHi => { s with symcount := d ++ lowHalf s.symcount }
  | .id => s
  | .config => s
  | .status => s
  | .error => s
  | .dout => s
  | .reserved => s
  | .symsLo => s
  | .symsHi => s
  | .bitsLo => s
  | .bitsHi => s
  | .bitbuf => s
  | .cursor => s

/-- What a HDR write stores: VALID <- d[0], LEN <- d[31:16], the reserved bits 0 (R127). -/
def headerStored (d : Word) : Word := headerWord (d.getLsbD 0) (d.extractLsb' 16 16)

/-- The effect of an accepted write (R334). -/
def acceptWrite (t : Target) (d : Word) (s : State) : State :=
  match t with
  | .reg r => writeReg r d s
  | .node i => { s with mem := Memory.writeWord s.mem (nodeOffset i) d }
  | .ctHeader sym => { s with mem := Memory.writeWord s.mem (ctOffset sym 0) (headerStored d) }
  | .ctCode sym k => { s with mem := Memory.writeWord s.mem (ctOffset sym (1 + k)) d }
  | .ctReserved => s
  | .unmapped => s

/-- Is the target locked in this mode: CT RAM in ENC, its reserved words among it, NODE RAM in DEC (R337; assumption
log 18)? -/
def locked (t : Target) (m : Mode) : Bool :=
  (decide (m = .enc) && t.inCtRam) || (decide (m = .dec) && t.inNodeRam)

/-- `MemWrite(a, 4, d)` at an aligned offset of the window, in R338's precedence: dropped with OVERRUN while BUSY = 1
(R336), dropped with LOCKVIO at a locked table (R337), else R334. -/
def busWrite (a : Nat) (d : Word) (s : State) : State :=
  if s.busy then { s with overrun := true }
  else if locked (targetOf a) s.mode then { s with lockvio := true }
  else acceptWrite (targetOf a) d s

/-- The reset input (R400): every piece of the block's state takes R60's value; the build's parameters are constants, and
what the host has yet to do and has heard is not the block's (assumption log 15). -/
def resetBlock (s : State) : State :=
  { State.resetWith s.params with
    script := s.script
    heard := s.heard
    schedule := s.schedule
    draws := s.draws }

/-- Only an aligned 32-bit access inside the window reaches the block: another width or alignment is refused (R91, U1), an
offset past 0x7FFF does not exist (R80). -/
def checkedAccess (a size : Nat) (s : State) : Host.Outcome State Fault Refusal :=
  if size ≠ 4 ∨ a % 4 ≠ 0 then .refused (.misalignedAccess a size)
  else if Config.windowBytes ≤ a then .fault (.outsideWindow a)
  else .next s

/-- A read as the host performs it: the value returned goes to what the host has heard. -/
def hear (a : Nat) (r : ReadResult) : State := { r.after with heard := r.after.heard ++ [{ addr := a, value := r.value }] }

/-- The offset of STATUS (R32). -/
def statusOffset : Nat := 0x00C

/-- The offset of DOUT (R32). -/
def doutOffset : Nat := 0x014

/-- The offset of CMD (R32). -/
def cmdOffset : Nat := 0x008

/-- One action of the platform on the block. WAIT and DRAIN read once and stay in the script until the bit they poll is 0
(R134); BUSY is that bit of STATUS exactly, and an empty OUT or BUSY = 1 is DOUT's VALID = 0 (R36, R42; assumption log 17). -/
def perform (op : HostOp) (s : State) : Host.Outcome State Fault Refusal :=
  match op with
  | .read a size =>
    match checkedAccess a size s with
    | .next t => .next (hear a (busRead a t))
    | .fault f => .fault f
    | .refused r => .refused r
  | .write a size d =>
    match checkedAccess a size s with
    | .next t => .next (busWrite a d t)
    | .fault f => .fault f
    | .refused r => .refused r
  | .wait =>
    let t := hear statusOffset (busRead statusOffset s)
    .next (if s.busy then { t with script := .wait :: t.script } else t)
  | .drain =>
    let t := hear doutOffset (busRead doutOffset s)
    .next (if s.busy = false ∧ s.out ≠ [] then { t with script := .drain :: t.script } else t)
  | .reset => .next (resetBlock s)

/-- The platform takes an action off its script; while a command is latched that is one of the accesses its schedule lets
come before the engine step. -/
def beginAction (rest : List HostOp) (s : State) : State :=
  { s with script := rest, delay := if s.busy then s.delay - 1 else s.delay }

/-- The platform's turn. With nothing left to do and no command latched the block "has no step and waits for the host"
(R343): the state stays as it is. -/
def platformStep (s : State) : Host.Outcome State Fault Refusal :=
  match s.script with
  | [] => .next s
  | op :: rest => perform op (beginAction rest s)

end Sys2Proof.Machine
end

