-- ==== Sys2Proof/Machine/Control.lean ====
section
/-! DEFINITION. The control command CLEAR (45_control_and_bus.md R330, R331). -/

namespace Sys2Proof.Machine

open Sys2Proof

/-- CLEAR (R330): the one command executed in ERROR mode, and the block's return from an error (R369). -/
def execClear (s : State) : Host.Outcome State Fault Refusal := dispatchCommand .clear clearErrors s

end Sys2Proof.Machine
end

