-- ==== Sys2Proof/Machine/Decoder.lean ====
section
/-! DEFINITION. The decoder commands and the tree walk (44_decoder.md R290 to R300). -/

namespace Sys2Proof.Machine

open Sys2Proof

/-- DEC_OPEN's own rule (R290). -/
def decOpenBody (s : State) : State :=
  if outCount s ≠ 0 then raise .outNotEmpty 0x11 0 s
  else
    { s with
      rroot := s.root
      target := s.symcount
      cur := s.root
      depth := 0
      rcnt := 0
      syms := 0
      bits := 0
      mode := .dec }

/-- DEC_OPEN (R290). -/
def execDecOpen (s : State) : Host.Outcome State Fault Refusal := dispatchCommand .decOpen decOpenBody s

/-- How far a DEC_BYTE has come: still running, or abandoned by an error whose entry has been taken (R366: "abandon the
rest of the command"). -/
inductive Walk where
  | running (s : State)
  | raised (s : State)
deriving DecidableEq, Repr

/-- Emit a symbol: push it and count it and the bit that completed it (R294). -/
def emitSymbol (sym : Byte) (s : State) : State :=
  { push sym s with syms := s.syms + 1, bits := s.bits + 1 }

/-- The cursor back at the root (R294). -/
def toRoot (s : State) : State := { s with cur := s.rroot, depth := 0 }

/-- `walk_step(bit, v, i)` (R294 to R296). -/
def walkStep (bit : Bool) (v : Byte) (i : BitVec 3) (s : State) : Walk :=
  match nodeAt s.mem s.cur with
  | .leaf sym => if bit then .raised (raise .walkPastLeaf v i s) else .running (emitSymbol sym s)
  | .internal left right =>
    match nodeAt s.mem (childOf left right bit) with
    | .leaf sym => .running (toRoot (emitSymbol sym s))
    | .internal _ _ =>
      if Config.depthLimit ≤ s.depth.toNat + 1 then .raised (raise .depthExceeded v i s)
      else
        .running { s with cur := childOf left right bit, depth := s.depth + 1, bits := s.bits + 1 }
    | .empty => .raised (raise .malformedTree v i s)
    | .rsvd => .raised (raise .malformedTree v i s)
  | .empty => .raised (raise .malformedTree v i s)
  | .rsvd => .raised (raise .malformedTree v i s)

/-- `while RCNT > 0 and SYMS != TARGET: ...` (R291), on fuel: RCNT falls by one at each turn, so the RCNT of the state it
starts from is fuel enough. -/
def walkBits (v : Byte) : Nat → State → Walk
  | 0, s => .running s
  | n + 1, s =>
    if s.rcnt = 0 ∨ s.syms = s.target then .running s
    else
      match walkStep (bitToRead s) v ((s.rcnt - 1).setWidth 3) (consumeBit s) with
      | .running t => walkBits v n t
      | .raised t => .raised t

/-- The r low bits of a byte, `v[r−1:0]` (R298). -/
def lowBits (v : Byte) (r : Nat) : Byte := v &&& ((1#8 <<< r) - 1)

/-- Valid padding of r bits: the marker 1 and r − 1 zeros, `1 << (r−1)` (R208, R298). -/
def expectedPadding (r : Nat) : Byte := 1#8 <<< (r - 1)

/-- The highest position below n at which two bytes differ (0 if none does). -/
def highestDifference (x y : Byte) : Nat → Nat
  | 0 => 0
  | n + 1 => if x.getLsbD n = y.getLsbD n then highestDifference x y n else n

/-- `check_padding(v, r)`: the position R298 names if the padding is wrong, nothing if it is valid. -/
def paddingError (v : Byte) (r : Nat) : Option (BitVec 3) :=
  if lowBits v r = expectedPadding r then none
  else some (BitVec.ofNat 3 (highestDifference (lowBits v r) (expectedPadding r) 8))

/-- The end of a DEC_BYTE whose walk raised nothing: check the padding if the count is reached inside the byte (R291,
R298). RBUF keeps its byte (assumption log 16). -/
def finishByte (v : Byte) (s : State) : State :=
  if s.syms = s.target ∧ s.rcnt ≠ 0 then
    match paddingError v s.rcnt.toNat with
    | some j => raise .badPadding v j s
    | none => { s with rcnt := 0 }
  else s

/-- DEC_BYTE's own rule (R291). -/
def decByteBody (v : Byte) (s : State) : State :=
  if s.syms = s.target then raise .trailingData v 0 s
  else if freeRoom s < decodeRoom s then raise .outOverflow 0x12 0 s
  else
    match walkBits v 8 (load v s) with
    | .running t => finishByte v t
    | .raised t => t

/-- DEC_BYTE v (R291). -/
def execDecByte (v : Byte) (s : State) : Host.Outcome State Fault Refusal :=
  dispatchCommand (.decByte v) (decByteBody v) s

/-- DEC_END's own rule (R299). -/
def decEndBody (s : State) : State :=
  if s.syms ≠ s.target then raise .prematureEnd 0 0 s else { s with mode := .idle }

/-- DEC_END (R299). -/
def execDecEnd (s : State) : Host.Outcome State Fault Refusal := dispatchCommand .decEnd decEndBody s

end Sys2Proof.Machine
end

