-- ==== Sys2Proof/Machine/Encoder.lean ====
section
/-! DEFINITION. The encoder commands (43_encoder.md R260 to R263). -/

namespace Sys2Proof.Machine

open Sys2Proof

/-- ENC_OPEN's own rule (R260). -/
def encOpenBody (s : State) : State :=
  if outCount s ≠ 0 then raise .outNotEmpty 0x01 0 s
  else { s with wbuf := 0, wcnt := 0, syms := 0, bits := 0, mode := .enc }

/-- ENC_OPEN (R260). -/
def execEncOpen (s : State) : Host.Outcome State Fault Refusal := dispatchCommand .encOpen encOpenBody s

/-- What ENC_SYM does once every check has passed: the LEN bits of CODE, most significant first, and the two counters
(R261). -/
def emitCodeword (e : CtEntry) (s : State) : State :=
  let t := writeCode e.code e.len.toNat s
  { t with syms := t.syms + 1, bits := t.bits + e.len.setWidth 64 }

/-- ENC_SYM's own rule, its checks in R238's order (R261). -/
def encSymBody (sym : Byte) (s : State) : State :=
  let e := ctEntry s.mem sym
  if e.valid = false then raise .notInTable sym 0 s
  else if e.len = 0 then raise .zeroLengthCode sym 0 s
  else if s.params.lmax.toNat < e.len.toNat then raise .codeTooLong sym 0 s
  else if freeRoom s < encodeRoom s e.len.toNat then raise .outOverflow 0x02 0 s
  else emitCodeword e s

/-- ENC_SYM s (R261). -/
def execEncSym (sym : Byte) (s : State) : Host.Outcome State Fault Refusal :=
  dispatchCommand (.encSym sym) (encSymBody sym) s

/-- ENC_BIT's own rule (R262). -/
def encBitBody (b : Bool) (s : State) : State :=
  if freeRoom s < encodeRoom s 1 then raise .outOverflow 0x03 0 s
  else
    let t := writeBit b s
    { t with bits := t.bits + 1 }

/-- ENC_BIT b (R262). -/
def execEncBit (b : Bool) (s : State) : Host.Outcome State Fault Refusal :=
  dispatchCommand (.encBit b) (encBitBody b) s

/-- ENC_FINISH's own rule (R263). -/
def encFinishBody (s : State) : State := { finish s with mode := .idle }

/-- ENC_FINISH (R263). -/
def execEncFinish (s : State) : Host.Outcome State Fault Refusal := dispatchCommand .encFinish encFinishBody s

end Sys2Proof.Machine
end

