-- ==== Sys2Proof/Machine/Dispatch.lean ====
section
/-! DEFINITION. One arm per command (42_command_dispatch.md R235). -/

namespace Sys2Proof.Machine

open Sys2Proof

def exec (i : Instr) (s : State) : Host.Outcome State Fault Refusal :=
  match i with
  | .encOpen => Sys2Proof.Machine.execEncOpen s
  | .encSym sym => Sys2Proof.Machine.execEncSym sym s
  | .encBit b => Sys2Proof.Machine.execEncBit b s
  | .encFinish => Sys2Proof.Machine.execEncFinish s
  | .decOpen => Sys2Proof.Machine.execDecOpen s
  | .decByte v => Sys2Proof.Machine.execDecByte v s
  | .decEnd => Sys2Proof.Machine.execDecEnd s
  | .clear => Sys2Proof.Machine.execClear s

end Sys2Proof.Machine
end

