-- ==== Sys2Proof/Machine/Engine.lean ====
section
/-! DEFINITION. The engine's step and whose turn it is (42_command_dispatch.md R231, 00_scope.md R10, R11). -/

namespace Sys2Proof.Machine

open Sys2Proof

/-- Is it the engine's turn? "The engine has a step exactly when BUSY = 1" (R231); the platform may come before it as often
as the schedule lets it, and no longer than it has something to do, so the step "is always eventually taken" (R413). -/
def engineTurn (s : State) : Bool := s.busy && (decide (s.delay = 0) || s.script.isEmpty)

/-- The engine step (R231): decode PENDING, run the command or raise ILLEGAL_COMMAND, then BUSY <- 0. -/
def engineStep (s : State) : Host.Outcome State Fault Refusal :=
  match decode s.pending with
  | .command i =>
    match exec i s with
    | .next t => .next (retire t)
    | .fault f => .fault f
    | .refused r => .refused r
  | .illegal _ => .next (retire (illegalCommand s.pending s))

/-- The state in which a word of `nbits` bits is latched in PENDING and it is the engine's turn. -/
def latchedWith (s : State) (nbits w : Nat) : State :=
  { s with pending := BitVec.ofNat 32 (w % 2 ^ nbits), busy := true, delay := 0 }

end Sys2Proof.Machine
end

