-- ==== Sys2Proof/Machine/Step.lean ====
section
/-! DEFINITION. One step of the machine: the engine's, or the platform's (00_scope.md R10). -/

namespace Sys2Proof.Machine

open Sys2Proof

/-- One step. -/
def step (s : State) : Host.Outcome State Fault Refusal := if engineTurn s then engineStep s else platformStep s

/-- The command word stands where the engine takes its next command from: latched in PENDING with BUSY = 1 (R53, R230), as
a CMD write leaves it, and the engine's step is the next one (assumption log 9). -/
def State.withFetchWord (s : State) (nbits w : Nat) : State := latchedWith s nbits w

end Sys2Proof.Machine
end

