-- ==== Sys2Proof/Machine/HostProgram.lean ====
section
/-! DEFINITION. Host programs: the spec's textual operations and pseudo-commands as the platform actions they stand for
(30_encoding.md R133, R134), the tables a launch state is named by, and the launch state (70_reset_and_hazards.md R403). -/

namespace Sys2Proof.Machine

open Sys2Proof

/-- `WR <off>, <val>` (R133). -/
def wr (off : Nat) (val : Word) : HostOp := .write off 4 val

/-- `RD <off>` (R133). -/
def rd (off : Nat) : HostOp := .read off 4

/-- `.word <w>`: write the raw word to CMD (R133). -/
def rawWord (w : Word) : HostOp := wr cmdOffset w

/-- A command X: write its word to CMD (R133). -/
def issue (i : Instr) : HostOp := rawWord (encode i)

/-- `X!`: X then WAIT (R134). -/
def issueWait (i : Instr) : List HostOp := [issue i, .wait]

/-- `ENC_STR`: each byte in order, `ENC_SYM c` then WAIT (R134). -/
def encStr (text : List Byte) : List HostOp := text.flatMap (fun c => issueWait (.encSym c))

/-- `SETCOUNT <n>` (R134). -/
def setCount (n : Count) : List HostOp := [wr 0x020 (lowHalf n), wr 0x024 (highHalf n)]

/-- `NODE <i>, LEAF <s>` (R134). -/
def nodeLeaf (i : NodeIndex) (s : Byte) : HostOp := wr (nodeOffset i) (leafWord s)

/-- `NODE <i>, INT <l>, <r>` (R134). -/
def nodeInt (i l r : NodeIndex) : HostOp := wr (nodeOffset i) (internalWord l r)

/-- The value the last read of an offset returned. -/
def lastHeard (a : Nat) : List Reply → Option Word
  | [] => none
  | r :: rest =>
    match lastHeard a rest with
    | some v => some v
    | none => if r.addr = a then some r.value else none

/-- The values DOUT returned with VALID = 1, in order: the output of a run (R134, R342). -/
def keptOf (heard : List Reply) : List Byte :=
  (heard.filter (fun r => r.addr = doutOffset && r.value.getLsbD 8)).map (fun r => r.value.extractLsb' 0 8)

/-- The commands of an encode stream (R264). -/
def encodeCommands (text : List Byte) : List Instr := .encOpen :: (text.map Instr.encSym ++ [.encFinish])

/-- The commands of a decode stream (R301). -/
def decodeCommands (stream : List Byte) : List Instr := .decOpen :: (stream.map Instr.decByte ++ [.decEnd])

/-- The value of a bit sequence, first bit most significant (R14). -/
def codeValue (bits : List Bool) : CodeValue :=
  bits.foldl (fun acc b => (acc <<< 1) ||| (BitVec.ofBool b).setWidth 256) 0

/-- Word k of a codeword value: `code[32k+31:32k]` (R134). -/
def codeWordOf (c : CodeValue) (k : Nat) : Word := c.extractLsb' (32 * k) 32

/-- `CODE <s>, "<bits>"`: CODE0..CODE7, then HDR with VALID = 1 (R134, R335). -/
def codeEntry (s : Byte) (bits : List Bool) : List HostOp :=
  (List.range 8).map (fun k => wr (ctOffset s (1 + k)) (codeWordOf (codeValue bits) k)) ++
    [wr (ctOffset s 0) (headerWord true (BitVec.ofNat 16 bits.length))]

/-- `NOCODE <s>` (R134). -/
def noCode (s : Byte) : HostOp := wr (ctOffset s 0) 0

/-- Replace an entry as R335 has a host do it: VALID = 0, then CODE0..CODE7, then HDR with VALID = 1. -/
def replaceEntry (s : Byte) (bits : List Bool) : List HostOp := noCode s :: codeEntry s bits

/-- The four inputs that name a launch state: NODE0, ROOT0, CT0 and SYMCOUNT0 (R403). Entries not listed are those of
reset. -/
structure Tables where
  nodes : List (NodeIndex × Word)
  entries : List (Byte × CtEntry)
  root : NodeIndex
  symcount : Count
deriving DecidableEq, Repr

/-- The words of one CT entry stored in a memory (R85, R127, R128). -/
def storeEntry (m : List Host.Cell) (s : Byte) (e : CtEntry) : List Host.Cell :=
  (List.range 8).foldl (fun m k => Memory.writeWord m (ctOffset s (1 + k)) (codeWordOf e.code k))
    (Memory.writeWord m (ctOffset s 0) (headerWord e.valid e.len))

/-- The RAM contents of the tables. -/
def Tables.memory (t : Tables) : List Host.Cell :=
  t.entries.foldl (fun m e => storeEntry m e.1 e.2)
    (t.nodes.foldl (fun m n => Memory.writeWord m (nodeOffset n.1) n.2) [])

/-- The launch state: the reset state with the tables loaded (R403), a host program to perform, and the schedule of the
engine's steps among its accesses (assumption log 3). -/
def launch (p : Params) (t : Tables) (program : List HostOp) (schedule : List Nat) : State :=
  { State.resetWith p with
    mem := t.memory
    root := t.root
    symcount := t.symcount
    script := program
    schedule := schedule }

end Sys2Proof.Machine
end

