-- ==== Sys2Proof/Machine/Assembler.lean ====
section
/-! DEFINITION. Host programs as text: one operation per line, `;` starting a comment (30_encoding.md R133), the
pseudo-commands by their expansions (R134). What the spec leaves open of the spelling is assumption log 19's. -/

namespace Sys2Proof.Machine

open Sys2Proof

/-- A piece of a line: a mnemonic, name or number; a character between single quotes; a text between double quotes. -/
inductive Token where
  | name (cs : List Char)
  | character (c : Char)
  | text (cs : List Char)
deriving DecidableEq, Repr

/-- Where the reading of a line stands: between pieces, in a name or in a text, whose characters are kept last first. -/
inductive LexMode where
  | between
  | inName (reversed : List Char)
  | inText (reversed : List Char)
deriving DecidableEq, Repr

/-- What ends a name and is skipped between pieces: a space, a tab, a comma. DESIGN CHOICE (assumption log 19): a comma counts
as a blank wherever it stands outside quotes. -/
def isSeparator (c : Char) : Bool := c = ' ' || c = '\t' || c = ','

/-- One more piece before the others. -/
def addToken (t : Token) (rest : Option (List Token)) : Option (List Token) :=
  match rest with
  | some ts => some (t :: ts)
  | none => none

/-- The pieces of a line up to its comment; none where a quote is not closed. R133 and R134 write a line's pattern and do not
say how pieces may be separated. DESIGN CHOICE (assumption log 19): blanks and commas are skipped in any number and at any
place, the ends of the line among them, and are not required where the pattern has them; a quoted piece ends at its closing
quote, so nothing need stand after it; a quote within a name is a character of the name. -/
def lexFrom : LexMode → List Char → Option (List Token)
  | .between, [] => some []
  | .inName r, [] => some [.name r.reverse]
  | .inText _, [] => none
  | .inText r, c :: cs => if c = '"' then addToken (.text r.reverse) (lexFrom .between cs) else lexFrom (.inText (c :: r)) cs
  | .inName r, c :: cs =>
    if c = ';' then some [.name r.reverse]
    else if isSeparator c then addToken (.name r.reverse) (lexFrom .between cs)
    else lexFrom (.inName (c :: r)) cs
  | .between, c :: cs =>
    if c = ';' then some []
    else if isSeparator c then lexFrom .between cs
    else if c = '"' then lexFrom (.inText []) cs
    else if c = '\'' then
      match cs with
      | x :: q :: rest => if q = '\'' then addToken (.character x) (lexFrom .between rest) else none
      | [_] => none
      | [] => none
    else lexFrom (.inName [c]) cs

/-- The value of a digit in a base up to 16. -/
def digitValue (base : Nat) (c : Char) : Option Nat :=
  let n :=
    if '0' ≤ c ∧ c ≤ '9' then c.toNat - '0'.toNat
    else if 'a' ≤ c ∧ c ≤ 'f' then c.toNat - 'a'.toNat + 10
    else if 'A' ≤ c ∧ c ≤ 'F' then c.toNat - 'A'.toNat + 10
    else base
  if n < base then some n else none

/-- The rest of a digit sequence after the digits already read. Where `separated`, one `_` may stand between two digits. -/
def digitsFrom (base : Nat) (separated : Bool) (acc : Nat) : List Char → Option Nat
  | [] => some acc
  | c :: cs =>
    match digitValue base c with
    | some d => digitsFrom base separated (acc * base + d) cs
    | none =>
      if separated = true ∧ c = '_' then
        match cs with
        | [] => none
        | d :: ds =>
          match digitValue base d with
          | some v => digitsFrom base separated (acc * base + v) ds
          | none => none
      else none

/-- A digit sequence: it begins with a digit. -/
def readDigits (base : Nat) (separated : Bool) : List Char → Option Nat
  | [] => none
  | c :: cs =>
    match digitValue base c with
    | some d => digitsFrom base separated d cs
    | none => none

/-- A number as the spec writes them: decimal, or hexadecimal after `0x` "with optional `_` separators" (R12). -/
def readNumber : List Char → Option Nat
  | '0' :: 'x' :: ds => readDigits 16 true ds
  | ds => readDigits 10 false ds

/-- A piece as an operand of R133's table. -/
def operandOf : Token → Option LineOperand
  | .character c => some (.character c)
  | .name cs =>
    match readNumber cs with
    | some n => some (.number n)
    | none => none
  | .text _ => none

/-- The pieces after a mnemonic as operands of R133's table. -/
def operandsOf : List Token → Assembled (List LineOperand)
  | [] => .accepted []
  | t :: ts =>
    match operandOf t with
    | some x => (operandsOf ts).andThen (fun xs => .accepted (x :: xs))
    | none => .refusedLine .operandKind

/-- What a line of R133's table does to the block. -/
def operationOp : Operation → HostOp
  | .command i => issue i
  | .write off val => wr off val
  | .read off => rd off
  | .raw w => rawWord w

/-- A number below a bound, from a piece. -/
def numberToken (bound : Nat) (t : Token) : Assembled Nat :=
  match operandOf t with
  | some x => numberBelow bound x
  | none => .refusedLine .operandKind

/-- A symbol, from a piece. -/
def symbolToken (t : Token) : Assembled Byte :=
  match operandOf t with
  | some x => symbolOperand x
  | none => .refusedLine .operandKind

/-- An arena index, from a piece. -/
def indexToken (t : Token) : Assembled NodeIndex :=
  (numberToken Config.nodeEntries t).andThen (fun n => .accepted (BitVec.ofNat 9 n))

/-- The bytes of ENC_STR's text. R134 speaks of "each byte c of text" and gives no text encoding. DESIGN CHOICE (assumption
log 19): a character stands for its ASCII code, as R133's character operand does, and one beyond ASCII is refused. -/
def textBytes : List Char → Assembled (List Byte)
  | [] => .accepted []
  | c :: cs => (asciiCode c).andThen (fun b => (textBytes cs).andThen (fun bs => .accepted (b :: bs)))

/-- A codeword's text: a string of `0`/`1` characters, first character first bit (R132, R134). -/
def codewordOfText : List Char → Option (List Bool)
  | [] => some []
  | c :: cs =>
    match codewordOfText cs with
    | none => none
    | some bits => if c = '0' then some (false :: bits) else if c = '1' then some (true :: bits) else none

/-- A line of R133's table. -/
def assembleOperation (m : List Char) (args : List Token) : Assembled Operation :=
  (operandsOf args).andThen (fun xs => SourceLine.assemble { mnemonic := String.ofList m, operands := xs })

/-- `X!` for a command X: X, then WAIT (R134); it stands on a command only. -/
def assembleWaiting (m : List Char) (args : List Token) : Assembled (List HostOp) :=
  (assembleOperation m args).andThen fun o =>
    match o with
    | .command i => .accepted (issueWait i)
    | .write _ _ => .refusedLine .unknownMnemonic
    | .read _ => .refusedLine .unknownMnemonic
    | .raw _ => .refusedLine .unknownMnemonic

/-- `NODE <i>, LEAF <s>` and `NODE <i>, INT <l>, <r>` (R134). -/
def assembleNode : List Token → Assembled (List HostOp)
  | i :: .name kind :: args =>
    (indexToken i).andThen fun i =>
      if kind = ['L', 'E', 'A', 'F'] then
        match args with
        | [s] => (symbolToken s).andThen (fun s => .accepted [nodeLeaf i s])
        | _ => .refusedLine .operandCount
      else if kind = ['I', 'N', 'T'] then
        match args with
        | [l, r] => (indexToken l).andThen (fun l => (indexToken r).andThen (fun r => .accepted [nodeInt i l r]))
        | _ => .refusedLine .operandCount
      else .refusedLine .operandKind
  | _ :: _ :: _ => .refusedLine .operandKind
  | _ => .refusedLine .operandCount

/-- `CODE <s>, "<bits>"`, the length within HDR's 16-bit LEN (R134, R127). -/
def assembleCode : List Token → Assembled (List HostOp)
  | [s, .text cs] =>
    (symbolToken s).andThen fun s =>
      match codewordOfText cs with
      | some bits => if bits.length < 2 ^ 16 then .accepted (codeEntry s bits) else .refusedLine .operandOutOfRange
      | none => .refusedLine .operandOutOfRange
  | [_, _] => .refusedLine .operandKind
  | _ => .refusedLine .operandCount

/-- A pseudo-command with one operand. -/
def assemblePseudo {α : Type} (operand : Token → Assembled α) (expand : α → List HostOp) :
    List Token → Assembled (List HostOp)
  | [t] => (operand t).andThen (fun a => .accepted (expand a))
  | [] => .refusedLine .operandCount
  | _ :: _ :: _ => .refusedLine .operandCount

/-- The bytes of a quoted text, from a piece. -/
def textToken : Token → Assembled (List Byte)
  | .text cs => textBytes cs
  | .name _ => .refusedLine .operandKind
  | .character _ => .refusedLine .operandKind

/-- A pseudo-command without operands. -/
def assemblePoll (op : HostOp) : List Token → Assembled (List HostOp)
  | [] => .accepted [op]
  | _ :: _ => .refusedLine .operandCount

/-- The mnemonic before a final `!`, if there is one. -/
def beforeBang (m : List Char) : Option (List Char) := if m.getLast? = some '!' then some m.dropLast else none

/-- What the pieces of a line do: a pseudo-command's expansion (R134), or an operation of R133's table. -/
def assembleTokens : List Token → Assembled (List HostOp)
  | [] => .accepted []
  | .name m :: args =>
    match beforeBang m with
    | some x => assembleWaiting x args
    | none =>
      if m = ['W', 'A', 'I', 'T'] then assemblePoll .wait args
      else if m = ['D', 'R', 'A', 'I', 'N'] then assemblePoll .drain args
      else if m = ['E', 'N', 'C', '_', 'S', 'T', 'R'] then assemblePseudo textToken encStr args
      else if m = ['S', 'E', 'T', 'C', 'O', 'U', 'N', 'T'] then
        assemblePseudo (numberToken (2 ^ 64)) (fun n => setCount (BitVec.ofNat 64 n)) args
      else if m = ['N', 'O', 'D', 'E'] then assembleNode args
      else if m = ['C', 'O', 'D', 'E'] then assembleCode args
      else if m = ['N', 'O', 'C', 'O', 'D', 'E'] then assemblePseudo symbolToken (fun s => [noCode s]) args
      else (assembleOperation m args).andThen (fun o => .accepted [operationOp o])
  | .character _ :: _ => .refusedLine .unknownMnemonic
  | .text _ :: _ => .refusedLine .unknownMnemonic

/-- What a line of text does (R133, R134). -/
def assembleLine (line : List Char) : Assembled (List HostOp) :=
  match lexFrom .between line with
  | some ts => assembleTokens ts
  | none => .refusedLine .operandKind

/-- The lines of a program's text; the characters of the line being read are kept last first. -/
def linesFrom (reversed : List Char) : List Char → List (List Char)
  | [] => [reversed.reverse]
  | c :: cs => if c = '\n' then reversed.reverse :: linesFrom [] cs else linesFrom (c :: reversed) cs

/-- The actions of a program, line after line, or the first refusal. -/
def assembleLines : List (List Char) → Assembled (List HostOp)
  | [] => .accepted []
  | l :: ls => (assembleLine l).andThen (fun ops => (assembleLines ls).andThen (fun rest => .accepted (ops ++ rest)))

/-- A host program from its text (R133, R134). -/
def assembleProgram (source : List Char) : Assembled (List HostOp) := assembleLines (linesFrom [] source)

end Sys2Proof.Machine
end

