-- ==== Sys2Proof/Machine/Offline.lean ====
section
/-! DEFINITION. The host's offline obligations (40_host_offline.md R160 to R179): alphabet validation, the two-queue tree
builder, codeword derivation, the writes that load the block, the persisted file, the textual codebook and the boot
sequence (70_reset_and_hazards.md R404); the encode and decode procedures are Procedures.lean's. The block computes none of this ("tree construction is software-offline", R4, R8); it is what a host must do for the round trip to
hold. -/

namespace Sys2Proof.Machine.Offline

open Sys2Proof Sys2Proof.Machine

/-- A weight as the host may be given it (R160). Finite weights are integers: "both sides build the tree from the header's
integer frequencies" (R162; assumption log 13). -/
inductive Weight where
  | finite (z : Int)
  | notFinite
deriving DecidableEq, Repr

/-- The failures that are the host's own (R160, R364). The last five are named by the model: the spec names no error there
(assumption log 21). -/
inductive HostError where
  /-- An empty alphabet, a negative or non-finite weight, a duplicate symbol (R160). -/
  | invalidInput
  /-- A malformed header (R364); which headers are malformed is the model's choice (assumption log 20). -/
  | corruptStream
  /-- A codeword longer than LMAX, found before loading (R168, R404 step 3). MODEL'S NAME: the spec gives this error to the
  block and names none for the host's own check. -/
  | unsupportedAlphabetSize
  /-- MODEL'S NAME: a frequency of 2^32 or more, which the header's 4-byte integer cannot hold (R174). -/
  | frequencyTooLarge
  /-- MODEL'S NAME: a codebook with a line that is not `symbol;codeword\n`, with a codeword character that is neither `0` nor `1`, with an empty codeword, or with
  codewords that are no prefix code, which therefore have no trie (R14, R132, R178). -/
  | badCodebook
  /-- MODEL'S NAME: a codebook's trie takes more than the 512 words of NODE RAM (R170, R178). -/
  | arenaTooLarge
  /-- MODEL'S NAME: ID did not read ID_VALUE, or ID or CONFIG was not read (R404 step 2). -/
  | wrongIdentity
deriving DecidableEq, Repr

/-- A weighted symbol: its weight, its byte. -/
structure Weighted where
  weight : Nat
  sym : Byte
deriving DecidableEq, Repr

/-- A host computation's result. -/
inductive Result (α : Type) where
  | done (a : α)
  | failed (e : HostError)
deriving DecidableEq, Repr

/-- The weight a tree can be built with, if the host accepts it (R160). -/
def acceptedWeight : Weight → Option Nat
  | .finite z => if 0 ≤ z then some z.toNat else none
  | .notFinite => none

/-- The accepted pairs of an alphabet, if every weight is accepted. -/
def acceptedPairs : List (Byte × Weight) → Option (List Weighted)
  | [] => some []
  | (s, w) :: rest =>
    match acceptedWeight w, acceptedPairs rest with
    | some n, some ps => some ({ weight := n, sym := s } :: ps)
    | _, _ => none

/-- Alphabet validation (R160). -/
def validate (alphabet : List (Byte × Weight)) : Result (List Weighted) :=
  match acceptedPairs alphabet with
  | some [] => .failed .invalidInput
  | some ps => if (ps.map Weighted.sym).Nodup then .done ps else .failed .invalidInput
  | none => .failed .invalidInput

/-- Does x come before y: ascending weight, equal weights in ascending symbol order (R161)? -/
def comesBefore (x y : Weighted) : Bool :=
  decide (x.weight < y.weight) || (decide (x.weight = y.weight) && decide (x.sym.toNat ≤ y.sym.toNat))

/-- Insert into a sorted sequence. -/
def insertSorted (x : Weighted) : List Weighted → List Weighted
  | [] => [x]
  | y :: ys => if comesBefore x y then x :: y :: ys else y :: insertSorted x ys

/-- The tree builder's input order (R161). -/
def sortAlphabet : List Weighted → List Weighted
  | [] => []
  | x :: xs => insertSorted x (sortAlphabet xs)

/-- A tree with each node's canonical arena index (R170) and weight. -/
inductive Tree where
  | leaf (index weight : Nat) (sym : Byte)
  | internal (index weight : Nat) (left right : Tree)
deriving DecidableEq, Repr

/-- The weight of a tree's root. -/
def Tree.weight : Tree → Nat
  | .leaf _ w _ => w
  | .internal _ w _ _ => w

/-- The arena index of a tree's root. -/
def Tree.index : Tree → Nat
  | .leaf i _ _ => i
  | .internal i _ _ _ => i

/-- A selected node and the queues without it. -/
structure Selected where
  node : Tree
  queueA : List Tree
  queueB : List Tree
deriving DecidableEq, Repr

/-- The selection rule: the lower-weight front, queueA on a tie, an empty queue as weight +∞ (R163). -/
def select : List Tree → List Tree → Option Selected
  | [], [] => none
  | a :: as, [] => some { node := a, queueA := as, queueB := [] }
  | [], b :: bs => some { node := b, queueA := [], queueB := bs }
  | a :: as, b :: bs =>
    if a.weight ≤ b.weight then some { node := a, queueA := as, queueB := b :: bs }
    else some { node := b, queueA := a :: as, queueB := bs }

/-- The two-queue merge on fuel; `next` is the index of the next Internal node created (R164, R170). -/
def mergeQueues : Nat → Nat → List Tree → List Tree → Option Tree
  | 0, _, _, _ => none
  | fuel + 1, next, qa, qb =>
    match select qa qb with
    | none => none
    | some c1 =>
      match select c1.queueA c1.queueB with
      | none => some c1.node
      | some c2 =>
        mergeQueues fuel (next + 1) c2.queueA
          (c2.queueB ++ [.internal next (c1.node.weight + c2.node.weight) c1.node c2.node])

/-- The leaves in sorted order at indices 0.. (R170). -/
def leavesFrom : Nat → List Weighted → List Tree
  | _, [] => []
  | i, x :: xs => .leaf i x.weight x.sym :: leavesFrom (i + 1) xs

/-- The tree of a sorted alphabet (R164, R165); none only for the empty one. -/
def buildTree (sorted : List Weighted) : Option Tree :=
  mergeQueues sorted.length sorted.length (leavesFrom 0 sorted) []

/-- The depth-first traversal: 0 to the left, 1 to the right (R166). -/
def pathsFrom (path : List Bool) : Tree → List (Byte × List Bool)
  | .leaf _ _ s => [(s, path)]
  | .internal _ _ l r => pathsFrom (path ++ [false]) l ++ pathsFrom (path ++ [true]) r

/-- The codewords of a tree; a single leaf gets the codeword "0" (R166, R167). -/
def codewords : Tree → List (Byte × List Bool)
  | .leaf _ _ s => [(s, [false])]
  | .internal i w l r => pathsFrom [] (.internal i w l r)

/-- The arena: each node's index and word (R170). -/
def arena : Tree → List (NodeIndex × Word)
  | .leaf i _ s => [(BitVec.ofNat 9 i, leafWord s)]
  | .internal i _ l r =>
    arena l ++ arena r ++ [(BitVec.ofNat 9 i, internalWord (BitVec.ofNat 9 l.index) (BitVec.ofNat 9 r.index))]

/-- Is every codeword at most LMAX bits (R168, R404 step 3)? -/
def codesFit (p : Params) (codes : List (Byte × List Bool)) : Bool :=
  codes.all (fun c => decide (c.2.length ≤ p.lmax.toNat))

/-- The writes that load an arena's words, ROOT and SYMCOUNT (R170, R171, R176, R404 step 4). -/
def loadArena (nodes : List (NodeIndex × Word)) (root : NodeIndex) (count : Count) : List HostOp :=
  nodes.map (fun n => wr (nodeOffset n.1) n.2) ++ [wr 0x018 (root.setWidth 32)] ++ setCount count

/-- The writes that load a decoder's tree and count (R170, R171, R176, R404 step 4). -/
def loadDecoder (t : Tree) (count : Count) : List HostOp := loadArena (arena t) (BitVec.ofNat 9 t.index) count

/-- Every symbol byte, in order. -/
def allSymbols : List Byte := (List.range 256).map (BitVec.ofNat 8)

/-- The writes that load an encoder's table: the alphabet's entries, each replaced as R335 says, since an earlier load may
have left it valid, and VALID = 0 in every other (R172, R404 step 5). -/
def loadEncoder (codes : List (Byte × List Bool)) : List HostOp :=
  codes.flatMap (fun c => replaceEntry c.1 c.2) ++
    (allSymbols.filter (fun s => !(codes.map Prod.fst).contains s)).map noCode

/-- The CT entry of a codeword (R172). -/
def entryOf (bits : List Bool) : CtEntry :=
  { valid := true, len := BitVec.ofNat 16 bits.length, code := codeValue bits }

/-- The tables of one tree: what the loads leave in the block (R173, R403). -/
def tablesOf (t : Tree) (count : Count) : Tables :=
  { nodes := arena t
    entries := (codewords t).map (fun c => (c.1, entryOf c.2))
    root := BitVec.ofNat 9 t.index
    symcount := count }

/-- A 4-byte integer of the header: unsigned, least significant byte first (R174). -/
def headerInt (n : Word) : List Byte := [Memory.lane n 0, Memory.lane n 1, Memory.lane n 2, Memory.lane n 3]

/-- A (symbol, frequency) entry of the header. -/
structure HeaderEntry where
  sym : Byte
  freq : Word
deriving DecidableEq, Repr

/-- The header entry of a weighted symbol: its weight as the frequency, where four bytes hold it (R162, R174). -/
def headerEntry (x : Weighted) : Option HeaderEntry :=
  if x.weight < 2 ^ 32 then some { sym := x.sym, freq := BitVec.ofNat 32 x.weight } else none

/-- The header entries of a sequence of weighted symbols, in its order. -/
def headerEntries : List Weighted → Option (List HeaderEntry)
  | [] => some []
  | x :: xs =>
    match headerEntry x, headerEntries xs with
    | some e, some es => some (e :: es)
    | _, _ => none

/-- The header entries of an accepted alphabet, "in the same iteration order used to build the tree": that of the sorted
alphabet the tree builder takes (R161, R174). -/
def headerOf (ps : List Weighted) : Option (List HeaderEntry) := headerEntries (sortAlphabet ps)

/-- The persisted header, `4 + 5·n` bytes (R174). -/
def headerBytes (entries : List HeaderEntry) : List Byte :=
  headerInt (BitVec.ofNat 32 entries.length) ++ entries.flatMap (fun e => e.sym :: headerInt e.freq)

/-- The file an encoding host writes: the header of its alphabet, and the bytes it popped immediately after it (R174,
R177). -/
def writeFile (alphabet : List (Byte × Weight)) (payload : List Byte) : Result (List Byte) :=
  match validate alphabet with
  | .failed e => .failed e
  | .done ps =>
    match headerOf ps with
    | some es => .done (headerBytes es ++ payload)
    | none => .failed .frequencyTooLarge

/-- Read n header entries; the bytes after them are the payload (R177). -/
def readEntries : Nat → List Byte → Option (List HeaderEntry × List Byte)
  | 0, bs => some ([], bs)
  | n + 1, s :: b0 :: b1 :: b2 :: b3 :: bs =>
    match readEntries n bs with
    | some (es, payload) => some ({ sym := s, freq := b3 ++ b2 ++ b1 ++ b0 } :: es, payload)
    | none => none
  | _ + 1, _ => none

/-- Parse a file into its header and payload (R174, R177). The host raises CorruptStream for a "malformed header" (R364), and
the spec does not say which headers are malformed. DESIGN CHOICE (assumption log 20): exactly a file that ends before the
`4 + 5·n` bytes its count asks for; an empty header and one that names a symbol twice parse, and `treeOf` refuses them as
InvalidInput (R160). -/
def parseFile : List Byte → Result (List HeaderEntry × List Byte)
  | b0 :: b1 :: b2 :: b3 :: bs =>
    match readEntries (b3 ++ b2 ++ b1 ++ b0 : Word).toNat bs with
    | some r => .done r
    | none => .failed .corruptStream
  | _ => .failed .corruptStream

/-- The symbol count a header implies: the sum of its frequencies (R176). -/
def headerCount (entries : List HeaderEntry) : Count := entries.foldl (fun n e => n + e.freq.setWidth 64) 0

/-- The alphabet a header gives, weights being the integer frequencies (R162, R175). -/
def headerAlphabet (entries : List HeaderEntry) : List (Byte × Weight) :=
  entries.map (fun e => (e.sym, .finite e.freq.toNat))

/-- The tree of an alphabet, or the host's failure (R160 to R165). -/
def treeOf (alphabet : List (Byte × Weight)) : Result Tree :=
  match validate alphabet with
  | .failed e => .failed e
  | .done ps =>
    match buildTree (sortAlphabet ps) with
    | some t => .done t
    | none => .failed .invalidInput

/-- What a decoding host gets from a file: the tree to load, the count for SYMCOUNT, the bytes to feed. -/
structure OpenedFile where
  tree : Tree
  count : Count
  payload : List Byte
deriving DecidableEq, Repr

/-- A decoding host opens a file: it parses the header and re-runs the tree builder over its pairs "sorted by the same rule"
(R175); the count is the header's sum, for frequencies that are occurrence counts (R176). -/
def openFile (file : List Byte) : Result OpenedFile :=
  match parseFile file with
  | .failed e => .failed e
  | .done (es, payload) =>
    match treeOf (headerAlphabet es) with
    | .failed e => .failed e
    | .done t => .done { tree := t, count := headerCount es, payload := payload }

/-- A line of a codebook, `symbol;codeword\n` (R132): the symbol its first field spells, and its codeword text. -/
structure CodebookLine where
  sym : Byte
  codeword : List Char
deriving DecidableEq, Repr

/-- The text of a codeword: one `0` or `1` character per bit, first bit first (R132). -/
def codewordText (bits : List Bool) : List Char := bits.map (fun b => if b then '1' else '0')

/-- The text of a codebook: "one line per symbol, `symbol;codeword\n`" (R132). How a symbol is spelled is left to the host
(R178, U16), which gives its spelling (assumption log 13). -/
def writeCodebook (spell : Byte → List Char) (codes : List (Byte × List Bool)) : List Char :=
  codes.flatMap (fun c => spell c.1 ++ ';' :: (codewordText c.2 ++ ['\n']))

/-- The lines of a codebook's text, each ended by its newline (R132); none where the last one is not ended. The characters of
the line being read are kept last first. -/
def endedLines (reversed : List Char) : List Char → Option (List (List Char))
  | [] => if reversed = [] then some [] else none
  | c :: cs =>
    if c = '\n' then
      match endedLines [] cs with
      | some ls => some (reversed.reverse :: ls)
      | none => none
    else endedLines (c :: reversed) cs

/-- The two fields of a line, before and after its last `;`: a codeword holds none (R132). -/
def fieldsOf : List Char → Option (List Char × List Char)
  | [] => none
  | c :: cs =>
    match fieldsOf cs with
    | some (symbol, codeword) => some (c :: symbol, codeword)
    | none => if c = ';' then some ([], cs) else none

/-- A line of text as a codebook line, its symbol field read as the host fixes it (R178). -/
def readLine (readSymbol : List Char → Option Byte) (line : List Char) : Option CodebookLine :=
  match fieldsOf line with
  | none => none
  | some (symbol, codeword) =>
    match readSymbol symbol with
    | some s => some { sym := s, codeword := codeword }
    | none => none

/-- Lines of text as codebook lines, if each of them is one. -/
def readLines (readSymbol : List Char → Option Byte) : List (List Char) → Option (List CodebookLine)
  | [] => some []
  | l :: ls =>
    match readLine readSymbol l, readLines readSymbol ls with
    | some x, some xs => some (x :: xs)
    | _, _ => none

/-- Read a codebook's text (R132, R178). -/
def readCodebook (readSymbol : List Char → Option Byte) (source : List Char) : Result (List CodebookLine) :=
  match endedLines [] source with
  | none => .failed .badCodebook
  | some ls =>
    match readLines readSymbol ls with
    | some xs => .done xs
    | none => .failed .badCodebook

/-- The codeword of a codebook line: a string of `0` and `1` (R132), of length at least 1 (R14). -/
def codewordOfLine (x : CodebookLine) : Option (List Bool) :=
  match codewordOfText x.codeword with
  | some (b :: bs) => some (b :: bs)
  | some [] => none
  | none => none

/-- The codewords of a codebook, if every line has one. What the spec leaves open is the model's. DESIGN CHOICE (assumption
log 24): a codebook without lines is accepted, and so is one with several lines for a symbol, all of which are kept. -/
def codebookCodes : List CodebookLine → Option (List (Byte × List Bool))
  | [] => some []
  | x :: xs =>
    match codewordOfLine x, codebookCodes xs with
    | some bits, some codes => some ((x.sym, bits) :: codes)
    | _, _ => none

/-- The binary trie of a codebook's codewords (R178). -/
inductive Trie where
  | vacant
  | leaf (sym : Byte)
  | branch (left right : Trie)
deriving DecidableEq, Repr

/-- Add a codeword to a trie; none where it meets another codeword's leaf or path. -/
def Trie.insert (t : Trie) : List Bool → Byte → Option Trie
  | [], s =>
    match t with
    | .vacant => some (.leaf s)
    | .leaf _ => none
    | .branch _ _ => none
  | b :: bs, s =>
    match t with
    | .vacant =>
      match Trie.insert .vacant bs s with
      | some c => some (if b then .branch .vacant c else .branch c .vacant)
      | none => none
    | .leaf _ => none
    | .branch l r =>
      match Trie.insert (if b then r else l) bs s with
      | some c => some (if b then .branch l c else .branch c r)
      | none => none

/-- The trie of a whole codebook. -/
def trieOf : List (Byte × List Bool) → Option Trie
  | [] => some .vacant
  | (s, bits) :: rest =>
    match trieOf rest with
    | some t => t.insert bits s
    | none => none

/-- How many leaves and branches a trie has: each takes one arena word. -/
def Trie.size : Trie → Nat
  | .vacant => 0
  | .leaf _ => 1
  | .branch l r => 1 + l.size + r.size

/-- Does a trie have a vacant place, where no codeword leads? -/
def Trie.hasVacancy : Trie → Bool
  | .vacant => true
  | .leaf _ => false
  | .branch l r => l.hasVacancy || r.hasVacancy

/-- How many arena words a trie takes: all its vacant places share one EMPTY word, on which a walk raises MALFORMED_TREE
(R294; assumption log 22). -/
def Trie.words (t : Trie) : Nat := t.size + if t.hasVacancy then 1 else 0

/-- The index a parent names for a subtrie laid out from an index on: its own, or the EMPTY word's. -/
def Trie.indexAt (empty i : Nat) : Trie → NodeIndex
  | .vacant => BitVec.ofNat 9 empty
  | .leaf _ => BitVec.ofNat 9 i
  | .branch _ _ => BitVec.ofNat 9 i

/-- The words of a trie's leaves and branches laid out from an index on, root first, each `0` a left edge and each `1` a
right edge (R178; "any placement ... at distinct indices is valid", R170). -/
def Trie.nodesFrom (empty i : Nat) : Trie → List (NodeIndex × Word)
  | .vacant => []
  | .leaf s => [(BitVec.ofNat 9 i, leafWord s)]
  | .branch l r =>
    (BitVec.ofNat 9 i, internalWord (l.indexAt empty (i + 1)) (r.indexAt empty (i + 1 + l.size))) ::
      (Trie.nodesFrom empty (i + 1) l ++ Trie.nodesFrom empty (i + 1 + l.size) r)

/-- The arena of a trie: its nodes from index 0 on, then the EMPTY word of its vacant places. -/
def Trie.arena (t : Trie) : List (NodeIndex × Word) :=
  t.nodesFrom t.size 0 ++ if t.hasVacancy then [(BitVec.ofNat 9 t.size, 0)] else []

/-- The writes that load a trie, with its root at index 0, where NODE RAM has room for it (R170, R171, R178). -/
def loadTrie (t : Trie) (count : Count) : Result (List HostOp) :=
  if t.words ≤ Config.nodeEntries then .done (loadArena t.arena (t.indexAt t.size 0) count) else .failed .arenaTooLarge

/-- The writes of an encoding host that loads its code from a codebook (R178), none of its codewords longer than LMAX (R168,
R404 step 3). Of several lines for one symbol the last one's entry stands (assumption log 24). -/
def encoderOfCodebook (p : Params) (lines : List CodebookLine) : Result (List HostOp) :=
  match codebookCodes lines with
  | none => .failed .badCodebook
  | some codes => if codesFit p codes then .done (loadEncoder codes) else .failed .unsupportedAlphabetSize

/-- The writes of a decoding host that has only a codebook: NODE RAM as the trie of the codewords, ROOT and the count
(R178). LMAX bounds the encoder alone (R9); the decoder has its own depth limit (R296). The codewords of several lines for
one symbol all lead to it (assumption log 24). -/
def decoderOfCodebook (lines : List CodebookLine) (count : Count) : Result (List HostOp) :=
  match codebookCodes lines with
  | none => .failed .badCodebook
  | some codes =>
    match trieOf codes with
    | none => .failed .badCodebook
    | some t => loadTrie t count

/-- `encoderOfCodebook` from the codebook's text. -/
def encoderOfText (p : Params) (readSymbol : List Char → Option Byte) (source : List Char) : Result (List HostOp) :=
  match readCodebook readSymbol source with
  | .failed e => .failed e
  | .done xs => encoderOfCodebook p xs

/-- `decoderOfCodebook` from the codebook's text. -/
def decoderOfText (readSymbol : List Char → Option Byte) (source : List Char) (count : Count) : Result (List HostOp) :=
  match readCodebook readSymbol source with
  | .failed e => .failed e
  | .done xs => decoderOfCodebook xs count

/-- What reporting needs of a symbol: the symbol, its weight, the total weight (probability is weight over total) and its
codeword length (R179). -/
structure ReportRow where
  sym : Byte
  weight : Nat
  total : Nat
  length : Nat
deriving DecidableEq, Repr

/-- The reporting triples of an alphabet, the lengths read from the block's CT RAM (R179). -/
def reportRows (m : List Host.Cell) (ps : List Weighted) : List ReportRow :=
  ps.map (fun p =>
    { sym := p.sym
      weight := p.weight
      total := (ps.map Weighted.weight).foldl (fun a b => a + b) 0
      length := (ctEntry m p.sym).len.toNat })

/-- The two ways a boot starts (R404 step 1). -/
inductive BootStart where
  /-- The reset input (R400). -/
  | reset
  /-- CLEAR from IDLE or ERROR with OUT drained, where the host accepts the tables already in the block. -/
  | clear
deriving DecidableEq, Repr

/-- Step 1 of the boot sequence (R404). -/
def bootStart : BootStart → List HostOp
  | .reset => [.reset]
  | .clear => .drain :: issueWait .clear

/-- Steps 1 and 2 of the boot sequence, as far as the block sees them: start, then read ID and CONFIG (R404). -/
def bootProcedure (start : BootStart) : List HostOp := bootStart start ++ [rd 0x000, rd 0x004]

/-- LMAX and OUT_DEPTH as CONFIG gives them (R34, R404 step 2). -/
def paramsOfConfig (c : Word) : Params := { lmax := c.extractLsb' 0 8, outDepth := c.extractLsb' 8 8 }

/-- Step 2 of the boot sequence: check that ID is `ID_VALUE`, take LMAX and OUT_DEPTH from CONFIG (R404). -/
def identify (heard : List Reply) : Result Params :=
  match lastHeard 0x000 heard, lastHeard 0x004 heard with
  | some ident, some config => if ident = Config.idValue then .done (paramsOfConfig config) else .failed .wrongIdentity
  | _, _ => .failed .wrongIdentity

/-- Step 3 of the boot sequence: the tree, with every codeword at most LMAX bits (R404). The spec has the host check and does
not say which failure it reports; DESIGN CHOICE (assumption log 21): UnsupportedAlphabetSize, the name of the error the block
would raise (R168, R364). -/
def bootTree (p : Params) (alphabet : List (Byte × Weight)) : Result Tree :=
  match treeOf alphabet with
  | .failed e => .failed e
  | .done t => if codesFit p (codewords t) then .done t else .failed .unsupportedAlphabetSize

/-- Steps 3 to 5 of the boot sequence, from what the host heard in step 2: the writes of the tree and the count for decoding,
and of the code table for encoding (R404). Only then does the host issue an OPEN (step 6). -/
def bootLoads (heard : List Reply) (alphabet : List (Byte × Weight)) (count : Count) : Result (List HostOp) :=
  match identify heard with
  | .failed e => .failed e
  | .done p =>
    match bootTree p alphabet with
    | .failed e => .failed e
    | .done t => .done (loadDecoder t count ++ loadEncoder (codewords t))

end Sys2Proof.Machine.Offline
end

