-- ==== Sys2Proof/Machine/Procedures.lean ====
section
/-! DEFINITION. The encode and decode procedures of a host (45_control_and_bus.md R339, R340) and the recovery of R341. A
procedure decides what comes next by what it has read, so it is a machine beside the block: a stage, and the block whose
script holds the accesses of that stage (assumption log 23). -/

namespace Sys2Proof.Machine

open Sys2Proof

/-- Does the procedure pop DOUT after a command: after each ENC_SYM and ENC_FINISH (R339), after each DEC_BYTE (R340)? -/
def drainsAfter : Instr → Bool
  | .encOpen => false
  | .encSym _ => true
  | .encBit _ => true
  | .encFinish => true
  | .decOpen => false
  | .decByte _ => true
  | .decEnd => false
  | .clear => false

/-- The accesses of one command of a procedure: the command, WAIT, and the pops (R339, R340). -/
def accessesOf (i : Instr) : List HostOp := issueWait i ++ if drainsAfter i then [.drain] else []

/-- The accesses of an encode procedure in which no command fails (R339 steps 1 to 3). -/
def encodeProcedure (text : List Byte) : List HostOp := (encodeCommands text).flatMap accessesOf

/-- The accesses of a decode procedure in which no command fails (R340 steps 2 to 4). -/
def decodeProcedure (stream : List Byte) : List HostOp := (decodeCommands stream).flatMap accessesOf

/-- The reads of the last check: STATUS and ERROR (R339 step 4, R340 step 5). -/
def checkProcedure : List HostOp := [rd 0x00C, rd 0x010]

/-- The accesses of a recovery: pop DOUT until VALID = 0, read ERROR, CLEAR and WAIT (R339, R341). -/
def recoverProcedure : List HostOp := [.drain, rd 0x010] ++ issueWait .clear

/-- Did the last STATUS read show MODE = ERROR? It is the last poll of a command's WAIT, whose BUSY was 0 (R134, R36). -/
def showsError (heard : List Reply) : Bool :=
  match lastHeard statusOffset heard with
  | some v => decide (v.extractLsb' 0 2 = 3)
  | none => false

/-- The check of R339 step 4 and R340 step 5: STATUS.MODE = IDLE and ERROR = 0, as read. -/
def checkPassed (heard : List Reply) : Bool :=
  match lastHeard statusOffset heard, lastHeard 0x010 heard with
  | some status, some error => decide (status.extractLsb' 0 2 = 0) && decide (error = 0)
  | _, _ => false

/-- Are the sticky flags OVERRUN and LOCKVIO clear in the last STATUS read (R36, R342)? A host "checks it at the end of each
stream and treats a set OVERRUN as a failed run" (R407). -/
def flagsClear (heard : List Reply) : Bool :=
  match lastHeard statusOffset heard with
  | some status => decide (status.getLsbD 4 = false) && decide (status.getLsbD 5 = false)
  | none => false

/-- What the host makes of the reads at the end of a stream: the check of R339 and R340, no OVERRUN (R407), and no LOCKVIO,
which a run that succeeded has clear too (R342; assumption log 23). -/
def streamPassed (heard : List Reply) : Bool := checkPassed heard && flagsClear heard

/-- Which procedure a host runs. -/
inductive Purpose where
  /-- R339. -/
  | encode
  /-- R340. -/
  | decode
deriving DecidableEq, Repr

/-- Where a procedure stands. -/
inductive Stage where
  /-- Its loads are under way, and all its commands are still to come. -/
  | begin (commands : List Instr)
  /-- A command is under way, and these are still to come. -/
  | after (commands : List Instr)
  /-- STATUS and ERROR are being read. -/
  | check
  /-- MODE = ERROR was read, and the recovery is under way. -/
  | recover
  /-- The procedure is over, and its stream passed or not. -/
  | finished (passed : Bool)
deriving DecidableEq, Repr

/-- A host running a procedure on the block. -/
structure HostRun where
  purpose : Purpose
  stage : Stage
  block : State
deriving DecidableEq, Repr

/-- The next command, or the last check. -/
def nextCommand : List Instr → Stage × List HostOp
  | [] => (.check, checkProcedure)
  | i :: rest => (.after rest, accessesOf i)

/-- What a host does on MODE = ERROR: an encoder recovers (R339); a decoder stops feeding and checks (R340 steps 3 and 5). -/
def onError : Purpose → Stage × List HostOp
  | .encode => (.recover, recoverProcedure)
  | .decode => (.check, checkProcedure)

/-- The next stage and its accesses, once those of the last are done, by what the host has heard (R339, R340). -/
def nextStage (p : Purpose) (stage : Stage) (heard : List Reply) : Stage × List HostOp :=
  match stage with
  | .begin commands => nextCommand commands
  | .after commands => if showsError heard then onError p else nextCommand commands
  | .check => (.finished (streamPassed heard), [])
  | .recover => (.finished false, [])
  | .finished passed => (.finished passed, [])

/-- One step of a host and its block: the block's, until the accesses of the stage are done and BUSY = 0; then the host
goes on to its next stage. -/
def hostStep (h : HostRun) : Host.Outcome HostRun Fault Refusal :=
  if h.block.script = [] ∧ h.block.busy = false then
    .next
      { h with
        stage := (nextStage h.purpose h.stage h.block.heard).1
        block := { h.block with script := (nextStage h.purpose h.stage h.block.heard).2 } }
  else
    match step h.block with
    | .next t => .next { h with block := t }
    | .fault f => .fault f
    | .refused r => .refused r

/-- n steps of a host and its block. -/
def hostSteps : Nat → HostRun → Host.Outcome HostRun Fault Refusal
  | 0, h => .next h
  | n + 1, h =>
    match hostStep h with
    | .next t => hostSteps n t
    | .fault f => .fault f
    | .refused r => .refused r

/-- A host about to encode a text: the block is in IDLE with OUT empty and its table loaded (R339). -/
def startEncode (text : List Byte) (s : State) : HostRun :=
  { purpose := .encode, stage := .begin (encodeCommands text), block := s }

/-- A host about to decode a stream: it performs its loads first, NODE RAM, ROOT and SETCOUNT (R340 step 1). -/
def startDecode (loads : List HostOp) (stream : List Byte) (s : State) : HostRun :=
  { purpose := .decode, stage := .begin (decodeCommands stream), block := { s with script := loads } }

/-- What the host has kept since a point of what it has heard: the compressed stream, or the decoded sequence (R339,
R340). -/
def keptSince (n : Nat) (h : HostRun) : List Byte := keptOf (h.block.heard.drop n)

end Sys2Proof.Machine
end

