-- ==== Sys2Proof/Safety.lean ====
section
/-! DEFINITION. What counts as a good state and a good run, in the terms the claims use: the invariants the spec states,
the end of a run (45_control_and_bus.md R342), and the stream as a sequence of bits (30_encoding.md R130). -/

namespace Sys2Proof.Safety

open Sys2Proof Sys2Proof.Machine

/-- The memory is in canonical form and holds nothing outside the two RAMs (R82, R84, R85). -/
def memoryGood (s : State) : Prop := Memory.wf s.mem ∧ ∀ c ∈ s.mem, inRam c.1 = true

/-- The BitWriter's invariant: WCNT in 0..7, WBUF < 2^WCNT (R49), both 0 outside ENC (R49). -/
def writerGood (s : State) : Prop :=
  s.wcnt.toNat ≤ 7 ∧ s.wbuf.toNat < 2 ^ s.wcnt.toNat ∧ (s.mode ≠ .enc → s.wcnt = 0 ∧ s.wbuf = 0)

/-- OUT never holds more than OUT_DEPTH entries, and in ENC mode one is free (R54, R237). -/
def roomGood (s : State) : Prop :=
  s.params.wf ∧ outCount s ≤ s.params.outDepth.toNat ∧ (s.mode = .enc → outCount s + 1 ≤ s.params.outDepth.toNat)

/-- Between commands no bit of a DEC_BYTE operand is left (R50). -/
def readerIdle (s : State) : Prop := s.rcnt = 0

/-- The error record is one the block produces in ERROR mode, and clear in every other (R41, R361). -/
def errorGood (s : State) : Prop :=
  (s.mode = .error → ∃ c arg i, s.error = errorRecord c arg i) ∧ (s.mode ≠ .error → s.error = ErrorRecord.none)

/-- In DEC mode the cursor is at the root or on an INTERNAL node at a depth of 1 to 254 (R51, R296), and no more symbols
were emitted than the count asks for (R294). -/
def cursorGood (s : State) : Prop :=
  s.mode = .dec →
    ((s.cur = s.rroot ∧ s.depth = 0) ∨
      (1 ≤ s.depth.toNat ∧ s.depth.toNat + 1 ≤ Config.depthLimit ∧
        ∃ l r, nodeAt s.mem s.cur = .internal l r)) ∧
    s.syms.toNat ≤ s.target.toNat

/-- A run ends when the host has issued its last access and BUSY = 0 (R342). -/
def ended (s : State) : Prop := s.script = [] ∧ s.busy = false

/-- A run succeeded (R342). -/
def succeeded (s : State) : Prop :=
  ended s ∧ s.mode = .idle ∧ s.error.kind = 0 ∧ s.overrun = false ∧ s.lockvio = false

/-- A run failed: it ended in ERROR mode (R342), or with OVERRUN set, which the host "treats ... as a failed run" (R407). -/
def runFailed (s : State) : Prop := ended s ∧ (s.mode = .error ∨ s.overrun = true)

/-- A run ended open: its stream was not closed (R342). -/
def endedOpen (s : State) : Prop := ended s ∧ (s.mode = .enc ∨ s.mode = .dec)

/-- The result of a run: the values DOUT returned with VALID = 1, in order (R342). -/
def popped (s : State) : List Byte := keptOf s.heard

/-- The bits of a value below position n, most significant first (R14). -/
def bitsBelow {w : Nat} (x : BitVec w) : Nat → List Bool
  | 0 => []
  | n + 1 => x.getLsbD n :: bitsBelow x n

/-- The eight bits of a stream byte, bit 7 first (R88). -/
def byteBits (v : Byte) : List Bool := bitsBelow v 8

/-- The bits the BitWriter has received and not discarded: those of OUT's bytes, then the pending ones (R88, R201). -/
def writtenBits (s : State) : List Bool := s.out.flatMap byteBits ++ bitsBelow s.wbuf s.wcnt.toNat

/-- The codeword a CT entry holds: `CODE[LEN−1]` first (R14, R128). -/
def codewordOf (e : CtEntry) : List Bool := bitsBelow e.code e.len.toNat

/-- Does the engine accept a CT entry for encoding (R129)? -/
def acceptedEntry (p : Params) (e : CtEntry) : Prop := e.valid = true ∧ 1 ≤ e.len.toNat ∧ e.len.toNat ≤ p.lmax.toNat

/-- A path of a tree in NODE RAM: from INTERNAL node i the bits lead through INTERNAL nodes to a LEAF of symbol sym
(R166, R292). -/
def leadsTo (m : List Host.Cell) : NodeIndex → List Bool → Byte → Prop
  | _, [], _ => False
  | i, [b], sym => ∃ l r, nodeAt m i = .internal l r ∧ nodeAt m (childOf l r b) = .leaf sym
  | i, b :: bs, sym =>
    ∃ l r, nodeAt m i = .internal l r ∧ (∃ l' r', nodeAt m (childOf l r b) = .internal l' r') ∧
      leadsTo m (childOf l r b) bs sym

/-- The codeword of a symbol in the tree at a root: a path from an INTERNAL root, or "0" at a LEAF root (R166, R167,
R295). -/
def isCodeword (m : List Host.Cell) (root : NodeIndex) (bits : List Bool) (sym : Byte) : Prop :=
  (nodeAt m root = .leaf sym ∧ bits = [false]) ∨ leadsTo m root bits sym

/-- What follows the last bit of a stream of L bits: nothing at a byte boundary, else the marker 1 and zeros (R130,
R202). -/
def paddingOf (L : Nat) : List Bool := if L % 8 = 0 then [] else true :: List.replicate (7 - L % 8) false

/-- An access the block admits: an aligned word of the window (R91); the polling loops and reset are always admitted. -/
def admitted : HostOp → Prop
  | .read a size => size = 4 ∧ a % 4 = 0 ∧ a < Config.windowBytes
  | .write a size _ => size = 4 ∧ a % 4 = 0 ∧ a < Config.windowBytes
  | .wait => True
  | .drain => True
  | .reset => True

/-- n steps of the machine, stopping at the first fault or refusal (R342: an execution of a host program). -/
def runSteps : Nat → State → Host.Outcome State Fault Refusal
  | 0, s => .next s
  | n + 1, s =>
    match step s with
    | .next t => runSteps n t
    | .fault f => .fault f
    | .refused r => .refused r

/-- The tree walk over a bit sequence, outside any byte: the state it reaches, or nothing if a bit raises an error (R292,
R294). -/
def walkList : List Bool → State → Option State
  | [], s => some s
  | b :: bs, s =>
    match walkStep b 0 0 s with
    | .running t => walkList bs t
    | .raised _ => none

/-- The error a bit raises at the cursor, by R294's cases, if it raises one. -/
def walkError (b : Bool) (s : State) : Option ErrorCause :=
  match nodeAt s.mem s.cur with
  | .leaf _ => if b then some .walkPastLeaf else none
  | .internal l r =>
    match nodeAt s.mem (childOf l r b) with
    | .leaf _ => none
    | .internal _ _ => if 255 ≤ s.depth.toNat + 1 then some .depthExceeded else none
    | .empty => some .malformedTree
    | .rsvd => some .malformedTree
  | .empty => some .malformedTree
  | .rsvd => some .malformedTree

/-- The count is not reached before the last of these bits: no proper beginning of them brings SYMS to TARGET (R291). -/
def countNotReachedBefore (bits : List Bool) (s : State) : Prop :=
  ∀ p q, bits = p ++ q → q ≠ [] → ∀ u, walkList p s = some u → u.syms ≠ u.target

/-- Commands one after another with OUT drained after each, as the host procedures of R339 and R340 do: the bytes the host
pops, in order, and the last state. -/
def runDrained : List Instr → State → Option (List Byte × State)
  | [], s => some ([], s)
  | i :: is, s =>
    match exec i s with
    | .next t =>
      match runDrained is { t with out := [] } with
      | some (later, u) => some (t.out ++ later, u)
      | none => none
    | .fault _ => none
    | .refused _ => none

/-- The leaves of an offline tree (R165). -/
def leavesOf : Offline.Tree → List Offline.Weighted
  | .leaf _ w s => [{ weight := w, sym := s }]
  | .internal _ _ l r => leavesOf l ++ leavesOf r

/-- How many nodes an offline tree has (R165). -/
def nodesOf : Offline.Tree → Nat
  | .leaf _ _ _ => 1
  | .internal _ _ l r => 1 + nodesOf l + nodesOf r

/-- Is one bit sequence a beginning of another (R169)? -/
def beginsWith (long short : List Bool) : Prop := ∃ rest, long = short ++ rest

end Sys2Proof.Safety
end

