-- ==== Sys2Proof/Certificates/Slice0/Obligations.lean ====
section
/-! DEFINITION. The statements for the provers, by the file of the spec they come from. -/

open Sys2Proof Sys2Proof.Machine Sys2Proof.Safety

/-! ## Encoding (30_encoding.md) -/

/-- The decoder reads a command from exactly one word, the one the encoder gives it: no operand bit is dropped and every
reserved bit is checked (R120 to R123). -/
def Obligations.DecodeExactlyInvertsEncode : Prop :=
  ∀ (w : Word) (i : Instr), decode w = .command i ↔ w = encode i

/-- Words written out from the encodings of R121 to R124 decode to the commands they stand for, and R124's illegal ones are
rejected. -/
def Obligations.SpecWordsDecodeAsWritten : Prop :=
  decode 0x00000001 = .command .encOpen ∧
  decode 0x00006102 = .command (.encSym 0x61) ∧
  decode 0x00000103 = .command (.encBit true) ∧
  decode 0x00000004 = .command .encFinish ∧
  decode 0x00000011 = .command .decOpen ∧
  decode 0x00005F12 = .command (.decByte 0x5F) ∧
  decode 0x00000013 = .command .decEnd ∧
  decode 0x00000020 = .command .clear ∧
  decode 0x00000000 = .illegal (.unknownOpcode 0x00) ∧
  decode 0x00010001 = .illegal (.reservedBits 0x01) ∧
  decode 0x00000201 = .illegal (.reservedBits 0x01) ∧
  decode 0x00000203 = .illegal (.reservedBits 0x03)

/-- The decoder and the opcode map of patterns and masks agree on every word, and at most one row matches any word
(R122). -/
def Obligations.DecoderAgreesWithOpcodeMap : Prop :=
  ∀ w : Word,
    (∀ i, decode w = .command i → ∃ r ∈ opcodeMap, r.opcode = i.opcode ∧ w &&& r.mask = r.pattern) ∧
    (∀ r ∈ opcodeMap, w &&& r.mask = r.pattern → ∃ i, decode w = .command i ∧ i.opcode = r.opcode) ∧
    (∀ r₁ ∈ opcodeMap, ∀ r₂ ∈ opcodeMap, w &&& r₁.mask = r₁.pattern → w &&& r₂.mask = r₂.pattern → r₁ = r₂)

/-! ## Dispatch (42_command_dispatch.md) -/

/-- A step in the engine's turn is exec of the decoded command, with BUSY cleared after it (R231, R235). -/
def Obligations.StepRunsTheDecodedCommand : Prop :=
  ∀ (s : State) (i : Instr),
    s.busy = true → (s.delay = 0 ∨ s.script = []) → decode s.pending = .command i →
      step s =
        match exec i s with
        | .next t => .next { t with busy := false }
        | .fault f => .fault f
        | .refused r => .refused r

/-- The engine's step always completes and clears BUSY, whatever word is latched and whatever the state (R231, R239,
R343). -/
def Obligations.EngineStepAlwaysCompletes : Prop :=
  ∀ s : State, s.busy = true → (s.delay = 0 ∨ s.script = []) →
    ∃ t, step s = .next t ∧ t.busy = false ∧ t.script = s.script ∧ t.pending = s.pending

/-- While a command is latched and the host's accesses are admitted ones, BUSY falls after at most the host accesses the
schedule still lets come before the engine's step, and that step (R231, R413); the schedule is the model's (assumption
log 3). -/
def Obligations.BusyEndsWithinItsDelay : Prop :=
  ∀ s : State, s.busy = true → (∀ op ∈ s.script, admitted op) →
    ∃ n t, n ≤ s.delay + 1 ∧ runSteps n s = .next t ∧ t.busy = false

/-- In ERROR mode every word but CLEAR's is dropped (R232). -/
def Obligations.ErrorModeDropsAllButClear : Prop :=
  ∀ s : State, s.busy = true → (s.delay = 0 ∨ s.script = []) → s.mode = .error → s.pending ≠ 0x00000020 →
    step s = .next { s with busy := false }

/-- A word that matches no row of the opcode map raises ILLEGAL_COMMAND with its low byte (R233). -/
def Obligations.IllegalWordRaises : Prop :=
  ∀ s : State, s.busy = true → (s.delay = 0 ∨ s.script = []) → s.mode ≠ .error →
    (∀ r ∈ opcodeMap, s.pending &&& r.mask ≠ r.pattern) →
      step s = .next { raise .illegalCommand (s.pending.extractLsb' 0 8) 0 s with busy := false }

/-- A command that is not legal in the current mode raises WRONG_MODE with its opcode (R234). -/
def Obligations.WrongModeRaises : Prop :=
  ∀ (s : State) (i : Instr), s.mode ≠ .error →
    (match i with
      | .encOpen => s.mode ≠ .idle
      | .encSym _ => s.mode ≠ .enc
      | .encBit _ => s.mode ≠ .enc
      | .encFinish => s.mode ≠ .enc
      | .decOpen => s.mode ≠ .idle
      | .decByte _ => s.mode ≠ .dec
      | .decEnd => s.mode ≠ .dec
      | .clear => s.mode ≠ .idle) →
    exec i s = .next (raise .wrongMode i.opcode 0 s)

/-! ## Errors (60_exceptions.md) -/

/-- Error entry: what it records, that it flushes from ENC mode only, and that it changes nothing else (R366). -/
def Obligations.ErrorEntryRecordsAndFlushes : Prop :=
  ∀ (c : ErrorCause) (arg : Byte) (j : BitVec 3) (s : State),
    (s.mode = .enc → s.wcnt ≠ 0 →
      raise c arg j s =
        { s with
          out := s.out ++ [(s.wbuf <<< (8 - s.wcnt.toNat)) ||| (1#8 <<< (7 - s.wcnt.toNat))]
          wbuf := 0
          wcnt := 0
          rcnt := 0
          error := { kind := c.kind, sub := c.sub, arg := arg, bitidx := j }
          mode := .error }) ∧
    (s.mode ≠ .enc ∨ s.wcnt = 0 →
      raise c arg j s =
        { s with
          rcnt := 0
          error := { kind := c.kind, sub := c.sub, arg := arg, bitidx := j }
          mode := .error })

/-- The numeric KIND and SUB of each cause (R360, R361). -/
def Obligations.ErrorCodesAsTabulated : Prop :=
  (∀ c : ErrorCause,
    (c.kind, c.sub) =
      match c with
      | .zeroLengthCode => (1, 1)
      | .notInTable => (2, 1)
      | .prematureEnd => (3, 1)
      | .badPadding => (3, 2)
      | .trailingData => (3, 3)
      | .malformedTree => (3, 4)
      | .walkPastLeaf => (3, 5)
      | .depthExceeded => (3, 6)
      | .codeTooLong => (4, 1)
      | .illegalCommand => (5, 1)
      | .wrongMode => (5, 2)
      | .outOverflow => (5, 3)
      | .outNotEmpty => (5, 4)) ∧
  ∀ c₁ c₂ : ErrorCause, c₁.kind = c₂.kind → c₁.sub = c₂.sub → c₁ = c₂

/-- The first error is kept: in ERROR mode a step leaves the record as it is, unless it executes CLEAR or is a reset, which
leave IDLE mode and no error (R56, R367, R369). -/
def Obligations.FirstErrorIsKept : Prop :=
  ∀ s t : State, s.mode = .error → step s = .next t →
    (t.mode = .error ∧ t.error = s.error) ∨
    (t.mode = .idle ∧ t.error = ErrorRecord.none ∧
      ((engineTurn s = true ∧ s.pending = 0x00000020) ∨ (engineTurn s = false ∧ s.script.head? = some .reset)))

/-- MODE changes only by the events R37 and R372 name, and each by its own command word; no host access changes it. -/
def Obligations.ModeMovesOnlyAsTabulated : Prop :=
  ∀ s t : State, step s = .next t → t.mode ≠ s.mode →
    (engineTurn s = false ∧ s.script.head? = some .reset ∧ t.mode = .idle) ∨
    (engineTurn s = true ∧
      ((s.mode = .idle ∧ s.pending = 0x00000001 ∧ t.mode = .enc) ∨
       (s.mode = .idle ∧ s.pending = 0x00000011 ∧ t.mode = .dec) ∨
       (s.mode = .enc ∧ s.pending = 0x00000004 ∧ t.mode = .idle) ∨
       (s.mode = .dec ∧ s.pending = 0x00000013 ∧ t.mode = .idle) ∨
       (s.mode = .error ∧ s.pending = 0x00000020 ∧ t.mode = .idle) ∨
       (s.mode ≠ .error ∧ t.mode = .error)))

/-! ## The host bus (20_memory.md, 45_control_and_bus.md) -/

/-- A host write while BUSY = 1 is dropped and sets OVERRUN, and does nothing else to the block; what the model counts of
the host's accesses is left open (R336). -/
def Obligations.BusyWriteIsDropped : Prop :=
  ∀ (s : State) (a : Nat) (d : Word) (rest : List HostOp),
    s.busy = true → engineTurn s = false → s.script = .write a 4 d :: rest → a % 4 = 0 → a < 0x8000 →
      ∃ n, step s = .next { s with script := rest, delay := n, overrun := true }

/-- A CMD write with BUSY = 0 latches the word and sets BUSY, with no check and no other effect on the block; with BUSY = 1
it sets OVERRUN and drops the word; when the engine step comes is left open (R230). -/
def Obligations.CmdWriteLatches : Prop :=
  ∀ (s : State) (w : Word),
    (s.busy = true → busWrite 0x008 w s = { s with overrun := true }) ∧
    (s.busy = false →
      ∃ n later, busWrite 0x008 w s = { s with pending := w, busy := true, delay := n, schedule := later })

/-- The table locks: CT RAM in ENC, NODE RAM in DEC; every other write with BUSY = 0 is accepted and leaves LOCKVIO as it
is. At the reserved CT words the ENC clause is the model's choice of R337 over R83's letter (R337, R338; assumption
log 18). -/
def Obligations.LockedTableWriteIsDropped : Prop :=
  ∀ (s : State) (a : Nat) (d : Word), s.busy = false → a % 4 = 0 → a < 0x8000 →
    (s.mode = .enc → 0x4000 ≤ a → busWrite a d s = { s with lockvio := true }) ∧
    (s.mode = .dec → 0x0800 ≤ a → a < 0x1000 → busWrite a d s = { s with lockvio := true }) ∧
    (¬(s.mode = .enc ∧ 0x4000 ≤ a) → ¬(s.mode = .dec ∧ 0x0800 ≤ a ∧ a < 0x1000) →
      busWrite a d s = acceptWrite (targetOf a) d s ∧ (busWrite a d s).lockvio = s.lockvio)

/-- A NODE RAM word reads back as written, all 32 bits, and a NODE write changes no other byte and no other state (R84,
R334). -/
def Obligations.NodeWriteReadsBack : Prop :=
  ∀ (s : State) (i : NodeIndex) (d : Word), s.busy = false → s.mode ≠ .dec → Memory.wf s.mem →
    let t := busWrite (0x0800 + 4 * i.toNat) d s
    (busRead (0x0800 + 4 * i.toNat) t).value = d ∧ nodeWord t.mem i = d ∧
    (∀ a, a < 0x0800 + 4 * i.toNat ∨ 0x0800 + 4 * i.toNat + 4 ≤ a →
      Memory.readByte t.mem a = Memory.readByte s.mem a) ∧
    t = { s with mem := t.mem }

/-- A CT header write stores VALID and LEN and reads back with the reserved bits 0; the codeword, every other entry and all
other state are as before (R85, R127, R334). -/
def Obligations.CtHeaderWriteReadsBack : Prop :=
  ∀ (s : State) (sym : Byte) (d : Word), s.busy = false → s.mode ≠ .enc → Memory.wf s.mem →
    let t := busWrite (0x4000 + 64 * sym.toNat) d s
    ctEntry t.mem sym = { valid := d.getLsbD 0, len := d.extractLsb' 16 16, code := (ctEntry s.mem sym).code } ∧
    (busRead (0x4000 + 64 * sym.toNat) t).value = d.extractLsb' 16 16 ++ 0#15 ++ BitVec.ofBool (d.getLsbD 0) ∧
    (∀ a, a < 0x4000 + 64 * sym.toNat ∨ 0x4000 + 64 * sym.toNat + 4 ≤ a →
      Memory.readByte t.mem a = Memory.readByte s.mem a) ∧
    t = { s with mem := t.mem }

/-- A CT code word reads back as written and is bits 32k+31:32k of CODE; the header, the other words, every other entry and
all other state are as before (R85, R128, R334). -/
def Obligations.CtCodeWriteReadsBack : Prop :=
  ∀ (s : State) (sym : Byte) (k : Nat) (d : Word), k ≤ 7 → s.busy = false → s.mode ≠ .enc → Memory.wf s.mem →
    let a₀ := 0x4000 + 64 * sym.toNat + 4 * (1 + k)
    let t := busWrite a₀ d s
    (busRead a₀ t).value = d ∧
    (ctEntry t.mem sym).code.extractLsb' (32 * k) 32 = d ∧
    (∀ j, j < 256 → ¬(32 * k ≤ j ∧ j < 32 * k + 32) →
      (ctEntry t.mem sym).code.getLsbD j = (ctEntry s.mem sym).code.getLsbD j) ∧
    (ctEntry t.mem sym).valid = (ctEntry s.mem sym).valid ∧ (ctEntry t.mem sym).len = (ctEntry s.mem sym).len ∧
    (∀ a, a < a₀ ∨ a₀ + 4 ≤ a → Memory.readByte t.mem a = Memory.readByte s.mem a) ∧
    t = { s with mem := t.mem }

/-- Unmapped offsets, the reserved register and reserved CT words read 0; a write there is ignored, but for OVERRUN while
BUSY = 1 and LOCKVIO at a reserved CT word in ENC mode, where the model follows R337 against R83's letter (R83, R337,
R338; assumption log 18). -/
def Obligations.UnmappedReadsZeroIgnoresWrites : Prop :=
  ∀ (s : State) (a : Nat) (d : Word), a % 4 = 0 →
    a = 0x01C ∨ (0x0040 ≤ a ∧ a < 0x0800) ∨ (0x1000 ≤ a ∧ a < 0x4000) ∨
      (0x4000 ≤ a ∧ a < 0x8000 ∧ 36 ≤ (a - 0x4000) % 64) →
    busRead a s = { value := 0, after := s } ∧
    (s.busy = true → busWrite a d s = { s with overrun := true }) ∧
    (s.busy = false → s.mode = .enc ∧ 0x4000 ≤ a → busWrite a d s = { s with lockvio := true }) ∧
    (s.busy = false → ¬(s.mode = .enc ∧ 0x4000 ≤ a) → busWrite a d s = s)

/-- Every read but DOUT's leaves the block as it is; a read of an unspecified value advances the model's counter of free
values and nothing else (R94, R333). -/
def Obligations.ReadsHaveNoSideEffect : Prop :=
  ∀ (s : State) (a : Nat), a % 4 = 0 → a ≠ 0x014 →
    ∃ n, (busRead a s).after = { s with draws := n } ∧ (s.busy = false → n = s.draws)

/-- DOUT: a read with BUSY = 0 returns VALID and the head of OUT and pops it; with OUT empty or BUSY = 1 it returns 0 and
changes nothing; a write with BUSY = 0 is ignored (R42). -/
def Obligations.DoutReadPopsHead : Prop :=
  ∀ s : State,
    (∀ v rest, s.busy = false → s.out = v :: rest →
      busRead 0x014 s = { value := 0x100 ||| v.setWidth 32, after := { s with out := rest } }) ∧
    (s.busy = true ∨ s.out = [] → busRead 0x014 s = { value := 0, after := s }) ∧
    (∀ d, s.busy = false → busWrite 0x014 d s = s) ∧
    (∀ d, s.busy = true → busWrite 0x014 d s = { s with overrun := true })

/-- DRAIN returns OUT's entries in the order they were pushed, then a word with VALID = 0, and leaves OUT empty (R90, R134;
the loop as one repeating action is the model's, assumption log 17). -/
def Obligations.DrainReturnsOutInOrder : Prop :=
  ∀ (s : State) (rest : List HostOp), s.busy = false → s.script = .drain :: rest →
    runSteps (s.out.length + 1) s =
      .next
        { s with
          out := []
          script := rest
          heard :=
            s.heard ++
              (s.out.map (fun v => { addr := 0x014, value := 0x100 ||| v.setWidth 32 }) ++
                [{ addr := 0x014, value := 0 }]) }

/-- What a read returns while BUSY = 1: STATUS's BUSY bit is 1 and the rest of it is a free value, SYMS, BITS, BITBUF and
CURSOR are free values, DOUT is 0 and pops nothing, and every other offset reads as with BUSY = 0 (R333). The free value
is any value: the statement names Config.busyReadValue and holds whatever it is (assumption log 4). -/
def Obligations.ReadsWhileBusy : Prop :=
  ∀ s : State, s.busy = true →
    (busRead 0x00C s).value = Config.busyReadValue s.draws ||| 0x4 ∧
    (busRead 0x00C s).value.getLsbD 2 = true ∧
    (∀ a, a ∈ [0x028, 0x02C, 0x030, 0x034, 0x038, 0x03C] → (busRead a s).value = Config.busyReadValue s.draws) ∧
    busRead 0x014 s = { value := 0, after := s } ∧
    (∀ a, a % 4 = 0 → a < 0x8000 → a ∉ [0x00C, 0x014, 0x028, 0x02C, 0x030, 0x034, 0x038, 0x03C] →
      (busRead a s).value = (busRead a { s with busy := false }).value ∧ (busRead a s).after = s)

/-- The fields of STATUS, ERROR, BITBUF, CURSOR, ROOT, CONFIG and ID as a read with BUSY = 0 returns them, unused bits 0;
STATUS shows MODE as 0 IDLE, 1 ENC, 2 DEC, 3 ERROR (R33, R34, R36, R38, R41, R43, R47, R48). -/
def Obligations.RegisterWordsHaveTheirFields : Prop :=
  ∀ s : State, s.busy = false →
    let status := (busRead 0x00C s).value
    let error := (busRead 0x010 s).value
    let bitbuf := (busRead 0x038 s).value
    let cursor := (busRead 0x03C s).value
    let config := (busRead 0x004 s).value
    (s.mode = .idle → status.extractLsb' 0 2 = 0) ∧ (s.mode = .enc → status.extractLsb' 0 2 = 1) ∧
    (s.mode = .dec → status.extractLsb' 0 2 = 2) ∧ (s.mode = .error → status.extractLsb' 0 2 = 3) ∧
    (status.getLsbD 2 = false ∧
      status.getLsbD 3 = decide (s.mode = .dec ∧ s.syms = s.target) ∧
      status.getLsbD 4 = s.overrun ∧ status.getLsbD 5 = s.lockvio ∧ status.getLsbD 6 = decide (s.out ≠ []) ∧
      status.getLsbD 7 = false ∧ status.extractLsb' 8 4 = s.wcnt ∧ status.extractLsb' 12 4 = 0 ∧
      status.extractLsb' 16 8 = BitVec.ofNat 8 s.out.length ∧ status.extractLsb' 24 8 = 0) ∧
    (error.extractLsb' 0 4 = s.error.kind ∧ error.extractLsb' 4 4 = 0 ∧ error.extractLsb' 8 8 = s.error.sub ∧
      error.extractLsb' 16 8 = s.error.arg ∧ error.extractLsb' 24 3 = s.error.bitidx ∧ error.extractLsb' 27 5 = 0) ∧
    (bitbuf.extractLsb' 0 8 = s.wbuf ∧ bitbuf.extractLsb' 8 4 = s.wcnt ∧ bitbuf.extractLsb' 12 20 = 0) ∧
    (cursor.extractLsb' 0 9 = s.cur ∧ cursor.extractLsb' 9 7 = 0 ∧ cursor.extractLsb' 16 8 = s.depth ∧
      cursor.extractLsb' 24 8 = 0) ∧
    (config.extractLsb' 0 8 = s.params.lmax ∧ config.extractLsb' 8 8 = s.params.outDepth ∧
      config.extractLsb' 16 4 = 9 ∧ config.extractLsb' 20 12 = 0) ∧
    (busRead 0x018 s).value = s.root.setWidth 32 ∧ (busRead 0x000 s).value = 0x48554646 ∧ (busRead 0x008 s).value = 0

/-- ROOT takes bits 8:0 of what is written, also in DEC mode, and a running decode keeps its own root; SYMCOUNT is written
and read as two independent halves, and SYMS and BITS are read as two halves; a write with BUSY = 0 to any other register
but CMD is ignored (R32, R43, R44, R45, R46, R52, R334). -/
def Obligations.RootAndCountersReadAndWrite : Prop :=
  ∀ (s : State) (d : Word), s.busy = false →
    busWrite 0x018 d s = { s with root := d.extractLsb' 0 9 } ∧
    busWrite 0x020 d s = { s with symcount := (s.symcount.extractLsb' 32 32 : Word) ++ d } ∧
    busWrite 0x024 d s = { s with symcount := d ++ (s.symcount.extractLsb' 0 32 : Word) } ∧
    (busRead 0x024 s).value ++ (busRead 0x020 s).value = s.symcount ∧
    (busRead 0x02C s).value ++ (busRead 0x028 s).value = s.syms ∧
    (busRead 0x034 s).value ++ (busRead 0x030 s).value = s.bits ∧
    (∀ a ∈ [0x000, 0x004, 0x00C, 0x010, 0x014, 0x01C, 0x028, 0x02C, 0x030, 0x034, 0x038, 0x03C], busWrite a d s = s)

/-- A step of the platform at a read or a write the block admits, an aligned word of the window, is the bus's read or write
after that action is taken off the script, and a read's value goes to what the host has heard; with BUSY = 0 nothing else
changes, with BUSY = 1 the schedule's count may (R91, R332, R334; assumption log 3). A step at WAIT hears the STATUS word and
leaves the block as it is; WAIT leaves the script with BUSY = 0 and stays at its head with BUSY = 1, when a free value is
drawn (R134, R333; assumption logs 4, 17). A host access that is not an aligned
32-bit word is refused by name, and an aligned one past the window faults (R91, R80; assumption logs 5, 6). -/
def Obligations.HostAccessReachesTheBusOrStops : Prop :=
  ∀ (s : State) (a size : Nat) (d : Word) (rest : List HostOp), engineTurn s = false →
    (size = 4 → a % 4 = 0 → a < 0x8000 →
      ∃ n, (s.busy = false → n = s.delay) ∧
        let u := { s with script := rest, delay := n }
        let r := busRead a u
        (s.script = .read a size :: rest →
          step s = .next { r.after with heard := s.heard ++ [{ addr := a, value := r.value }] }) ∧
        (s.script = .write a size d :: rest → step s = .next (busWrite a d u))) ∧
    (s.script = .wait :: rest →
      ∃ n m, (s.busy = false → n = s.delay ∧ m = s.draws) ∧
        step s =
          .next
            { s with
              script := if s.busy then .wait :: rest else rest
              delay := n
              draws := m
              heard := s.heard ++ [{ addr := 0x00C, value := (busRead 0x00C s).value }] }) ∧
    (size ≠ 4 ∨ a % 4 ≠ 0 →
      (s.script = .read a size :: rest → step s = .refused (.misalignedAccess a size)) ∧
      (s.script = .write a size d :: rest → step s = .refused (.misalignedAccess a size))) ∧
    (size = 4 → a % 4 = 0 → 0x8000 ≤ a →
      (s.script = .read a size :: rest → step s = .fault (.outsideWindow a)) ∧
      (s.script = .write a size d :: rest → step s = .fault (.outsideWindow a)))

/-- A stream sees one fixed table for its whole life: no step but a reset changes a byte of CT RAM in ENC mode or of NODE
RAM in DEC mode, and no command changes a byte of either RAM in any mode (R97, R337, R80). -/
def Obligations.TablesFixedDuringStream : Prop :=
  ∀ s t : State, step s = .next t →
    (engineTurn s = true → ∀ a, Memory.readByte t.mem a = Memory.readByte s.mem a) ∧
    (engineTurn s = false → s.script.head? ≠ some .reset →
      (s.mode = .enc → ∀ a, 0x4000 ≤ a → Memory.readByte t.mem a = Memory.readByte s.mem a) ∧
      (s.mode = .dec → ∀ a, 0x0800 ≤ a → a < 0x1000 → Memory.readByte t.mem a = Memory.readByte s.mem a))

/-! ## Reset (10_state.md R60, 70_reset_and_hazards.md) -/

/-- The state after reset, in every build, and what STATUS, ERROR, ID and CONFIG read then (R60). -/
def Obligations.ResetStateIsAsTabulated : Prop :=
  ∀ p : Params,
    let s := State.resetWith p
    let config := (busRead 0x004 s).value
    s.params = p ∧ s.mode = .idle ∧ s.busy = false ∧ s.pending = 0 ∧ s.overrun = false ∧ s.lockvio = false ∧
    s.error = { kind := 0, sub := 0, arg := 0, bitidx := 0 } ∧ s.out = [] ∧ s.root = 0 ∧ s.symcount = 0 ∧
    s.syms = 0 ∧ s.bits = 0 ∧ s.wbuf = 0 ∧ s.wcnt = 0 ∧ s.rbuf = 0 ∧ s.rcnt = 0 ∧ s.cur = 0 ∧ s.depth = 0 ∧
    s.rroot = 0 ∧ s.target = 0 ∧
    (∀ sym, ctEntry s.mem sym = { valid := false, len := 0, code := 0 }) ∧
    (∀ i, nodeWord s.mem i = 0) ∧
    (busRead 0x00C s).value = 0 ∧ (busRead 0x010 s).value = 0 ∧
    (busRead 0x000 s).value = 0x48554646 ∧
    config.extractLsb' 0 8 = p.lmax ∧ config.extractLsb' 8 8 = p.outDepth ∧ config.extractLsb' 16 4 = 9 ∧
    config.extractLsb' 20 12 = 0

/-- The reset input puts every piece of the block's state at its reset value, from any state, and discards a latched
command (R400, R401); the build's parameters and the host's own affairs stay (assumption log 15). -/
def Obligations.ResetInputRestoresResetState : Prop :=
  ∀ (s : State) (rest : List HostOp), engineTurn s = false → s.script = .reset :: rest →
    step s =
      .next
        { State.resetWith s.params with
          script := rest
          heard := s.heard
          schedule := s.schedule
          draws := s.draws }

/-- Every invariant holds after reset, in every build R9 allows. -/
def Obligations.ResetMeetsEveryInvariant : Prop :=
  ∀ p : Params, p.wf →
    let s := State.resetWith p
    memoryGood s ∧ writerGood s ∧ roomGood s ∧ readerIdle s ∧ errorGood s ∧ cursorGood s

/-! ## Invariants that every step keeps -/

/-- The memory stays in canonical form and inside the two RAMs (R82, R84, R85, R127). -/
def Obligations.MemoryStaysCanonical : Prop :=
  ∀ s t : State, step s = .next t → memoryGood s → memoryGood t

/-- The BitWriter's bounds and OUT's bounds hold at every step: the reserved entry is always free for the flush (R49, R54,
R203, R237). -/
def Obligations.WriterAndRoomStayGood : Prop :=
  ∀ s t : State, step s = .next t → writerGood s → roomGood s → writerGood t ∧ roomGood t

/-- No bit of a DEC_BYTE operand is left between commands (R50, R293, R366). -/
def Obligations.ReaderIdleBetweenCommands : Prop :=
  ∀ s t : State, step s = .next t → readerIdle s → readerIdle t

/-- An error is recorded exactly in ERROR mode, and it is one of R361's (R41, R56, R361). -/
def Obligations.ErrorRecordMatchesMode : Prop :=
  ∀ s t : State, step s = .next t → errorGood s → errorGood t

/-- The cursor stays at the root or on an INTERNAL node no deeper than 254, and SYMS never passes TARGET (R51, R294,
R296). -/
def Obligations.CursorStaysOnTheTree : Prop :=
  ∀ s t : State, step s = .next t → cursorGood s → cursorGood t

/-! ## The encoder (41_bit_framing.md, 43_encoder.md) -/

/-- ENC_OPEN (R260). -/
def Obligations.EncOpenOpensAStream : Prop :=
  decode 0x00000001 = .command .encOpen ∧
  ∀ s : State, s.mode = .idle →
    (s.out = [] →
      exec .encOpen s = .next { s with wbuf := 0, wcnt := 0, syms := 0, bits := 0, mode := .enc }) ∧
    (s.out ≠ [] →
      exec .encOpen s =
        .next { s with rcnt := 0, error := { kind := 5, sub := 4, arg := 0x01, bitidx := 0 }, mode := .error })

/-- ENC_SYM on an accepted entry with room: exactly the codeword's bits are appended to the stream, `(WCNT + LEN) div 8`
bytes are pushed, SYMS rises by 1 and BITS by LEN, and nothing else changes (R129, R201, R261). -/
def Obligations.EncSymAppendsItsCodeword : Prop :=
  ∀ (s : State) (sym : Byte),
    s.mode = .enc → s.wcnt.toNat ≤ 7 → acceptedEntry s.params (ctEntry s.mem sym) →
    (s.wcnt.toNat + (ctEntry s.mem sym).len.toNat) / 8 + 1 ≤ freeRoom s →
    ∃ t, exec (.encSym sym) s = .next t ∧
      writtenBits t = writtenBits s ++ codewordOf (ctEntry s.mem sym) ∧
      t.out.length = s.out.length + (s.wcnt.toNat + (ctEntry s.mem sym).len.toNat) / 8 ∧
      t.wcnt.toNat = (s.wcnt.toNat + (ctEntry s.mem sym).len.toNat) % 8 ∧
      t = { s with
        out := t.out
        wbuf := t.wbuf
        wcnt := t.wcnt
        syms := s.syms + 1
        bits := s.bits + (ctEntry s.mem sym).len.setWidth 64 }

/-- ENC_SYM's four checks, in their order (R238, R261). -/
def Obligations.EncSymChecksInOrder : Prop :=
  ∀ (s : State) (sym : Byte), s.mode = .enc →
    let e := ctEntry s.mem sym
    (e.valid = false → exec (.encSym sym) s = .next (raise .notInTable sym 0 s)) ∧
    (e.valid = true → e.len = 0 → exec (.encSym sym) s = .next (raise .zeroLengthCode sym 0 s)) ∧
    (e.valid = true → e.len ≠ 0 → s.params.lmax.toNat < e.len.toNat →
      exec (.encSym sym) s = .next (raise .codeTooLong sym 0 s)) ∧
    (acceptedEntry s.params e → freeRoom s < (s.wcnt.toNat + e.len.toNat) / 8 + 1 →
      exec (.encSym sym) s = .next (raise .outOverflow 0x02 0 s))

/-- ENC_BIT: one bit appended to the stream and counted in BITS, SYMS unchanged; or OUT_OVERFLOW where there is no room
(R262). -/
def Obligations.EncBitAppendsItsBit : Prop :=
  decode 0x00000003 = .command (.encBit false) ∧ decode 0x00000103 = .command (.encBit true) ∧
  ∀ (s : State) (b : Bool), s.mode = .enc → s.wcnt.toNat ≤ 7 →
    ((s.wcnt.toNat + 1) / 8 + 1 ≤ freeRoom s →
      ∃ t, exec (.encBit b) s = .next t ∧
        writtenBits t = writtenBits s ++ [b] ∧
        t.out.length = s.out.length + (s.wcnt.toNat + 1) / 8 ∧
        t.wcnt.toNat = (s.wcnt.toNat + 1) % 8 ∧
        t = { s with out := t.out, wbuf := t.wbuf, wcnt := t.wcnt, bits := s.bits + 1 }) ∧
    (freeRoom s < (s.wcnt.toNat + 1) / 8 + 1 → exec (.encBit b) s = .next (raise .outOverflow 0x03 0 s))

/-- ENC_FINISH: with no bit pending nothing is pushed; otherwise one byte, the pending bits, the marker 1 and zeros (R202,
R263). -/
def Obligations.EncFinishClosesTheStream : Prop :=
  decode 0x00000004 = .command .encFinish ∧
  ∀ s : State, s.mode = .enc → s.wcnt.toNat ≤ 7 →
    (s.wcnt = 0 → exec .encFinish s = .next { s with mode := .idle }) ∧
    (s.wcnt ≠ 0 →
      ∃ v, exec .encFinish s = .next { s with out := s.out ++ [v], wbuf := 0, wcnt := 0, mode := .idle } ∧
        byteBits v = bitsBelow s.wbuf s.wcnt.toNat ++ true :: List.replicate (7 - s.wcnt.toNat) false)

/-- What the encoder's commands leave alone, in every form, the ones that end in an error among them (R260 to R263, R366). -/
def Obligations.EncoderCommandsFrame : Prop :=
  ∀ (s t : State) (i : Instr),
    (i = .encOpen ∨ (∃ sym, i = .encSym sym) ∨ (∃ b, i = .encBit b) ∨ i = .encFinish) → exec i s = .next t →
    (t.params = s.params ∧ t.busy = s.busy ∧ t.pending = s.pending ∧ t.overrun = s.overrun ∧ t.lockvio = s.lockvio ∧
      t.root = s.root ∧ t.symcount = s.symcount ∧ t.rbuf = s.rbuf ∧ t.cur = s.cur ∧ t.depth = s.depth ∧
      t.rroot = s.rroot ∧ t.target = s.target ∧ t.script = s.script ∧ t.heard = s.heard ∧
      t.schedule = s.schedule ∧ t.delay = s.delay ∧ t.draws = s.draws) ∧
    (∀ a, Memory.readByte t.mem a = Memory.readByte s.mem a) ∧
    (∃ pushed, t.out = s.out ++ pushed) ∧
    (t.mode ≠ .error → t.error = s.error ∧ t.rcnt = s.rcnt) ∧
    (t.mode = .error → s.mode ≠ .error → t.syms = s.syms ∧ t.bits = s.bits) ∧
    (i ≠ .encOpen → (∀ sym, i ≠ .encSym sym) → t.syms = s.syms) ∧
    (i = .encFinish → t.bits = s.bits)

/-- The framing round trip: any bit sequence written from an empty BitWriter and closed by `finish()` is the pushed bytes'
bits less the padding, which is empty at a byte boundary and else the marker 1 and zeros (R88, R130, R203, R209). -/
def Obligations.FramingKeepsEveryBit : Prop :=
  ∀ (bits : List Bool) (s : State), s.wcnt = 0 →
    let t := finish (bits.foldl (fun u b => writeBit b u) s)
    ∃ bytes, t.out = s.out ++ bytes ∧ bytes.flatMap byteBits = bits ++ paddingOf bits.length ∧ t.wcnt = 0

/-- The encode stream: with accepted entries and OUT drained between commands, the popped bytes are the codewords' bits
followed by the padding, `ceil(L / 8)` of them, and the block ends in IDLE with SYMS and BITS counting them (R130, R264,
R265). -/
def Obligations.EncodeStreamIsPackedCodewords : Prop :=
  ∀ (s : State) (text : List Byte),
    s.params.wf → s.mode = .idle → s.out = [] → (∀ x ∈ text, acceptedEntry s.params (ctEntry s.mem x)) →
    let code := text.flatMap (fun x => codewordOf (ctEntry s.mem x))
    ∃ bytes t, runDrained (encodeCommands text) s = some (bytes, t) ∧
      bytes.flatMap byteBits = code ++ paddingOf code.length ∧
      bytes.length = (code.length + 7) / 8 ∧
      t = { s with
        wbuf := 0
        wcnt := 0
        syms := BitVec.ofNat 64 text.length
        bits := BitVec.ofNat 64 code.length }

/-! ## The decoder (44_decoder.md) -/

/-- DEC_OPEN (R290). -/
def Obligations.DecOpenLatchesTreeAndCount : Prop :=
  decode 0x00000011 = .command .decOpen ∧
  ∀ s : State, s.mode = .idle →
    (s.out = [] →
      exec .decOpen s =
        .next
          { s with
            rroot := s.root
            target := s.symcount
            cur := s.root
            depth := 0
            rcnt := 0
            syms := 0
            bits := 0
            mode := .dec }) ∧
    (s.out ≠ [] →
      exec .decOpen s =
        .next { s with rcnt := 0, error := { kind := 5, sub := 4, arg := 0x11, bitidx := 0 }, mode := .error })

/-- DEC_BYTE's two checks before any bit is read: TRAILING_DATA once the count is reached, then OUT_OVERFLOW; neither
changes anything but the error record (R236, R297, R300). -/
def Obligations.DecByteChecksBeforeReading : Prop :=
  ∀ (s : State) (v : Byte), s.mode = .dec →
    (s.syms = s.target →
      exec (.decByte v) s =
        .next { s with rcnt := 0, error := { kind := 3, sub := 3, arg := v, bitidx := 0 }, mode := .error }) ∧
    (s.syms ≠ s.target → freeRoom s < min 8 (s.target - s.syms).toNat →
      exec (.decByte v) s =
        .next { s with rcnt := 0, error := { kind := 5, sub := 3, arg := 0x12, bitidx := 0 }, mode := .error })

/-- A node word's tag and fields, its other bits having no effect (R125), the two node words a host writes (R126), and one
bit of the tree walk, by the tags of the node at the cursor and of the child the bit selects (R294). -/
def Obligations.WalkStepByNodeTags : Prop :=
  (∀ n : Word,
    (n.extractLsb' 30 2 = 0 → nodeOfWord n = .empty) ∧
    (n.extractLsb' 30 2 = 1 → nodeOfWord n = .leaf (n.extractLsb' 0 8)) ∧
    (n.extractLsb' 30 2 = 2 → nodeOfWord n = .internal (n.extractLsb' 0 9) (n.extractLsb' 16 9)) ∧
    (n.extractLsb' 30 2 = 3 → nodeOfWord n = .rsvd)) ∧
  (∀ sym : Byte, leafWord sym = 0x40000000 ||| sym.setWidth 32 ∧ nodeOfWord (leafWord sym) = .leaf sym) ∧
  (∀ l r : NodeIndex,
    internalWord l r = 0x80000000 ||| (r.setWidth 32 <<< 16) ||| l.setWidth 32 ∧
    nodeOfWord (internalWord l r) = .internal l r) ∧
  leafWord 0x61 = 0x40000061 ∧ internalWord 3 5 = 0x80050003 ∧
  ∀ (s : State) (b : Bool) (v : Byte) (i : BitVec 3),
    (∀ k, nodeAt s.mem k = nodeOfWord (nodeWord s.mem k)) ∧
    (∀ sym, nodeAt s.mem s.cur = .leaf sym →
      walkStep b v i s =
        if b then .raised (raise .walkPastLeaf v i s)
        else .running { s with out := s.out ++ [sym], syms := s.syms + 1, bits := s.bits + 1 }) ∧
    (nodeAt s.mem s.cur = .empty ∨ nodeAt s.mem s.cur = .rsvd →
      walkStep b v i s = .raised (raise .malformedTree v i s)) ∧
    (∀ l r, nodeAt s.mem s.cur = .internal l r →
      let nxt := if b = false then l else r
      (∀ sym, nodeAt s.mem nxt = .leaf sym →
        walkStep b v i s =
          .running
            { s with
              out := s.out ++ [sym]
              syms := s.syms + 1
              bits := s.bits + 1
              cur := s.rroot
              depth := 0 }) ∧
      (∀ l' r', nodeAt s.mem nxt = .internal l' r' →
        walkStep b v i s =
          if s.depth.toNat + 1 ≥ 255 then .raised (raise .depthExceeded v i s)
          else .running { s with cur := nxt, depth := s.depth + 1, bits := s.bits + 1 }) ∧
      (nodeAt s.mem nxt = .empty ∨ nodeAt s.mem nxt = .rsvd →
        walkStep b v i s = .raised (raise .malformedTree v i s)))

/-- At a leaf root each bit 0 emits the leaf's symbol and leaves the cursor there, and a bit 1 raises WALK_PAST_LEAF
(R295). -/
def Obligations.LeafRootEmitsOnZeros : Prop :=
  ∀ (s : State) (sym : Byte) (n : Nat), nodeAt s.mem s.cur = .leaf sym →
    walkList (List.replicate n false) s =
      some
        { s with
          out := s.out ++ List.replicate n sym
          syms := s.syms + BitVec.ofNat 64 n
          bits := s.bits + BitVec.ofNat 64 n } ∧
    ∀ v i, walkStep true v i s = .raised (raise .walkPastLeaf v i s)

/-- Walking a codeword from the root emits exactly its symbol, counts its bits and comes back to the root (R166, R167,
R292, R294, R296). -/
def Obligations.WalkingACodewordEmitsItsSymbol : Prop :=
  ∀ (s : State) (bits : List Bool) (sym : Byte),
    isCodeword s.mem s.rroot bits sym → bits.length ≤ 255 → s.cur = s.rroot → s.depth = 0 →
      walkList bits s =
        some
          { s with
            out := s.out ++ [sym]
            syms := s.syms + 1
            bits := s.bits + BitVec.ofNat 64 bits.length }

/-- DEC_BYTE without an error: it walks the byte's bits from bit 7 down until the byte is used up or the count is reached,
and in the second case the rest of the byte is valid padding (R291, R293, R298). That RBUF keeps the byte is the model's
reading (assumption log 16). -/
def Obligations.DecByteWalksItsBits : Prop :=
  ∀ (s t : State) (v : Byte) (walked rest : List Bool),
    s.mode = .dec → s.syms ≠ s.target → min 8 (s.target - s.syms).toNat ≤ freeRoom s →
    byteBits v = walked ++ rest → walkList walked s = some t → countNotReachedBefore walked s →
    (rest = [] ∨ (t.syms = t.target ∧ ∃ n, rest = true :: List.replicate n false)) →
      exec (.decByte v) s = .next { t with rbuf := v, rcnt := 0 }

/-- DEC_BYTE at a bit that raises: what the earlier bits did stays, the cursor is where the failing bit was read, and the
record names the bit's position (R294, R297, R362). That RBUF keeps the byte is the model's reading (assumption log 16). -/
def Obligations.DecByteFailsAtItsBit : Prop :=
  ∀ (s t : State) (v : Byte) (walked later : List Bool) (b : Bool) (c : ErrorCause),
    s.mode = .dec → min 8 (s.target - s.syms).toNat ≤ freeRoom s →
    byteBits v = walked ++ b :: later → walkList walked s = some t → countNotReachedBefore (walked ++ [b]) s →
    walkError b t = some c →
      exec (.decByte v) s =
        .next
          { t with
            rbuf := v
            rcnt := 0
            error := { kind := c.kind, sub := c.sub, arg := v, bitidx := BitVec.ofNat 3 later.length }
            mode := .error }

/-- DEC_BYTE with bad padding: the symbols stay, and BITIDX is the highest position at which the remaining bits differ from
the marker 1 and zeros (R208, R297, R298). That RBUF keeps the byte is the model's reading (assumption log 16). -/
def Obligations.DecByteRejectsBadPadding : Prop :=
  ∀ (s t : State) (v : Byte) (walked : List Bool) (r j : Nat),
    s.mode = .dec → s.syms ≠ s.target → min 8 (s.target - s.syms).toNat ≤ freeRoom s →
    1 ≤ r → byteBits v = walked ++ bitsBelow v r → walkList walked s = some t → countNotReachedBefore walked s →
    t.syms = t.target →
    j < r → v.getLsbD j ≠ decide (j = r - 1) → (∀ k, j < k → k < r → v.getLsbD k = decide (k = r - 1)) →
      exec (.decByte v) s =
        .next
          { t with
            rbuf := v
            rcnt := 0
            error := { kind := 3, sub := 2, arg := v, bitidx := BitVec.ofNat 3 j }
            mode := .error }

/-- DEC_END (R299). -/
def Obligations.DecEndChecksTheCount : Prop :=
  decode 0x00000013 = .command .decEnd ∧
  ∀ s : State, s.mode = .dec →
    (s.syms = s.target → exec .decEnd s = .next { s with mode := .idle }) ∧
    (s.syms ≠ s.target →
      exec .decEnd s =
        .next { s with rcnt := 0, error := { kind := 3, sub := 1, arg := 0, bitidx := 0 }, mode := .error })

/-- What the decoder's commands leave alone, in every form, the ones that end in an error among them (R290, R291, R299,
R366). -/
def Obligations.DecoderCommandsFrame : Prop :=
  ∀ (s t : State) (i : Instr), (i = .decOpen ∨ (∃ v, i = .decByte v) ∨ i = .decEnd) → exec i s = .next t →
    (t.params = s.params ∧ t.busy = s.busy ∧ t.pending = s.pending ∧ t.overrun = s.overrun ∧ t.lockvio = s.lockvio ∧
      t.root = s.root ∧ t.symcount = s.symcount ∧ t.script = s.script ∧ t.heard = s.heard ∧
      t.schedule = s.schedule ∧ t.delay = s.delay ∧ t.draws = s.draws) ∧
    (∀ a, Memory.readByte t.mem a = Memory.readByte s.mem a) ∧
    (s.mode ≠ .enc → t.wbuf = s.wbuf ∧ t.wcnt = s.wcnt) ∧
    (∃ pushed, t.out = s.out ++ pushed) ∧
    (t.mode ≠ .error → t.error = s.error) ∧
    (i ≠ .decOpen → t.rroot = s.rroot ∧ t.target = s.target) ∧
    ((∀ v, i ≠ .decByte v) → t.rbuf = s.rbuf) ∧
    (i = .decEnd → t.cur = s.cur ∧ t.depth = s.depth ∧ t.syms = s.syms ∧ t.bits = s.bits) ∧
    (s.mode ≠ .enc → i = .decOpen ∨ i = .decEnd → t.out = s.out)

/-- The decode stream: bytes whose bits are the codewords of a text followed by the padding, fed with OUT drained between
commands, give the text back, and the block ends in IDLE with no error, SYMS and BITS counting them (R301). -/
def Obligations.DecodeStreamGivesTheText : Prop :=
  ∀ (s : State) (code : Byte → List Bool) (text stream : List Byte),
    s.params.wf → s.mode = .idle → s.out = [] → text.length < 2 ^ 64 → s.symcount = BitVec.ofNat 64 text.length →
    (∀ x ∈ text, isCodeword s.mem s.root (code x) x ∧ (code x).length ≤ 255) →
    stream.flatMap byteBits = text.flatMap code ++ paddingOf (text.flatMap code).length →
    ∃ t, runDrained (decodeCommands stream) s = some (text, t) ∧
      t.mode = .idle ∧ t.error = s.error ∧ t.syms = BitVec.ofNat 64 text.length ∧
      t.bits = BitVec.ofNat 64 (text.flatMap code).length

/-- The round trip, "decode(encode(sequence)) == sequence": where each symbol's table entry is its codeword in the loaded
tree, the bytes an encode stream gives decode to the text (R173, R264, R301). -/
def Obligations.RoundTrip : Prop :=
  ∀ (s : State) (text : List Byte),
    s.params.wf → s.mode = .idle → s.out = [] → text.length < 2 ^ 64 → s.symcount = BitVec.ofNat 64 text.length →
    (∀ x ∈ text, acceptedEntry s.params (ctEntry s.mem x) ∧
      isCodeword s.mem s.root (codewordOf (ctEntry s.mem x)) x) →
    ∃ stream t u, runDrained (encodeCommands text) s = some (stream, t) ∧
      runDrained (decodeCommands stream) t = some (text, u) ∧
      u.mode = .idle ∧ u.error = s.error ∧ u.syms = t.syms ∧ u.bits = t.bits

/-! ## Control (45_control_and_bus.md) -/

/-- CLEAR: in IDLE and ERROR it clears the mode, the error record and the sticky flags and leaves everything else; in ENC
and DEC it raises WRONG_MODE (R330, R331, R234). -/
def Obligations.ClearLeavesErrorMode : Prop :=
  decode 0x00000020 = .command .clear ∧ (∀ w, decode w = .command .clear → w = 0x00000020) ∧
  ∀ s : State,
    (s.mode = .idle ∨ s.mode = .error →
      exec .clear s =
        .next
          { s with
            mode := .idle
            error := { kind := 0, sub := 0, arg := 0, bitidx := 0 }
            overrun := false
            lockvio := false }) ∧
    (s.mode = .enc ∨ s.mode = .dec → exec .clear s = .next (raise .wrongMode 0x20 0 s))

/-! ## The host's offline obligations (40_host_offline.md) -/

/-- A persisted file parses back into its header and payload (R174, R177); and the file an encoding host writes for an
alphabet opens to the encoder's own tree, the sum of the weights as the count, and the payload (R161, R175, R176). -/
def Obligations.HeaderRoundTrip : Prop :=
  (∀ (entries : List Offline.HeaderEntry) (payload : List Byte), entries.length < 2 ^ 32 →
    Offline.parseFile (Offline.headerBytes entries ++ payload) = .done (entries, payload) ∧
    (Offline.headerBytes entries).length = 4 + 5 * entries.length) ∧
  ∀ (alphabet : List (Byte × Offline.Weight)) (ps : List Offline.Weighted) (payload : List Byte),
    Offline.validate alphabet = .done ps → (∀ x ∈ ps, x.weight < 2 ^ 32) →
    ∃ file t, Offline.writeFile alphabet payload = .done file ∧ Offline.treeOf alphabet = .done t ∧
      Offline.openFile file =
        .done { tree := t, count := BitVec.ofNat 64 (ps.map Offline.Weighted.weight).sum, payload := payload }

/-- The tree builder gives every non-empty alphabet a tree of 2n − 1 nodes whose leaves are the alphabet's and whose root
weight is the sum of their weights (R164, R165). -/
def Obligations.TreeBuilderKeepsLeavesAndWeight : Prop :=
  ∀ sorted : List Offline.Weighted, sorted ≠ [] →
    ∃ t, Offline.buildTree sorted = some t ∧
      (leavesOf t).Perm sorted ∧
      nodesOf t = 2 * sorted.length - 1 ∧
      t.weight = (sorted.map Offline.Weighted.weight).sum

/-- The codewords of any tree with at least two leaves are a prefix code: of two different places in the list, neither
codeword begins with the other (R166, R169). -/
def Obligations.CodewordsArePrefixFree : Prop :=
  ∀ (t : Offline.Tree), 2 ≤ (leavesOf t).length →
    (Offline.codewords t).Pairwise (fun x y => ¬beginsWith x.2 y.2 ∧ ¬beginsWith y.2 x.2)
end

