-- ==== Sys2Proof/Laws/Memory.lean ====
section
/-! SUPPORT. The laws of the two RAMs: a read after a write, that a write leaves every other byte alone, and that it keeps
the canonical form. -/

namespace Sys2Proof.Machine.Memory

open Sys2Proof Sys2Proof.Machine

/-- A write leaves every other byte alone. -/
theorem readByte_writeByte_ne (m : List Host.Cell) (a b : Nat) (v : Byte) (h : b ≠ a) :
    readByte (writeByte m a v) b = readByte m b := by
  induction m with
  | nil =>
    simp only [writeByte]
    split <;> simp [readByte, h]
  | cons c m ih =>
    obtain ⟨x, w⟩ := c
    simp only [writeByte]
    split
    · split <;> simp [readByte, h]
    · split
      · rename_i _ hx
        subst hx
        split <;> simp [readByte, h]
      · simp only [readByte, ih]

theorem wf_tail {c : Host.Cell} {m : List Host.Cell} (h : wf (c :: m)) : wf m :=
  ⟨(List.pairwise_cons.mp h.1).2, fun d hd => h.2 d (List.mem_cons_of_mem _ hd)⟩

/-- An offset below every listed one is not listed. -/
theorem readByte_below (m : List Host.Cell) (a : Nat) (h : ∀ c ∈ m, a < c.1) : readByte m a = unlisted := by
  induction m with
  | nil => rfl
  | cons c m ih =>
    obtain ⟨x, w⟩ := c
    have hx : a < x := h _ (List.mem_cons_self ..)
    have hne : a ≠ x := by omega
    simp only [readByte, hne, if_false]
    exact ih fun d hd => h d (List.mem_cons_of_mem _ hd)

/-- A read after a write to the same offset gives the byte written. -/
theorem readByte_writeByte_same (m : List Host.Cell) (a : Nat) (v : Byte) (hm : wf m) :
    readByte (writeByte m a v) a = v := by
  induction m with
  | nil =>
    simp only [writeByte]
    split
    · next hv => simp [readByte, hv]
    · simp [readByte]
  | cons c m ih =>
    obtain ⟨x, w⟩ := c
    have hrise := (List.pairwise_cons.mp hm.1).1
    simp only [writeByte]
    split
    · next hlt =>
      split
      · next hv =>
        rw [hv]
        apply readByte_below
        intro d hd
        rcases List.mem_cons.mp hd with rfl | hd
        · exact hlt
        · exact lt_trans hlt (hrise d hd)
      · simp [readByte]
    · split
      · next hx =>
        split
        · next hv =>
          rw [hv, hx]
          exact readByte_below m x fun d hd => hrise d hd
        · simp [readByte]
      · next hx =>
        simp only [readByte, hx, if_false]
        exact ih (wf_tail hm)

/-- Every listed offset after a write was listed before or is the one written. -/
theorem mem_writeByte {m : List Host.Cell} {a : Nat} {v : Byte} {c : Host.Cell} (h : c ∈ writeByte m a v) :
    c ∈ m ∨ (c = (a, v) ∧ v ≠ unlisted) := by
  induction m with
  | nil =>
    simp only [writeByte] at h
    split at h
    · cases h
    · next hv =>
      rw [List.mem_singleton] at h
      exact .inr ⟨h, hv⟩
  | cons d m ih =>
    obtain ⟨x, w⟩ := d
    simp only [writeByte] at h
    split at h
    · split at h
      · exact .inl h
      · next hv =>
        rcases List.mem_cons.mp h with h | h
        · exact .inr ⟨h, hv⟩
        · exact .inl h
    · split at h
      · split at h
        · exact .inl (List.mem_cons_of_mem _ h)
        · next hv =>
          rcases List.mem_cons.mp h with h | h
          · exact .inr ⟨h, hv⟩
          · exact .inl (List.mem_cons_of_mem _ h)
      · rcases List.mem_cons.mp h with h | h
        · exact .inl (h ▸ List.mem_cons_self ..)
        · rcases ih h with h | h
          · exact .inl (List.mem_cons_of_mem _ h)
          · exact .inr h

/-- A write keeps the canonical form. -/
theorem wf_writeByte (m : List Host.Cell) (a : Nat) (v : Byte) (hm : wf m) : wf (writeByte m a v) := by
  refine ⟨?_, fun c hc => ?_⟩
  · induction m with
    | nil =>
      simp only [writeByte]
      split <;> simp
    | cons d m ih =>
      obtain ⟨x, w⟩ := d
      have hrise := (List.pairwise_cons.mp hm.1).1
      have htail := (List.pairwise_cons.mp hm.1).2
      simp only [writeByte]
      split
      · next hlt =>
        split
        · exact hm.1
        · refine List.pairwise_cons.mpr ⟨fun c hc => ?_, hm.1⟩
          rcases List.mem_cons.mp hc with rfl | hc
          · exact hlt
          · exact lt_trans hlt (hrise c hc)
      · next hge =>
        split
        · next hx =>
          split
          · exact htail
          · exact List.pairwise_cons.mpr ⟨fun c hc => hx ▸ hrise c hc, htail⟩
        · next hx =>
          refine List.pairwise_cons.mpr ⟨fun c hc => ?_, ih (wf_tail hm)⟩
          rcases mem_writeByte hc with hc | ⟨rfl, -⟩
          · exact hrise c hc
          · show x < a
            omega
  · rcases mem_writeByte hc with hc | ⟨rfl, hv⟩
    · exact hm.2 c hc
    · exact hv

theorem wf_writeWord (m : List Host.Cell) (a : Nat) (w : Word) (hm : wf m) : wf (writeWord m a w) :=
  wf_writeByte _ _ _ (wf_writeByte _ _ _ (wf_writeByte _ _ _ (wf_writeByte _ _ _ hm)))

/-- A word write leaves every byte outside the word alone. -/
theorem readByte_writeWord_ne (m : List Host.Cell) (a b : Nat) (w : Word) (h : b < a ∨ a + 4 ≤ b) :
    readByte (writeWord m a w) b = readByte m b := by
  unfold writeWord
  rw [readByte_writeByte_ne _ _ _ _ (by omega), readByte_writeByte_ne _ _ _ _ (by omega),
    readByte_writeByte_ne _ _ _ _ (by omega), readByte_writeByte_ne _ _ _ _ (by omega)]

/-- A word read away from a word write. -/
theorem readWord_writeWord_ne (m : List Host.Cell) (a b : Nat) (w : Word) (h : b + 4 ≤ a ∨ a + 4 ≤ b) :
    readWord (writeWord m a w) b = readWord m b := by
  unfold readWord
  rw [readByte_writeWord_ne _ _ _ _ (by omega), readByte_writeWord_ne _ _ _ _ (by omega),
    readByte_writeWord_ne _ _ _ _ (by omega), readByte_writeWord_ne _ _ _ _ (by omega)]

/-- A word's four lanes make the word (R86). -/
theorem lanes_append (w : Word) : (lane w 3 ++ lane w 2 ++ lane w 1 ++ lane w 0 : Word) = w := by
  apply BitVec.eq_of_getLsbD_eq
  intro i hi
  simp only [lane, BitVec.getLsbD_append, BitVec.getLsbD_extractLsb']
  by_cases h0 : i < 8
  · simp [h0]
  · by_cases h1 : i - 8 < 8
    · simp [h0, h1]
      congr 1; omega
    · by_cases h2 : i - 8 - 8 < 8
      · simp [h0, h1, h2]
        congr 1; omega
      · simp [h0, h1, h2, show i - 8 - 8 - 8 < 8 by omega]
        congr 1; omega

/-- A word read after a word write to the same offset gives the word written. -/
theorem readWord_writeWord_same (m : List Host.Cell) (a : Nat) (w : Word) (hm : wf m) :
    readWord (writeWord m a w) a = w := by
  have h0 := wf_writeByte m a (lane w 0) hm
  have h1 := wf_writeByte _ (a + 1) (lane w 1) h0
  have h2 := wf_writeByte _ (a + 2) (lane w 2) h1
  unfold readWord writeWord
  rw [readByte_writeByte_same _ _ _ h2,
    readByte_writeByte_ne _ (a + 3) (a + 2) _ (by omega), readByte_writeByte_same _ _ _ h1,
    readByte_writeByte_ne _ (a + 3) (a + 1) _ (by omega), readByte_writeByte_ne _ (a + 2) (a + 1) _ (by omega),
    readByte_writeByte_same _ _ _ h0,
    readByte_writeByte_ne _ (a + 3) a _ (by omega), readByte_writeByte_ne _ (a + 2) a _ (by omega),
    readByte_writeByte_ne _ (a + 1) a _ (by omega), readByte_writeByte_same _ _ _ hm]
  exact lanes_append w

/-- Every listed offset after a word write was listed before or is one of the word's four. -/
theorem mem_writeWord {m : List Host.Cell} {a : Nat} {w : Word} {c : Host.Cell} (h : c ∈ writeWord m a w) :
    c ∈ m ∨ (a ≤ c.1 ∧ c.1 < a + 4) := by
  unfold writeWord at h
  rcases mem_writeByte h with h | ⟨rfl, -⟩
  · rcases mem_writeByte h with h | ⟨rfl, -⟩
    · rcases mem_writeByte h with h | ⟨rfl, -⟩
      · rcases mem_writeByte h with h | ⟨rfl, -⟩
        · exact .inl h
        · exact .inr ⟨by simp, by simp⟩
      · exact .inr ⟨by simp, by simp⟩
    · exact .inr ⟨by simp, by simp⟩
  · exact .inr ⟨by simp, by simp⟩

/-- The four offsets of a NODE RAM word lie in NODE RAM (R84). -/
theorem inRam_node (i : NodeIndex) (a : Nat) (h : nodeOffset i ≤ a ∧ a < nodeOffset i + 4) : inRam a = true := by
  have hi := i.isLt
  simp only [nodeOffset] at h
  simp only [inRam, Bool.or_eq_true, Bool.and_eq_true, decide_eq_true_eq]
  left; omega

/-- The four offsets of word w of a CT entry lie in CT RAM, w = 0..8 (R85). -/
theorem inRam_ct (s : Byte) (w a : Nat) (hw : w ≤ 8) (h : ctOffset s w ≤ a ∧ a < ctOffset s w + 4) : inRam a = true := by
  have hs := s.isLt
  simp only [ctOffset] at h
  simp only [inRam, Bool.or_eq_true, Bool.and_eq_true, decide_eq_true_eq]
  right; omega

end Sys2Proof.Machine.Memory
end

