-- ==== Sys2Proof/Laws/State.lean ====
section
/-! SUPPORT. Each named update of the state, field by field: what it writes, and that it leaves every other field. -/

namespace Sys2Proof.Machine

open Sys2Proof

@[simp] theorem push_params (v : Byte) (s : State) : (push v s).params = s.params := rfl
@[simp] theorem push_mode (v : Byte) (s : State) : (push v s).mode = s.mode := rfl
@[simp] theorem push_busy (v : Byte) (s : State) : (push v s).busy = s.busy := rfl
@[simp] theorem push_pending (v : Byte) (s : State) : (push v s).pending = s.pending := rfl
@[simp] theorem push_overrun (v : Byte) (s : State) : (push v s).overrun = s.overrun := rfl
@[simp] theorem push_lockvio (v : Byte) (s : State) : (push v s).lockvio = s.lockvio := rfl
@[simp] theorem push_error (v : Byte) (s : State) : (push v s).error = s.error := rfl
@[simp] theorem push_out (v : Byte) (s : State) : (push v s).out = s.out ++ [v] := rfl
@[simp] theorem push_root (v : Byte) (s : State) : (push v s).root = s.root := rfl
@[simp] theorem push_symcount (v : Byte) (s : State) : (push v s).symcount = s.symcount := rfl
@[simp] theorem push_syms (v : Byte) (s : State) : (push v s).syms = s.syms := rfl
@[simp] theorem push_bits (v : Byte) (s : State) : (push v s).bits = s.bits := rfl
@[simp] theorem push_wbuf (v : Byte) (s : State) : (push v s).wbuf = s.wbuf := rfl
@[simp] theorem push_wcnt (v : Byte) (s : State) : (push v s).wcnt = s.wcnt := rfl
@[simp] theorem push_rbuf (v : Byte) (s : State) : (push v s).rbuf = s.rbuf := rfl
@[simp] theorem push_rcnt (v : Byte) (s : State) : (push v s).rcnt = s.rcnt := rfl
@[simp] theorem push_cur (v : Byte) (s : State) : (push v s).cur = s.cur := rfl
@[simp] theorem push_depth (v : Byte) (s : State) : (push v s).depth = s.depth := rfl
@[simp] theorem push_rroot (v : Byte) (s : State) : (push v s).rroot = s.rroot := rfl
@[simp] theorem push_target (v : Byte) (s : State) : (push v s).target = s.target := rfl
@[simp] theorem push_mem (v : Byte) (s : State) : (push v s).mem = s.mem := rfl
@[simp] theorem push_script (v : Byte) (s : State) : (push v s).script = s.script := rfl
@[simp] theorem push_heard (v : Byte) (s : State) : (push v s).heard = s.heard := rfl
@[simp] theorem push_schedule (v : Byte) (s : State) : (push v s).schedule = s.schedule := rfl
@[simp] theorem push_delay (v : Byte) (s : State) : (push v s).delay = s.delay := rfl
@[simp] theorem push_draws (v : Byte) (s : State) : (push v s).draws = s.draws := rfl

@[simp] theorem load_params (v : Byte) (s : State) : (load v s).params = s.params := rfl
@[simp] theorem load_mode (v : Byte) (s : State) : (load v s).mode = s.mode := rfl
@[simp] theorem load_busy (v : Byte) (s : State) : (load v s).busy = s.busy := rfl
@[simp] theorem load_pending (v : Byte) (s : State) : (load v s).pending = s.pending := rfl
@[simp] theorem load_overrun (v : Byte) (s : State) : (load v s).overrun = s.overrun := rfl
@[simp] theorem load_lockvio (v : Byte) (s : State) : (load v s).lockvio = s.lockvio := rfl
@[simp] theorem load_error (v : Byte) (s : State) : (load v s).error = s.error := rfl
@[simp] theorem load_out (v : Byte) (s : State) : (load v s).out = s.out := rfl
@[simp] theorem load_root (v : Byte) (s : State) : (load v s).root = s.root := rfl
@[simp] theorem load_symcount (v : Byte) (s : State) : (load v s).symcount = s.symcount := rfl
@[simp] theorem load_syms (v : Byte) (s : State) : (load v s).syms = s.syms := rfl
@[simp] theorem load_bits (v : Byte) (s : State) : (load v s).bits = s.bits := rfl
@[simp] theorem load_wbuf (v : Byte) (s : State) : (load v s).wbuf = s.wbuf := rfl
@[simp] theorem load_wcnt (v : Byte) (s : State) : (load v s).wcnt = s.wcnt := rfl
@[simp] theorem load_rbuf (v : Byte) (s : State) : (load v s).rbuf = v := rfl
@[simp] theorem load_rcnt (v : Byte) (s : State) : (load v s).rcnt = 8 := rfl
@[simp] theorem load_cur (v : Byte) (s : State) : (load v s).cur = s.cur := rfl
@[simp] theorem load_depth (v : Byte) (s : State) : (load v s).depth = s.depth := rfl
@[simp] theorem load_rroot (v : Byte) (s : State) : (load v s).rroot = s.rroot := rfl
@[simp] theorem load_target (v : Byte) (s : State) : (load v s).target = s.target := rfl
@[simp] theorem load_mem (v : Byte) (s : State) : (load v s).mem = s.mem := rfl
@[simp] theorem load_script (v : Byte) (s : State) : (load v s).script = s.script := rfl
@[simp] theorem load_heard (v : Byte) (s : State) : (load v s).heard = s.heard := rfl
@[simp] theorem load_schedule (v : Byte) (s : State) : (load v s).schedule = s.schedule := rfl
@[simp] theorem load_delay (v : Byte) (s : State) : (load v s).delay = s.delay := rfl
@[simp] theorem load_draws (v : Byte) (s : State) : (load v s).draws = s.draws := rfl

@[simp] theorem consumeBit_params (s : State) : (consumeBit s).params = s.params := rfl
@[simp] theorem consumeBit_mode (s : State) : (consumeBit s).mode = s.mode := rfl
@[simp] theorem consumeBit_busy (s : State) : (consumeBit s).busy = s.busy := rfl
@[simp] theorem consumeBit_pending (s : State) : (consumeBit s).pending = s.pending := rfl
@[simp] theorem consumeBit_overrun (s : State) : (consumeBit s).overrun = s.overrun := rfl
@[simp] theorem consumeBit_lockvio (s : State) : (consumeBit s).lockvio = s.lockvio := rfl
@[simp] theorem consumeBit_error (s : State) : (consumeBit s).error = s.error := rfl
@[simp] theorem consumeBit_out (s : State) : (consumeBit s).out = s.out := rfl
@[simp] theorem consumeBit_root (s : State) : (consumeBit s).root = s.root := rfl
@[simp] theorem consumeBit_symcount (s : State) : (consumeBit s).symcount = s.symcount := rfl
@[simp] theorem consumeBit_syms (s : State) : (consumeBit s).syms = s.syms := rfl
@[simp] theorem consumeBit_bits (s : State) : (consumeBit s).bits = s.bits := rfl
@[simp] theorem consumeBit_wbuf (s : State) : (consumeBit s).wbuf = s.wbuf := rfl
@[simp] theorem consumeBit_wcnt (s : State) : (consumeBit s).wcnt = s.wcnt := rfl
@[simp] theorem consumeBit_rbuf (s : State) : (consumeBit s).rbuf = s.rbuf := rfl
@[simp] theorem consumeBit_rcnt (s : State) : (consumeBit s).rcnt = s.rcnt - 1 := rfl
@[simp] theorem consumeBit_cur (s : State) : (consumeBit s).cur = s.cur := rfl
@[simp] theorem consumeBit_depth (s : State) : (consumeBit s).depth = s.depth := rfl
@[simp] theorem consumeBit_rroot (s : State) : (consumeBit s).rroot = s.rroot := rfl
@[simp] theorem consumeBit_target (s : State) : (consumeBit s).target = s.target := rfl
@[simp] theorem consumeBit_mem (s : State) : (consumeBit s).mem = s.mem := rfl
@[simp] theorem consumeBit_script (s : State) : (consumeBit s).script = s.script := rfl
@[simp] theorem consumeBit_heard (s : State) : (consumeBit s).heard = s.heard := rfl
@[simp] theorem consumeBit_schedule (s : State) : (consumeBit s).schedule = s.schedule := rfl
@[simp] theorem consumeBit_delay (s : State) : (consumeBit s).delay = s.delay := rfl
@[simp] theorem consumeBit_draws (s : State) : (consumeBit s).draws = s.draws := rfl

@[simp] theorem clearErrors_params (s : State) : (clearErrors s).params = s.params := rfl
@[simp] theorem clearErrors_mode (s : State) : (clearErrors s).mode = .idle := rfl
@[simp] theorem clearErrors_busy (s : State) : (clearErrors s).busy = s.busy := rfl
@[simp] theorem clearErrors_pending (s : State) : (clearErrors s).pending = s.pending := rfl
@[simp] theorem clearErrors_overrun (s : State) : (clearErrors s).overrun = false := rfl
@[simp] theorem clearErrors_lockvio (s : State) : (clearErrors s).lockvio = false := rfl
@[simp] theorem clearErrors_error (s : State) : (clearErrors s).error = ErrorRecord.none := rfl
@[simp] theorem clearErrors_out (s : State) : (clearErrors s).out = s.out := rfl
@[simp] theorem clearErrors_root (s : State) : (clearErrors s).root = s.root := rfl
@[simp] theorem clearErrors_symcount (s : State) : (clearErrors s).symcount = s.symcount := rfl
@[simp] theorem clearErrors_syms (s : State) : (clearErrors s).syms = s.syms := rfl
@[simp] theorem clearErrors_bits (s : State) : (clearErrors s).bits = s.bits := rfl
@[simp] theorem clearErrors_wbuf (s : State) : (clearErrors s).wbuf = s.wbuf := rfl
@[simp] theorem clearErrors_wcnt (s : State) : (clearErrors s).wcnt = s.wcnt := rfl
@[simp] theorem clearErrors_rbuf (s : State) : (clearErrors s).rbuf = s.rbuf := rfl
@[simp] theorem clearErrors_rcnt (s : State) : (clearErrors s).rcnt = s.rcnt := rfl
@[simp] theorem clearErrors_cur (s : State) : (clearErrors s).cur = s.cur := rfl
@[simp] theorem clearErrors_depth (s : State) : (clearErrors s).depth = s.depth := rfl
@[simp] theorem clearErrors_rroot (s : State) : (clearErrors s).rroot = s.rroot := rfl
@[simp] theorem clearErrors_target (s : State) : (clearErrors s).target = s.target := rfl
@[simp] theorem clearErrors_mem (s : State) : (clearErrors s).mem = s.mem := rfl
@[simp] theorem clearErrors_script (s : State) : (clearErrors s).script = s.script := rfl
@[simp] theorem clearErrors_heard (s : State) : (clearErrors s).heard = s.heard := rfl
@[simp] theorem clearErrors_schedule (s : State) : (clearErrors s).schedule = s.schedule := rfl
@[simp] theorem clearErrors_delay (s : State) : (clearErrors s).delay = s.delay := rfl
@[simp] theorem clearErrors_draws (s : State) : (clearErrors s).draws = s.draws := rfl

@[simp] theorem retire_params (s : State) : (retire s).params = s.params := rfl
@[simp] theorem retire_mode (s : State) : (retire s).mode = s.mode := rfl
@[simp] theorem retire_busy (s : State) : (retire s).busy = false := rfl
@[simp] theorem retire_pending (s : State) : (retire s).pending = s.pending := rfl
@[simp] theorem retire_overrun (s : State) : (retire s).overrun = s.overrun := rfl
@[simp] theorem retire_lockvio (s : State) : (retire s).lockvio = s.lockvio := rfl
@[simp] theorem retire_error (s : State) : (retire s).error = s.error := rfl
@[simp] theorem retire_out (s : State) : (retire s).out = s.out := rfl
@[simp] theorem retire_root (s : State) : (retire s).root = s.root := rfl
@[simp] theorem retire_symcount (s : State) : (retire s).symcount = s.symcount := rfl
@[simp] theorem retire_syms (s : State) : (retire s).syms = s.syms := rfl
@[simp] theorem retire_bits (s : State) : (retire s).bits = s.bits := rfl
@[simp] theorem retire_wbuf (s : State) : (retire s).wbuf = s.wbuf := rfl
@[simp] theorem retire_wcnt (s : State) : (retire s).wcnt = s.wcnt := rfl
@[simp] theorem retire_rbuf (s : State) : (retire s).rbuf = s.rbuf := rfl
@[simp] theorem retire_rcnt (s : State) : (retire s).rcnt = s.rcnt := rfl
@[simp] theorem retire_cur (s : State) : (retire s).cur = s.cur := rfl
@[simp] theorem retire_depth (s : State) : (retire s).depth = s.depth := rfl
@[simp] theorem retire_rroot (s : State) : (retire s).rroot = s.rroot := rfl
@[simp] theorem retire_target (s : State) : (retire s).target = s.target := rfl
@[simp] theorem retire_mem (s : State) : (retire s).mem = s.mem := rfl
@[simp] theorem retire_script (s : State) : (retire s).script = s.script := rfl
@[simp] theorem retire_heard (s : State) : (retire s).heard = s.heard := rfl
@[simp] theorem retire_schedule (s : State) : (retire s).schedule = s.schedule := rfl
@[simp] theorem retire_delay (s : State) : (retire s).delay = s.delay := rfl
@[simp] theorem retire_draws (s : State) : (retire s).draws = s.draws := rfl

@[simp] theorem emitSymbol_params (v : Byte) (s : State) : (emitSymbol v s).params = s.params := rfl
@[simp] theorem emitSymbol_mode (v : Byte) (s : State) : (emitSymbol v s).mode = s.mode := rfl
@[simp] theorem emitSymbol_busy (v : Byte) (s : State) : (emitSymbol v s).busy = s.busy := rfl
@[simp] theorem emitSymbol_pending (v : Byte) (s : State) : (emitSymbol v s).pending = s.pending := rfl
@[simp] theorem emitSymbol_overrun (v : Byte) (s : State) : (emitSymbol v s).overrun = s.overrun := rfl
@[simp] theorem emitSymbol_lockvio (v : Byte) (s : State) : (emitSymbol v s).lockvio = s.lockvio := rfl
@[simp] theorem emitSymbol_error (v : Byte) (s : State) : (emitSymbol v s).error = s.error := rfl
@[simp] theorem emitSymbol_out (v : Byte) (s : State) : (emitSymbol v s).out = s.out ++ [v] := rfl
@[simp] theorem emitSymbol_root (v : Byte) (s : State) : (emitSymbol v s).root = s.root := rfl
@[simp] theorem emitSymbol_symcount (v : Byte) (s : State) : (emitSymbol v s).symcount = s.symcount := rfl
@[simp] theorem emitSymbol_syms (v : Byte) (s : State) : (emitSymbol v s).syms = s.syms + 1 := rfl
@[simp] theorem emitSymbol_bits (v : Byte) (s : State) : (emitSymbol v s).bits = s.bits + 1 := rfl
@[simp] theorem emitSymbol_wbuf (v : Byte) (s : State) : (emitSymbol v s).wbuf = s.wbuf := rfl
@[simp] theorem emitSymbol_wcnt (v : Byte) (s : State) : (emitSymbol v s).wcnt = s.wcnt := rfl
@[simp] theorem emitSymbol_rbuf (v : Byte) (s : State) : (emitSymbol v s).rbuf = s.rbuf := rfl
@[simp] theorem emitSymbol_rcnt (v : Byte) (s : State) : (emitSymbol v s).rcnt = s.rcnt := rfl
@[simp] theorem emitSymbol_cur (v : Byte) (s : State) : (emitSymbol v s).cur = s.cur := rfl
@[simp] theorem emitSymbol_depth (v : Byte) (s : State) : (emitSymbol v s).depth = s.depth := rfl
@[simp] theorem emitSymbol_rroot (v : Byte) (s : State) : (emitSymbol v s).rroot = s.rroot := rfl
@[simp] theorem emitSymbol_target (v : Byte) (s : State) : (emitSymbol v s).target = s.target := rfl
@[simp] theorem emitSymbol_mem (v : Byte) (s : State) : (emitSymbol v s).mem = s.mem := rfl
@[simp] theorem emitSymbol_script (v : Byte) (s : State) : (emitSymbol v s).script = s.script := rfl
@[simp] theorem emitSymbol_heard (v : Byte) (s : State) : (emitSymbol v s).heard = s.heard := rfl
@[simp] theorem emitSymbol_schedule (v : Byte) (s : State) : (emitSymbol v s).schedule = s.schedule := rfl
@[simp] theorem emitSymbol_delay (v : Byte) (s : State) : (emitSymbol v s).delay = s.delay := rfl
@[simp] theorem emitSymbol_draws (v : Byte) (s : State) : (emitSymbol v s).draws = s.draws := rfl

@[simp] theorem toRoot_params (s : State) : (toRoot s).params = s.params := rfl
@[simp] theorem toRoot_mode (s : State) : (toRoot s).mode = s.mode := rfl
@[simp] theorem toRoot_busy (s : State) : (toRoot s).busy = s.busy := rfl
@[simp] theorem toRoot_pending (s : State) : (toRoot s).pending = s.pending := rfl
@[simp] theorem toRoot_overrun (s : State) : (toRoot s).overrun = s.overrun := rfl
@[simp] theorem toRoot_lockvio (s : State) : (toRoot s).lockvio = s.lockvio := rfl
@[simp] theorem toRoot_error (s : State) : (toRoot s).error = s.error := rfl
@[simp] theorem toRoot_out (s : State) : (toRoot s).out = s.out := rfl
@[simp] theorem toRoot_root (s : State) : (toRoot s).root = s.root := rfl
@[simp] theorem toRoot_symcount (s : State) : (toRoot s).symcount = s.symcount := rfl
@[simp] theorem toRoot_syms (s : State) : (toRoot s).syms = s.syms := rfl
@[simp] theorem toRoot_bits (s : State) : (toRoot s).bits = s.bits := rfl
@[simp] theorem toRoot_wbuf (s : State) : (toRoot s).wbuf = s.wbuf := rfl
@[simp] theorem toRoot_wcnt (s : State) : (toRoot s).wcnt = s.wcnt := rfl
@[simp] theorem toRoot_rbuf (s : State) : (toRoot s).rbuf = s.rbuf := rfl
@[simp] theorem toRoot_rcnt (s : State) : (toRoot s).rcnt = s.rcnt := rfl
@[simp] theorem toRoot_cur (s : State) : (toRoot s).cur = s.rroot := rfl
@[simp] theorem toRoot_depth (s : State) : (toRoot s).depth = 0 := rfl
@[simp] theorem toRoot_rroot (s : State) : (toRoot s).rroot = s.rroot := rfl
@[simp] theorem toRoot_target (s : State) : (toRoot s).target = s.target := rfl
@[simp] theorem toRoot_mem (s : State) : (toRoot s).mem = s.mem := rfl
@[simp] theorem toRoot_script (s : State) : (toRoot s).script = s.script := rfl
@[simp] theorem toRoot_heard (s : State) : (toRoot s).heard = s.heard := rfl
@[simp] theorem toRoot_schedule (s : State) : (toRoot s).schedule = s.schedule := rfl
@[simp] theorem toRoot_delay (s : State) : (toRoot s).delay = s.delay := rfl
@[simp] theorem toRoot_draws (s : State) : (toRoot s).draws = s.draws := rfl

@[simp] theorem latchCommand_params (d : Word) (s : State) : (latchCommand d s).params = s.params := rfl
@[simp] theorem latchCommand_mode (d : Word) (s : State) : (latchCommand d s).mode = s.mode := rfl
@[simp] theorem latchCommand_busy (d : Word) (s : State) : (latchCommand d s).busy = true := rfl
@[simp] theorem latchCommand_pending (d : Word) (s : State) : (latchCommand d s).pending = d := rfl
@[simp] theorem latchCommand_overrun (d : Word) (s : State) : (latchCommand d s).overrun = s.overrun := rfl
@[simp] theorem latchCommand_lockvio (d : Word) (s : State) : (latchCommand d s).lockvio = s.lockvio := rfl
@[simp] theorem latchCommand_error (d : Word) (s : State) : (latchCommand d s).error = s.error := rfl
@[simp] theorem latchCommand_out (d : Word) (s : State) : (latchCommand d s).out = s.out := rfl
@[simp] theorem latchCommand_root (d : Word) (s : State) : (latchCommand d s).root = s.root := rfl
@[simp] theorem latchCommand_symcount (d : Word) (s : State) : (latchCommand d s).symcount = s.symcount := rfl
@[simp] theorem latchCommand_syms (d : Word) (s : State) : (latchCommand d s).syms = s.syms := rfl
@[simp] theorem latchCommand_bits (d : Word) (s : State) : (latchCommand d s).bits = s.bits := rfl
@[simp] theorem latchCommand_wbuf (d : Word) (s : State) : (latchCommand d s).wbuf = s.wbuf := rfl
@[simp] theorem latchCommand_wcnt (d : Word) (s : State) : (latchCommand d s).wcnt = s.wcnt := rfl
@[simp] theorem latchCommand_rbuf (d : Word) (s : State) : (latchCommand d s).rbuf = s.rbuf := rfl
@[simp] theorem latchCommand_rcnt (d : Word) (s : State) : (latchCommand d s).rcnt = s.rcnt := rfl
@[simp] theorem latchCommand_cur (d : Word) (s : State) : (latchCommand d s).cur = s.cur := rfl
@[simp] theorem latchCommand_depth (d : Word) (s : State) : (latchCommand d s).depth = s.depth := rfl
@[simp] theorem latchCommand_rroot (d : Word) (s : State) : (latchCommand d s).rroot = s.rroot := rfl
@[simp] theorem latchCommand_target (d : Word) (s : State) : (latchCommand d s).target = s.target := rfl
@[simp] theorem latchCommand_mem (d : Word) (s : State) : (latchCommand d s).mem = s.mem := rfl
@[simp] theorem latchCommand_script (d : Word) (s : State) : (latchCommand d s).script = s.script := rfl
@[simp] theorem latchCommand_heard (d : Word) (s : State) : (latchCommand d s).heard = s.heard := rfl
@[simp] theorem latchCommand_schedule (d : Word) (s : State) : (latchCommand d s).schedule = s.schedule.tail := rfl
@[simp] theorem latchCommand_delay (d : Word) (s : State) : (latchCommand d s).delay = s.schedule.headD 0 := rfl
@[simp] theorem latchCommand_draws (d : Word) (s : State) : (latchCommand d s).draws = s.draws := rfl

@[simp] theorem beginAction_params (rest : List HostOp) (s : State) : (beginAction rest s).params = s.params := rfl
@[simp] theorem beginAction_mode (rest : List HostOp) (s : State) : (beginAction rest s).mode = s.mode := rfl
@[simp] theorem beginAction_busy (rest : List HostOp) (s : State) : (beginAction rest s).busy = s.busy := rfl
@[simp] theorem beginAction_pending (rest : List HostOp) (s : State) : (beginAction rest s).pending = s.pending := rfl
@[simp] theorem beginAction_overrun (rest : List HostOp) (s : State) : (beginAction rest s).overrun = s.overrun := rfl
@[simp] theorem beginAction_lockvio (rest : List HostOp) (s : State) : (beginAction rest s).lockvio = s.lockvio := rfl
@[simp] theorem beginAction_error (rest : List HostOp) (s : State) : (beginAction rest s).error = s.error := rfl
@[simp] theorem beginAction_out (rest : List HostOp) (s : State) : (beginAction rest s).out = s.out := rfl
@[simp] theorem beginAction_root (rest : List HostOp) (s : State) : (beginAction rest s).root = s.root := rfl
@[simp] theorem beginAction_symcount (rest : List HostOp) (s : State) : (beginAction rest s).symcount = s.symcount := rfl
@[simp] theorem beginAction_syms (rest : List HostOp) (s : State) : (beginAction rest s).syms = s.syms := rfl
@[simp] theorem beginAction_bits (rest : List HostOp) (s : State) : (beginAction rest s).bits = s.bits := rfl
@[simp] theorem beginAction_wbuf (rest : List HostOp) (s : State) : (beginAction rest s).wbuf = s.wbuf := rfl
@[simp] theorem beginAction_wcnt (rest : List HostOp) (s : State) : (beginAction rest s).wcnt = s.wcnt := rfl
@[simp] theorem beginAction_rbuf (rest : List HostOp) (s : State) : (beginAction rest s).rbuf = s.rbuf := rfl
@[simp] theorem beginAction_rcnt (rest : List HostOp) (s : State) : (beginAction rest s).rcnt = s.rcnt := rfl
@[simp] theorem beginAction_cur (rest : List HostOp) (s : State) : (beginAction rest s).cur = s.cur := rfl
@[simp] theorem beginAction_depth (rest : List HostOp) (s : State) : (beginAction rest s).depth = s.depth := rfl
@[simp] theorem beginAction_rroot (rest : List HostOp) (s : State) : (beginAction rest s).rroot = s.rroot := rfl
@[simp] theorem beginAction_target (rest : List HostOp) (s : State) : (beginAction rest s).target = s.target := rfl
@[simp] theorem beginAction_mem (rest : List HostOp) (s : State) : (beginAction rest s).mem = s.mem := rfl
@[simp] theorem beginAction_script (rest : List HostOp) (s : State) : (beginAction rest s).script = rest := rfl
@[simp] theorem beginAction_heard (rest : List HostOp) (s : State) : (beginAction rest s).heard = s.heard := rfl
@[simp] theorem beginAction_schedule (rest : List HostOp) (s : State) : (beginAction rest s).schedule = s.schedule := rfl
@[simp] theorem beginAction_delay (rest : List HostOp) (s : State) : (beginAction rest s).delay = (if s.busy then s.delay - 1 else s.delay) := rfl
@[simp] theorem beginAction_draws (rest : List HostOp) (s : State) : (beginAction rest s).draws = s.draws := rfl

@[simp] theorem hear_params (a : Nat) (r : ReadResult) : (hear a r).params = r.after.params := rfl
@[simp] theorem hear_mode (a : Nat) (r : ReadResult) : (hear a r).mode = r.after.mode := rfl
@[simp] theorem hear_busy (a : Nat) (r : ReadResult) : (hear a r).busy = r.after.busy := rfl
@[simp] theorem hear_pending (a : Nat) (r : ReadResult) : (hear a r).pending = r.after.pending := rfl
@[simp] theorem hear_overrun (a : Nat) (r : ReadResult) : (hear a r).overrun = r.after.overrun := rfl
@[simp] theorem hear_lockvio (a : Nat) (r : ReadResult) : (hear a r).lockvio = r.after.lockvio := rfl
@[simp] theorem hear_error (a : Nat) (r : ReadResult) : (hear a r).error = r.after.error := rfl
@[simp] theorem hear_out (a : Nat) (r : ReadResult) : (hear a r).out = r.after.out := rfl
@[simp] theorem hear_root (a : Nat) (r : ReadResult) : (hear a r).root = r.after.root := rfl
@[simp] theorem hear_symcount (a : Nat) (r : ReadResult) : (hear a r).symcount = r.after.symcount := rfl
@[simp] theorem hear_syms (a : Nat) (r : ReadResult) : (hear a r).syms = r.after.syms := rfl
@[simp] theorem hear_bits (a : Nat) (r : ReadResult) : (hear a r).bits = r.after.bits := rfl
@[simp] theorem hear_wbuf (a : Nat) (r : ReadResult) : (hear a r).wbuf = r.after.wbuf := rfl
@[simp] theorem hear_wcnt (a : Nat) (r : ReadResult) : (hear a r).wcnt = r.after.wcnt := rfl
@[simp] theorem hear_rbuf (a : Nat) (r : ReadResult) : (hear a r).rbuf = r.after.rbuf := rfl
@[simp] theorem hear_rcnt (a : Nat) (r : ReadResult) : (hear a r).rcnt = r.after.rcnt := rfl
@[simp] theorem hear_cur (a : Nat) (r : ReadResult) : (hear a r).cur = r.after.cur := rfl
@[simp] theorem hear_depth (a : Nat) (r : ReadResult) : (hear a r).depth = r.after.depth := rfl
@[simp] theorem hear_rroot (a : Nat) (r : ReadResult) : (hear a r).rroot = r.after.rroot := rfl
@[simp] theorem hear_target (a : Nat) (r : ReadResult) : (hear a r).target = r.after.target := rfl
@[simp] theorem hear_mem (a : Nat) (r : ReadResult) : (hear a r).mem = r.after.mem := rfl
@[simp] theorem hear_script (a : Nat) (r : ReadResult) : (hear a r).script = r.after.script := rfl
@[simp] theorem hear_heard (a : Nat) (r : ReadResult) : (hear a r).heard = r.after.heard ++ [{ addr := a, value := r.value }] := rfl
@[simp] theorem hear_schedule (a : Nat) (r : ReadResult) : (hear a r).schedule = r.after.schedule := rfl
@[simp] theorem hear_delay (a : Nat) (r : ReadResult) : (hear a r).delay = r.after.delay := rfl
@[simp] theorem hear_draws (a : Nat) (r : ReadResult) : (hear a r).draws = r.after.draws := rfl

@[simp] theorem latchedWith_params (s : State) (nbits w : Nat) : (latchedWith s nbits w).params = s.params := rfl
@[simp] theorem latchedWith_mode (s : State) (nbits w : Nat) : (latchedWith s nbits w).mode = s.mode := rfl
@[simp] theorem latchedWith_busy (s : State) (nbits w : Nat) : (latchedWith s nbits w).busy = true := rfl
@[simp] theorem latchedWith_pending (s : State) (nbits w : Nat) : (latchedWith s nbits w).pending = BitVec.ofNat 32 (w % 2 ^ nbits) := rfl
@[simp] theorem latchedWith_overrun (s : State) (nbits w : Nat) : (latchedWith s nbits w).overrun = s.overrun := rfl
@[simp] theorem latchedWith_lockvio (s : State) (nbits w : Nat) : (latchedWith s nbits w).lockvio = s.lockvio := rfl
@[simp] theorem latchedWith_error (s : State) (nbits w : Nat) : (latchedWith s nbits w).error = s.error := rfl
@[simp] theorem latchedWith_out (s : State) (nbits w : Nat) : (latchedWith s nbits w).out = s.out := rfl
@[simp] theorem latchedWith_root (s : State) (nbits w : Nat) : (latchedWith s nbits w).root = s.root := rfl
@[simp] theorem latchedWith_symcount (s : State) (nbits w : Nat) : (latchedWith s nbits w).symcount = s.symcount := rfl
@[simp] theorem latchedWith_syms (s : State) (nbits w : Nat) : (latchedWith s nbits w).syms = s.syms := rfl
@[simp] theorem latchedWith_bits (s : State) (nbits w : Nat) : (latchedWith s nbits w).bits = s.bits := rfl
@[simp] theorem latchedWith_wbuf (s : State) (nbits w : Nat) : (latchedWith s nbits w).wbuf = s.wbuf := rfl
@[simp] theorem latchedWith_wcnt (s : State) (nbits w : Nat) : (latchedWith s nbits w).wcnt = s.wcnt := rfl
@[simp] theorem latchedWith_rbuf (s : State) (nbits w : Nat) : (latchedWith s nbits w).rbuf = s.rbuf := rfl
@[simp] theorem latchedWith_rcnt (s : State) (nbits w : Nat) : (latchedWith s nbits w).rcnt = s.rcnt := rfl
@[simp] theorem latchedWith_cur (s : State) (nbits w : Nat) : (latchedWith s nbits w).cur = s.cur := rfl
@[simp] theorem latchedWith_depth (s : State) (nbits w : Nat) : (latchedWith s nbits w).depth = s.depth := rfl
@[simp] theorem latchedWith_rroot (s : State) (nbits w : Nat) : (latchedWith s nbits w).rroot = s.rroot := rfl
@[simp] theorem latchedWith_target (s : State) (nbits w : Nat) : (latchedWith s nbits w).target = s.target := rfl
@[simp] theorem latchedWith_mem (s : State) (nbits w : Nat) : (latchedWith s nbits w).mem = s.mem := rfl
@[simp] theorem latchedWith_script (s : State) (nbits w : Nat) : (latchedWith s nbits w).script = s.script := rfl
@[simp] theorem latchedWith_heard (s : State) (nbits w : Nat) : (latchedWith s nbits w).heard = s.heard := rfl
@[simp] theorem latchedWith_schedule (s : State) (nbits w : Nat) : (latchedWith s nbits w).schedule = s.schedule := rfl
@[simp] theorem latchedWith_delay (s : State) (nbits w : Nat) : (latchedWith s nbits w).delay = 0 := rfl
@[simp] theorem latchedWith_draws (s : State) (nbits w : Nat) : (latchedWith s nbits w).draws = s.draws := rfl

@[simp] theorem resetBlock_params (s : State) : (resetBlock s).params = s.params := rfl
@[simp] theorem resetBlock_mode (s : State) : (resetBlock s).mode = .idle := rfl
@[simp] theorem resetBlock_busy (s : State) : (resetBlock s).busy = false := rfl
@[simp] theorem resetBlock_pending (s : State) : (resetBlock s).pending = 0 := rfl
@[simp] theorem resetBlock_overrun (s : State) : (resetBlock s).overrun = false := rfl
@[simp] theorem resetBlock_lockvio (s : State) : (resetBlock s).lockvio = false := rfl
@[simp] theorem resetBlock_error (s : State) : (resetBlock s).error = ErrorRecord.none := rfl
@[simp] theorem resetBlock_out (s : State) : (resetBlock s).out = [] := rfl
@[simp] theorem resetBlock_root (s : State) : (resetBlock s).root = 0 := rfl
@[simp] theorem resetBlock_symcount (s : State) : (resetBlock s).symcount = 0 := rfl
@[simp] theorem resetBlock_syms (s : State) : (resetBlock s).syms = 0 := rfl
@[simp] theorem resetBlock_bits (s : State) : (resetBlock s).bits = 0 := rfl
@[simp] theorem resetBlock_wbuf (s : State) : (resetBlock s).wbuf = 0 := rfl
@[simp] theorem resetBlock_wcnt (s : State) : (resetBlock s).wcnt = 0 := rfl
@[simp] theorem resetBlock_rbuf (s : State) : (resetBlock s).rbuf = 0 := rfl
@[simp] theorem resetBlock_rcnt (s : State) : (resetBlock s).rcnt = 0 := rfl
@[simp] theorem resetBlock_cur (s : State) : (resetBlock s).cur = 0 := rfl
@[simp] theorem resetBlock_depth (s : State) : (resetBlock s).depth = 0 := rfl
@[simp] theorem resetBlock_rroot (s : State) : (resetBlock s).rroot = 0 := rfl
@[simp] theorem resetBlock_target (s : State) : (resetBlock s).target = 0 := rfl
@[simp] theorem resetBlock_mem (s : State) : (resetBlock s).mem = [] := rfl
@[simp] theorem resetBlock_script (s : State) : (resetBlock s).script = s.script := rfl
@[simp] theorem resetBlock_heard (s : State) : (resetBlock s).heard = s.heard := rfl
@[simp] theorem resetBlock_schedule (s : State) : (resetBlock s).schedule = s.schedule := rfl
@[simp] theorem resetBlock_delay (s : State) : (resetBlock s).delay = 0 := rfl
@[simp] theorem resetBlock_draws (s : State) : (resetBlock s).draws = s.draws := rfl

end Sys2Proof.Machine
end

