-- ==== Sys2Proof/Laws/Ops.lean ====
section
/-! SUPPORT. One law per shared operation: what it can do, and what it leaves alone. The provers cite these instead of
unfolding the operations. -/

namespace Sys2Proof.Machine

open Sys2Proof

/-- A state is its fields: two states that agree on every field are equal. -/
theorem State.ext_fields {s t : State}
    (h_params : s.params = t.params)
    (h_mode : s.mode = t.mode)
    (h_busy : s.busy = t.busy)
    (h_pending : s.pending = t.pending)
    (h_overrun : s.overrun = t.overrun)
    (h_lockvio : s.lockvio = t.lockvio)
    (h_error : s.error = t.error)
    (h_out : s.out = t.out)
    (h_root : s.root = t.root)
    (h_symcount : s.symcount = t.symcount)
    (h_syms : s.syms = t.syms)
    (h_bits : s.bits = t.bits)
    (h_wbuf : s.wbuf = t.wbuf)
    (h_wcnt : s.wcnt = t.wcnt)
    (h_rbuf : s.rbuf = t.rbuf)
    (h_rcnt : s.rcnt = t.rcnt)
    (h_cur : s.cur = t.cur)
    (h_depth : s.depth = t.depth)
    (h_rroot : s.rroot = t.rroot)
    (h_target : s.target = t.target)
    (h_mem : s.mem = t.mem)
    (h_script : s.script = t.script)
    (h_heard : s.heard = t.heard)
    (h_schedule : s.schedule = t.schedule)
    (h_delay : s.delay = t.delay)
    (h_draws : s.draws = t.draws) : s = t := by
  cases s; cases t; simp_all

@[simp] theorem writeBit_params (b : Bool) (s : State) : (writeBit b s).params = s.params := by unfold writeBit; split <;> rfl
@[simp] theorem writeBit_mode (b : Bool) (s : State) : (writeBit b s).mode = s.mode := by unfold writeBit; split <;> rfl
@[simp] theorem writeBit_busy (b : Bool) (s : State) : (writeBit b s).busy = s.busy := by unfold writeBit; split <;> rfl
@[simp] theorem writeBit_pending (b : Bool) (s : State) : (writeBit b s).pending = s.pending := by unfold writeBit; split <;> rfl
@[simp] theorem writeBit_overrun (b : Bool) (s : State) : (writeBit b s).overrun = s.overrun := by unfold writeBit; split <;> rfl
@[simp] theorem writeBit_lockvio (b : Bool) (s : State) : (writeBit b s).lockvio = s.lockvio := by unfold writeBit; split <;> rfl
@[simp] theorem writeBit_error (b : Bool) (s : State) : (writeBit b s).error = s.error := by unfold writeBit; split <;> rfl
@[simp] theorem writeBit_root (b : Bool) (s : State) : (writeBit b s).root = s.root := by unfold writeBit; split <;> rfl
@[simp] theorem writeBit_symcount (b : Bool) (s : State) : (writeBit b s).symcount = s.symcount := by unfold writeBit; split <;> rfl
@[simp] theorem writeBit_syms (b : Bool) (s : State) : (writeBit b s).syms = s.syms := by unfold writeBit; split <;> rfl
@[simp] theorem writeBit_bits (b : Bool) (s : State) : (writeBit b s).bits = s.bits := by unfold writeBit; split <;> rfl
@[simp] theorem writeBit_rbuf (b : Bool) (s : State) : (writeBit b s).rbuf = s.rbuf := by unfold writeBit; split <;> rfl
@[simp] theorem writeBit_rcnt (b : Bool) (s : State) : (writeBit b s).rcnt = s.rcnt := by unfold writeBit; split <;> rfl
@[simp] theorem writeBit_cur (b : Bool) (s : State) : (writeBit b s).cur = s.cur := by unfold writeBit; split <;> rfl
@[simp] theorem writeBit_depth (b : Bool) (s : State) : (writeBit b s).depth = s.depth := by unfold writeBit; split <;> rfl
@[simp] theorem writeBit_rroot (b : Bool) (s : State) : (writeBit b s).rroot = s.rroot := by unfold writeBit; split <;> rfl
@[simp] theorem writeBit_target (b : Bool) (s : State) : (writeBit b s).target = s.target := by unfold writeBit; split <;> rfl
@[simp] theorem writeBit_mem (b : Bool) (s : State) : (writeBit b s).mem = s.mem := by unfold writeBit; split <;> rfl
@[simp] theorem writeBit_script (b : Bool) (s : State) : (writeBit b s).script = s.script := by unfold writeBit; split <;> rfl
@[simp] theorem writeBit_heard (b : Bool) (s : State) : (writeBit b s).heard = s.heard := by unfold writeBit; split <;> rfl
@[simp] theorem writeBit_schedule (b : Bool) (s : State) : (writeBit b s).schedule = s.schedule := by unfold writeBit; split <;> rfl
@[simp] theorem writeBit_delay (b : Bool) (s : State) : (writeBit b s).delay = s.delay := by unfold writeBit; split <;> rfl
@[simp] theorem writeBit_draws (b : Bool) (s : State) : (writeBit b s).draws = s.draws := by unfold writeBit; split <;> rfl

@[simp] theorem finish_params (s : State) : (finish s).params = s.params := by unfold finish; split <;> rfl
@[simp] theorem finish_mode (s : State) : (finish s).mode = s.mode := by unfold finish; split <;> rfl
@[simp] theorem finish_busy (s : State) : (finish s).busy = s.busy := by unfold finish; split <;> rfl
@[simp] theorem finish_pending (s : State) : (finish s).pending = s.pending := by unfold finish; split <;> rfl
@[simp] theorem finish_overrun (s : State) : (finish s).overrun = s.overrun := by unfold finish; split <;> rfl
@[simp] theorem finish_lockvio (s : State) : (finish s).lockvio = s.lockvio := by unfold finish; split <;> rfl
@[simp] theorem finish_error (s : State) : (finish s).error = s.error := by unfold finish; split <;> rfl
@[simp] theorem finish_root (s : State) : (finish s).root = s.root := by unfold finish; split <;> rfl
@[simp] theorem finish_symcount (s : State) : (finish s).symcount = s.symcount := by unfold finish; split <;> rfl
@[simp] theorem finish_syms (s : State) : (finish s).syms = s.syms := by unfold finish; split <;> rfl
@[simp] theorem finish_bits (s : State) : (finish s).bits = s.bits := by unfold finish; split <;> rfl
@[simp] theorem finish_rbuf (s : State) : (finish s).rbuf = s.rbuf := by unfold finish; split <;> rfl
@[simp] theorem finish_rcnt (s : State) : (finish s).rcnt = s.rcnt := by unfold finish; split <;> rfl
@[simp] theorem finish_cur (s : State) : (finish s).cur = s.cur := by unfold finish; split <;> rfl
@[simp] theorem finish_depth (s : State) : (finish s).depth = s.depth := by unfold finish; split <;> rfl
@[simp] theorem finish_rroot (s : State) : (finish s).rroot = s.rroot := by unfold finish; split <;> rfl
@[simp] theorem finish_target (s : State) : (finish s).target = s.target := by unfold finish; split <;> rfl
@[simp] theorem finish_mem (s : State) : (finish s).mem = s.mem := by unfold finish; split <;> rfl
@[simp] theorem finish_script (s : State) : (finish s).script = s.script := by unfold finish; split <;> rfl
@[simp] theorem finish_heard (s : State) : (finish s).heard = s.heard := by unfold finish; split <;> rfl
@[simp] theorem finish_schedule (s : State) : (finish s).schedule = s.schedule := by unfold finish; split <;> rfl
@[simp] theorem finish_delay (s : State) : (finish s).delay = s.delay := by unfold finish; split <;> rfl
@[simp] theorem finish_draws (s : State) : (finish s).draws = s.draws := by unfold finish; split <;> rfl

@[simp] theorem writeCode_params (c : CodeValue) (n : Nat) (s : State) : (writeCode c n s).params = s.params := by
  induction n generalizing s with
  | zero => rfl
  | succ n ih => rw [writeCode, ih, writeBit_params]
@[simp] theorem writeCode_mode (c : CodeValue) (n : Nat) (s : State) : (writeCode c n s).mode = s.mode := by
  induction n generalizing s with
  | zero => rfl
  | succ n ih => rw [writeCode, ih, writeBit_mode]
@[simp] theorem writeCode_busy (c : CodeValue) (n : Nat) (s : State) : (writeCode c n s).busy = s.busy := by
  induction n generalizing s with
  | zero => rfl
  | succ n ih => rw [writeCode, ih, writeBit_busy]
@[simp] theorem writeCode_pending (c : CodeValue) (n : Nat) (s : State) : (writeCode c n s).pending = s.pending := by
  induction n generalizing s with
  | zero => rfl
  | succ n ih => rw [writeCode, ih, writeBit_pending]
@[simp] theorem writeCode_overrun (c : CodeValue) (n : Nat) (s : State) : (writeCode c n s).overrun = s.overrun := by
  induction n generalizing s with
  | zero => rfl
  | succ n ih => rw [writeCode, ih, writeBit_overrun]
@[simp] theorem writeCode_lockvio (c : CodeValue) (n : Nat) (s : State) : (writeCode c n s).lockvio = s.lockvio := by
  induction n generalizing s with
  | zero => rfl
  | succ n ih => rw [writeCode, ih, writeBit_lockvio]
@[simp] theorem writeCode_error (c : CodeValue) (n : Nat) (s : State) : (writeCode c n s).error = s.error := by
  induction n generalizing s with
  | zero => rfl
  | succ n ih => rw [writeCode, ih, writeBit_error]
@[simp] theorem writeCode_root (c : CodeValue) (n : Nat) (s : State) : (writeCode c n s).root = s.root := by
  induction n generalizing s with
  | zero => rfl
  | succ n ih => rw [writeCode, ih, writeBit_root]
@[simp] theorem writeCode_symcount (c : CodeValue) (n : Nat) (s : State) : (writeCode c n s).symcount = s.symcount := by
  induction n generalizing s with
  | zero => rfl
  | succ n ih => rw [writeCode, ih, writeBit_symcount]
@[simp] theorem writeCode_syms (c : CodeValue) (n : Nat) (s : State) : (writeCode c n s).syms = s.syms := by
  induction n generalizing s with
  | zero => rfl
  | succ n ih => rw [writeCode, ih, writeBit_syms]
@[simp] theorem writeCode_bits (c : CodeValue) (n : Nat) (s : State) : (writeCode c n s).bits = s.bits := by
  induction n generalizing s with
  | zero => rfl
  | succ n ih => rw [writeCode, ih, writeBit_bits]
@[simp] theorem writeCode_rbuf (c : CodeValue) (n : Nat) (s : State) : (writeCode c n s).rbuf = s.rbuf := by
  induction n generalizing s with
  | zero => rfl
  | succ n ih => rw [writeCode, ih, writeBit_rbuf]
@[simp] theorem writeCode_rcnt (c : CodeValue) (n : Nat) (s : State) : (writeCode c n s).rcnt = s.rcnt := by
  induction n generalizing s with
  | zero => rfl
  | succ n ih => rw [writeCode, ih, writeBit_rcnt]
@[simp] theorem writeCode_cur (c : CodeValue) (n : Nat) (s : State) : (writeCode c n s).cur = s.cur := by
  induction n generalizing s with
  | zero => rfl
  | succ n ih => rw [writeCode, ih, writeBit_cur]
@[simp] theorem writeCode_depth (c : CodeValue) (n : Nat) (s : State) : (writeCode c n s).depth = s.depth := by
  induction n generalizing s with
  | zero => rfl
  | succ n ih => rw [writeCode, ih, writeBit_depth]
@[simp] theorem writeCode_rroot (c : CodeValue) (n : Nat) (s : State) : (writeCode c n s).rroot = s.rroot := by
  induction n generalizing s with
  | zero => rfl
  | succ n ih => rw [writeCode, ih, writeBit_rroot]
@[simp] theorem writeCode_target (c : CodeValue) (n : Nat) (s : State) : (writeCode c n s).target = s.target := by
  induction n generalizing s with
  | zero => rfl
  | succ n ih => rw [writeCode, ih, writeBit_target]
@[simp] theorem writeCode_mem (c : CodeValue) (n : Nat) (s : State) : (writeCode c n s).mem = s.mem := by
  induction n generalizing s with
  | zero => rfl
  | succ n ih => rw [writeCode, ih, writeBit_mem]
@[simp] theorem writeCode_script (c : CodeValue) (n : Nat) (s : State) : (writeCode c n s).script = s.script := by
  induction n generalizing s with
  | zero => rfl
  | succ n ih => rw [writeCode, ih, writeBit_script]
@[simp] theorem writeCode_heard (c : CodeValue) (n : Nat) (s : State) : (writeCode c n s).heard = s.heard := by
  induction n generalizing s with
  | zero => rfl
  | succ n ih => rw [writeCode, ih, writeBit_heard]
@[simp] theorem writeCode_schedule (c : CodeValue) (n : Nat) (s : State) : (writeCode c n s).schedule = s.schedule := by
  induction n generalizing s with
  | zero => rfl
  | succ n ih => rw [writeCode, ih, writeBit_schedule]
@[simp] theorem writeCode_delay (c : CodeValue) (n : Nat) (s : State) : (writeCode c n s).delay = s.delay := by
  induction n generalizing s with
  | zero => rfl
  | succ n ih => rw [writeCode, ih, writeBit_delay]
@[simp] theorem writeCode_draws (c : CodeValue) (n : Nat) (s : State) : (writeCode c n s).draws = s.draws := by
  induction n generalizing s with
  | zero => rfl
  | succ n ih => rw [writeCode, ih, writeBit_draws]

@[simp] theorem raise_params (c : ErrorCause) (a : Byte) (i : BitVec 3) (s : State) : (raise c a i s).params = s.params := by
  unfold raise; split <;> simp
@[simp] theorem raise_busy (c : ErrorCause) (a : Byte) (i : BitVec 3) (s : State) : (raise c a i s).busy = s.busy := by
  unfold raise; split <;> simp
@[simp] theorem raise_pending (c : ErrorCause) (a : Byte) (i : BitVec 3) (s : State) : (raise c a i s).pending = s.pending := by
  unfold raise; split <;> simp
@[simp] theorem raise_overrun (c : ErrorCause) (a : Byte) (i : BitVec 3) (s : State) : (raise c a i s).overrun = s.overrun := by
  unfold raise; split <;> simp
@[simp] theorem raise_lockvio (c : ErrorCause) (a : Byte) (i : BitVec 3) (s : State) : (raise c a i s).lockvio = s.lockvio := by
  unfold raise; split <;> simp
@[simp] theorem raise_root (c : ErrorCause) (a : Byte) (i : BitVec 3) (s : State) : (raise c a i s).root = s.root := by
  unfold raise; split <;> simp
@[simp] theorem raise_symcount (c : ErrorCause) (a : Byte) (i : BitVec 3) (s : State) : (raise c a i s).symcount = s.symcount := by
  unfold raise; split <;> simp
@[simp] theorem raise_syms (c : ErrorCause) (a : Byte) (i : BitVec 3) (s : State) : (raise c a i s).syms = s.syms := by
  unfold raise; split <;> simp
@[simp] theorem raise_bits (c : ErrorCause) (a : Byte) (i : BitVec 3) (s : State) : (raise c a i s).bits = s.bits := by
  unfold raise; split <;> simp
@[simp] theorem raise_rbuf (c : ErrorCause) (a : Byte) (i : BitVec 3) (s : State) : (raise c a i s).rbuf = s.rbuf := by
  unfold raise; split <;> simp
@[simp] theorem raise_cur (c : ErrorCause) (a : Byte) (i : BitVec 3) (s : State) : (raise c a i s).cur = s.cur := by
  unfold raise; split <;> simp
@[simp] theorem raise_depth (c : ErrorCause) (a : Byte) (i : BitVec 3) (s : State) : (raise c a i s).depth = s.depth := by
  unfold raise; split <;> simp
@[simp] theorem raise_rroot (c : ErrorCause) (a : Byte) (i : BitVec 3) (s : State) : (raise c a i s).rroot = s.rroot := by
  unfold raise; split <;> simp
@[simp] theorem raise_target (c : ErrorCause) (a : Byte) (i : BitVec 3) (s : State) : (raise c a i s).target = s.target := by
  unfold raise; split <;> simp
@[simp] theorem raise_mem (c : ErrorCause) (a : Byte) (i : BitVec 3) (s : State) : (raise c a i s).mem = s.mem := by
  unfold raise; split <;> simp
@[simp] theorem raise_script (c : ErrorCause) (a : Byte) (i : BitVec 3) (s : State) : (raise c a i s).script = s.script := by
  unfold raise; split <;> simp
@[simp] theorem raise_heard (c : ErrorCause) (a : Byte) (i : BitVec 3) (s : State) : (raise c a i s).heard = s.heard := by
  unfold raise; split <;> simp
@[simp] theorem raise_schedule (c : ErrorCause) (a : Byte) (i : BitVec 3) (s : State) : (raise c a i s).schedule = s.schedule := by
  unfold raise; split <;> simp
@[simp] theorem raise_delay (c : ErrorCause) (a : Byte) (i : BitVec 3) (s : State) : (raise c a i s).delay = s.delay := by
  unfold raise; split <;> simp
@[simp] theorem raise_draws (c : ErrorCause) (a : Byte) (i : BitVec 3) (s : State) : (raise c a i s).draws = s.draws := by
  unfold raise; split <;> simp
@[simp] theorem raise_mode (c : ErrorCause) (a : Byte) (i : BitVec 3) (s : State) : (raise c a i s).mode = .error := rfl
@[simp] theorem raise_rcnt (c : ErrorCause) (a : Byte) (i : BitVec 3) (s : State) : (raise c a i s).rcnt = 0 := rfl
@[simp] theorem raise_error (c : ErrorCause) (a : Byte) (i : BitVec 3) (s : State) :
    (raise c a i s).error = errorRecord c a i := rfl

/-- Error entry outside ENC mode flushes nothing (R366). -/
theorem raise_of_not_enc {c : ErrorCause} {a : Byte} {i : BitVec 3} {s : State} (h : s.mode ≠ .enc) :
    raise c a i s = { s with rcnt := 0, error := errorRecord c a i, mode := .error } := by
  simp [raise, h]

/-- Error entry from ENC mode flushes (R366). -/
theorem raise_of_enc {c : ErrorCause} {a : Byte} {i : BitVec 3} {s : State} (h : s.mode = .enc) :
    raise c a i s = { finish s with rcnt := 0, error := errorRecord c a i, mode := .error } := by
  simp [raise, h]

/-- `finish()` leaves no pending bit (R202), given that no pending bit means WBUF = 0 (R49). -/
theorem finish_wcnt (s : State) : (finish s).wcnt = 0 := by
  unfold finish; split
  · assumption
  · rfl

theorem finish_wbuf (s : State) (h : s.wcnt = 0 → s.wbuf = 0) : (finish s).wbuf = 0 := by
  unfold finish; split
  · next hw => exact h hw
  · rfl

/-- `finish()` pushes at most one byte, and none when no bit is pending (R202). -/
theorem finish_outCount (s : State) : outCount (finish s) = outCount s + (if s.wcnt = 0 then 0 else 1) := by
  unfold finish; split <;> simp [outCount, *]

/-- `write_bit` counts the bit: eight pending bits become one byte (R200). -/
theorem writeBit_count (b : Bool) (s : State) (h : s.wcnt.toNat ≤ 7) :
    (writeBit b s).wcnt.toNat = (s.wcnt.toNat + 1) % 8 ∧
      outCount (writeBit b s) = outCount s + (s.wcnt.toNat + 1) / 8 := by
  have h8 : s.wcnt + 1 = 8 ↔ s.wcnt.toNat = 7 := by
    rw [← BitVec.toNat_inj]; simp; omega
  unfold writeBit
  split
  · next hw =>
    have := h8.mp hw
    simp [outCount, this]
  · next hw =>
    have hne : s.wcnt.toNat ≠ 7 := fun e => hw (h8.mpr e)
    have hadd : (s.wcnt + 1).toNat = s.wcnt.toNat + 1 := by rw [BitVec.toNat_add]; simp; omega
    refine ⟨?_, ?_⟩
    · show (s.wcnt + 1).toNat = _
      omega
    · show outCount s = _
      omega

/-- n bits written: the pending count and the bytes pushed (R261: `(WCNT + LEN) div 8` bytes). -/
theorem writeCode_count (c : CodeValue) (n : Nat) (s : State) (h : s.wcnt.toNat ≤ 7) :
    (writeCode c n s).wcnt.toNat = (s.wcnt.toNat + n) % 8 ∧
      outCount (writeCode c n s) = outCount s + (s.wcnt.toNat + n) / 8 := by
  induction n generalizing s with
  | zero =>
    refine ⟨?_, ?_⟩
    · show s.wcnt.toNat = _
      omega
    · show outCount s = _
      omega
  | succ n ih =>
    obtain ⟨hw, ho⟩ := writeBit_count (c.getLsbD n) s h
    obtain ⟨hw', ho'⟩ := ih (writeBit (c.getLsbD n) s) (by omega)
    rw [writeCode]
    refine ⟨?_, ?_⟩ <;> omega

/-- The rule a command runs once dispatch has passed (R235). -/
def commandBody : Instr → State → State
  | .encOpen => encOpenBody
  | .encSym sym => encSymBody sym
  | .encBit b => encBitBody b
  | .encFinish => encFinishBody
  | .decOpen => decOpenBody
  | .decByte v => decByteBody v
  | .decEnd => decEndBody
  | .clear => clearErrors

/-- Every command is its own rule behind the one dispatch. -/
theorem exec_eq_dispatch (i : Instr) (s : State) : exec i s = dispatchCommand i (commandBody i) s := by
  cases i <;> rfl

/-- Say once what dispatch can do (R232, R234, R235). -/
theorem dispatchCommand_cases {i : Instr} {body : State → State} {s t : State}
    (h : dispatchCommand i body s = .next t) :
    (legalIn i s.mode = true ∧ t = body s) ∨
      (legalIn i s.mode = false ∧ s.mode = .error ∧ t = s) ∨
      (legalIn i s.mode = false ∧ s.mode ≠ .error ∧ t = raise .wrongMode i.opcode 0 s) := by
  unfold dispatchCommand at h
  split at h
  · next hl => exact .inl ⟨hl, by simpa using h.symm⟩
  · next hl =>
    simp only [Bool.not_eq_true] at hl
    split at h
    · next he => exact .inr (.inl ⟨hl, he, by simpa using h.symm⟩)
    · next he => exact .inr (.inr ⟨hl, he, by simpa using h.symm⟩)

/-- Every command answers a next state: no command faults, and none is refused (R239). -/
theorem exec_answers_next (i : Instr) (s : State) : ∃ t, exec i s = .next t := by
  rw [exec_eq_dispatch]
  unfold dispatchCommand
  split
  · exact ⟨_, rfl⟩
  · split <;> exact ⟨_, rfl⟩

/-- A command in a mode it is legal in runs its own rule. -/
theorem exec_legal {i : Instr} {s : State} (h : legalIn i s.mode = true) : exec i s = .next (commandBody i s) := by
  rw [exec_eq_dispatch, dispatchCommand, if_pos h]

/-- What `walk_step` can do: raise an error with the cursor, OUT and the counters as they were, emit a symbol and stand at
the root, emit at a leaf root, or move to an INTERNAL child (R294). -/
theorem walkStep_cases (bit : Bool) (v : Byte) (i : BitVec 3) (s : State) :
    (∃ c, walkStep bit v i s = .raised (raise c v i s)) ∨
      (∃ sym, nodeAt s.mem s.cur = .leaf sym ∧ bit = false ∧ walkStep bit v i s = .running (emitSymbol sym s)) ∨
      (∃ l r sym, nodeAt s.mem s.cur = .internal l r ∧ nodeAt s.mem (childOf l r bit) = .leaf sym ∧
        walkStep bit v i s = .running (toRoot (emitSymbol sym s))) ∨
      (∃ l r l' r', nodeAt s.mem s.cur = .internal l r ∧ nodeAt s.mem (childOf l r bit) = .internal l' r' ∧
        s.depth.toNat + 1 < Config.depthLimit ∧
        walkStep bit v i s =
          .running { s with cur := childOf l r bit, depth := s.depth + 1, bits := s.bits + 1 }) := by
  unfold walkStep
  split
  · next sym hn =>
    cases bit
    · exact .inr (.inl ⟨sym, hn, rfl, rfl⟩)
    · exact .inl ⟨_, rfl⟩
  · next l r hn =>
    split
    · next sym hc => exact .inr (.inr (.inl ⟨l, r, sym, hn, hc, rfl⟩))
    · next l' r' hc =>
      split
      · exact .inl ⟨_, rfl⟩
      · next hd => exact .inr (.inr (.inr ⟨l, r, l', r', hn, hc, by omega, rfl⟩))
    · exact .inl ⟨_, rfl⟩
    · exact .inl ⟨_, rfl⟩
  · exact .inl ⟨_, rfl⟩
  · exact .inl ⟨_, rfl⟩

/-- What a DEC_BYTE's walk leaves alone, whether it runs on or raises (R291, R366). -/
theorem walkBits_frame (v : Byte) (n : Nat) (s t : State) (h : walkBits v n s = .running t ∨ walkBits v n s = .raised t) :
    t.params = s.params ∧ t.busy = s.busy ∧ t.pending = s.pending ∧ t.root = s.root ∧ t.symcount = s.symcount ∧
      t.mem = s.mem ∧ t.script = s.script ∧ t.heard = s.heard ∧ t.schedule = s.schedule ∧ t.delay = s.delay ∧
      t.draws = s.draws := by
  induction n generalizing s with
  | zero =>
    simp only [walkBits, Walk.running.injEq, reduceCtorEq, or_false] at h
    subst h
    simp
  | succ n ih =>
    simp only [walkBits] at h
    split at h
    · simp only [Walk.running.injEq, reduceCtorEq, or_false] at h
      subst h
      simp
    · rcases walkStep_cases (bitToRead s) v ((s.rcnt - 1).setWidth 3) (consumeBit s) with
        ⟨c, e⟩ | ⟨_, _, _, e⟩ | ⟨_, _, _, _, _, e⟩ | ⟨_, _, _, _, _, _, _, e⟩ <;> rw [e] at h <;> simp only at h
      · simp only [Walk.raised.injEq, reduceCtorEq, false_or] at h
        subst h
        simp
      · simpa using ih _ h
      · simpa using ih _ h
      · simpa using ih _ h

/-- What every command's own rule leaves alone: the build, the latch, the host's registers, both RAMs, the host's own
affairs (R235, R366). -/
theorem commandBody_frame (i : Instr) (s : State) :
    (commandBody i s).params = s.params ∧ (commandBody i s).busy = s.busy ∧ (commandBody i s).pending = s.pending ∧
      (commandBody i s).root = s.root ∧ (commandBody i s).symcount = s.symcount ∧ (commandBody i s).mem = s.mem ∧
      (commandBody i s).script = s.script ∧ (commandBody i s).heard = s.heard ∧
      (commandBody i s).schedule = s.schedule ∧ (commandBody i s).delay = s.delay ∧
      (commandBody i s).draws = s.draws := by
  cases i with
  | encOpen => simp only [commandBody, encOpenBody]; split <;> simp
  | encSym sym =>
    simp only [commandBody, encSymBody]
    repeat' split
    all_goals simp [emitCodeword]
  | encBit b => simp only [commandBody, encBitBody]; split <;> simp
  | encFinish => simp [commandBody, encFinishBody]
  | decOpen => simp only [commandBody, decOpenBody]; split <;> simp
  | decByte v =>
    simp only [commandBody, decByteBody]
    split
    · simp
    split
    · simp
    split
    · next t ht =>
      have hf := walkBits_frame v 8 _ t (.inl ht)
      simp only [finishByte]
      split
      · split <;> simpa using hf
      · simpa using hf
    · next t ht => simpa using walkBits_frame v 8 _ t (.inr ht)
  | decEnd => simp only [commandBody, decEndBody]; split <;> simp
  | clear => simp [commandBody]

/-- What every command leaves alone in every mode (R232, R234, R235, R366). -/
theorem exec_frame {i : Instr} {s t : State} (h : exec i s = .next t) :
    t.params = s.params ∧ t.busy = s.busy ∧ t.pending = s.pending ∧ t.root = s.root ∧ t.symcount = s.symcount ∧
      t.mem = s.mem ∧ t.script = s.script ∧ t.heard = s.heard ∧ t.schedule = s.schedule ∧ t.delay = s.delay ∧
      t.draws = s.draws := by
  rw [exec_eq_dispatch] at h
  rcases dispatchCommand_cases h with ⟨_, rfl⟩ | ⟨_, _, rfl⟩ | ⟨_, _, rfl⟩
  · exact commandBody_frame i s
  · simp
  · simp

end Sys2Proof.Machine
end

