-- ==== Sys2Proof/Laws/Bus.lean ====
section
/-! SUPPORT. What the host's side can do to the state, and what one step can be: one inversion lemma each for a read, a
write, the platform's turn and the step. -/

namespace Sys2Proof.Machine

open Sys2Proof

/-- A read leaves the state alone, but for a free value drawn or an entry popped from OUT (R94, R333, R42). -/
theorem busRead_after (a : Nat) (s : State) :
    (busRead a s).after = s ∨ (s.busy = true ∧ (busRead a s).after = { s with draws := s.draws + 1 }) ∨
      (targetOf a = .reg .dout ∧ ∃ v rest, s.busy = false ∧ s.out = v :: rest ∧
        (busRead a s).after = { s with out := rest } ∧ (busRead a s).value = 0#23 ++ 1#1 ++ v) := by
  unfold busRead
  split
  · next r hr =>
    unfold readReg
    split
    · next hd =>
      subst hd
      unfold readDout
      split
      · exact .inl rfl
      · next hb =>
        simp only [Bool.not_eq_true] at hb
        split
        · exact .inl rfl
        · next v rest ho => exact .inr (.inr ⟨hr, v, rest, hb, ho, rfl, rfl⟩)
    · split
      · next hb => exact .inr (.inl ⟨hb.1, rfl⟩)
      · exact .inl rfl
  all_goals exact .inl rfl

/-- A target of CT RAM's code words has k at most 7 (R85). -/
theorem targetOf_ctCode {a : Nat} {sym : Byte} {k : Nat} (h : targetOf a = .ctCode sym k) : k ≤ 7 := by
  unfold targetOf at h
  split at h
  · cases h
  split at h
  · cases h
  split at h
  · cases h
  split at h
  · cases h
  split at h
  · cases h
  split at h
  · injection h with _ hk
    omega
  · cases h

/-- What an accepted or dropped host write can do (R334, R336, R337, R338). -/
theorem busWrite_cases (a : Nat) (d : Word) (s : State) :
    (s.busy = true ∧ busWrite a d s = { s with overrun := true }) ∨
      (s.busy = false ∧
        (busWrite a d s = { s with lockvio := true } ∨
          busWrite a d s = s ∨
          busWrite a d s = latchCommand d s ∨
          busWrite a d s = { s with root := d.extractLsb' 0 9 } ∨
          (∃ c, busWrite a d s = { s with symcount := c }) ∨
          (s.mode ≠ .dec ∧ ∃ i, busWrite a d s = { s with mem := Memory.writeWord s.mem (nodeOffset i) d }) ∨
          (s.mode ≠ .enc ∧ ∃ sym w e, w ≤ 8 ∧ busWrite a d s = { s with mem := Memory.writeWord s.mem (ctOffset sym w) e }))) := by
  unfold busWrite
  split
  · next hb => exact .inl ⟨hb, rfl⟩
  · next hb =>
    simp only [Bool.not_eq_true] at hb
    refine .inr ⟨hb, ?_⟩
    split
    · exact .inl rfl
    · next hl =>
      generalize ht : targetOf a = t at hl
      cases t with
      | reg r =>
        cases r
        case cmd => exact .inr (.inr (.inl rfl))
        case root => exact .inr (.inr (.inr (.inl rfl)))
        case symcountLo => exact .inr (.inr (.inr (.inr (.inl ⟨_, rfl⟩))))
        case symcountHi => exact .inr (.inr (.inr (.inr (.inl ⟨_, rfl⟩))))
        all_goals exact .inr (.inl rfl)
      | node i =>
        refine .inr (.inr (.inr (.inr (.inr (.inl ⟨fun hm => hl ?_, i, rfl⟩)))))
        simp [locked, hm, Target.inNodeRam]
      | ctHeader sym =>
        refine .inr (.inr (.inr (.inr (.inr (.inr ⟨fun hm => hl ?_, sym, 0, headerStored d, by omega, rfl⟩)))))
        simp [locked, hm, Target.inCtRam]
      | ctCode sym k =>
        refine .inr (.inr (.inr (.inr (.inr (.inr ⟨fun hm => hl ?_, sym, 1 + k, d, ?_, rfl⟩)))))
        · simp [locked, hm, Target.inCtRam]
        · have := targetOf_ctCode ht
          omega
      | ctReserved => exact .inr (.inl rfl)
      | unmapped => exact .inr (.inl rfl)

/-- An access passes the check exactly when it is an aligned word of the window (R91, R80). -/
theorem checkedAccess_next {a size : Nat} {s t : State} (h : checkedAccess a size s = .next t) :
    size = 4 ∧ a % 4 = 0 ∧ a < Config.windowBytes ∧ t = s := by
  unfold checkedAccess at h
  split at h
  · cases h
  · next hsa =>
    split at h
    · cases h
    · next hw =>
      simp only [ne_eq, not_or, not_not] at hsa
      exact ⟨hsa.1, hsa.2, by omega, by simpa using h.symm⟩

theorem checkedAccess_ok {a : Nat} {s : State} (ha : a % 4 = 0) (hw : a < Config.windowBytes) :
    checkedAccess a 4 s = .next s := by
  unfold checkedAccess
  rw [if_neg (by omega), if_neg (by omega)]

/-- Say once what the platform's turn can do: nothing left to do; a read heard (WAIT and DRAIN may stay in the script); a
write; or a reset. -/
theorem platformStep_cases {s t : State} (h : platformStep s = .next t) :
    (s.script = [] ∧ t = s) ∨
      ∃ op rest, s.script = op :: rest ∧
        ((∃ a k, (k = rest ∨ k = op :: rest) ∧
            t = { hear a (busRead a (beginAction rest s)) with script := k }) ∨
          (∃ a d, op = .write a 4 d ∧ a % 4 = 0 ∧ a < Config.windowBytes ∧ t = busWrite a d (beginAction rest s)) ∨
          (op = .reset ∧ t = resetBlock (beginAction rest s))) := by
  have hscript : ∀ a u, (hear a (busRead a u)).script = u.script := by
    intro a u
    show (busRead a u).after.script = u.script
    rcases busRead_after a u with h | ⟨-, h⟩ | ⟨-, _, _, -, -, h, -⟩ <;> rw [h]
  unfold platformStep at h
  split at h
  · next he => exact .inl ⟨he, by simpa using h.symm⟩
  · next op rest he =>
    refine .inr ⟨op, rest, he, ?_⟩
    have hself : ∀ a, hear a (busRead a (beginAction rest s)) =
        { hear a (busRead a (beginAction rest s)) with script := rest } := by
      intro a
      have := hscript a (beginAction rest s)
      generalize hear a (busRead a (beginAction rest s)) = u at this ⊢
      cases u
      simp only [beginAction_script] at this
      simp [this]
    cases op with
    | read a size =>
      simp only [perform] at h
      split at h
      · next u hu =>
        obtain ⟨-, -, -, rfl⟩ := checkedAccess_next hu
        refine .inl ⟨a, rest, .inl rfl, ?_⟩
        rw [← hself]
        simpa using h.symm
      · cases h
      · cases h
    | write a size d =>
      simp only [perform] at h
      split at h
      · next u hu =>
        obtain ⟨rfl, ha, hw, rfl⟩ := checkedAccess_next hu
        exact .inr (.inl ⟨a, d, rfl, ha, hw, by simpa using h.symm⟩)
      · cases h
      · cases h
    | wait =>
      simp only [perform, Host.Outcome.next.injEq] at h
      split at h
      · exact .inl ⟨statusOffset, .wait :: rest, .inr rfl, by rw [← h, hscript]; rfl⟩
      · exact .inl ⟨statusOffset, rest, .inl rfl, by rw [← h, ← hself]⟩
    | drain =>
      simp only [perform, Host.Outcome.next.injEq] at h
      split at h
      · exact .inl ⟨doutOffset, .drain :: rest, .inr rfl, by rw [← h, hscript]; rfl⟩
      · exact .inl ⟨doutOffset, rest, .inl rfl, by rw [← h, ← hself]⟩
    | reset =>
      simp only [perform, Host.Outcome.next.injEq] at h
      exact .inr (.inr ⟨rfl, h.symm⟩)

/-- Say once what an engine step is: the decoded command and BUSY <- 0, or the illegal command and BUSY <- 0 (R231,
R233). -/
theorem engineStep_cases {s t : State} (h : engineStep s = .next t) :
    (∃ i u, decode s.pending = .command i ∧ exec i s = .next u ∧ t = retire u) ∨
      (∃ r, decode s.pending = .illegal r ∧ t = retire (illegalCommand s.pending s)) := by
  unfold engineStep at h
  split at h
  · next i hi =>
    obtain ⟨u, hu⟩ := exec_answers_next i s
    rw [hu] at h
    exact .inl ⟨i, u, hi, hu, by simpa using h.symm⟩
  · next r hr => exact .inr ⟨r, hr, by simpa using h.symm⟩

/-- A step is the engine's or the platform's. -/
theorem step_cases {s t : State} (h : step s = .next t) :
    (engineTurn s = true ∧ engineStep s = .next t) ∨ (engineTurn s = false ∧ platformStep s = .next t) := by
  unfold step at h
  split at h
  · next he => exact .inl ⟨he, h⟩
  · next he => exact .inr ⟨by simpa using he, h⟩

end Sys2Proof.Machine
end

