-- ==== Sys2Proof/Laws/Offline.lean ====
section
/-! SUPPORT. The laws of the host's offline functions: the sort is a permutation and leaves its own result as it is, a
header holds its alphabet, a trie's arena has as many words as it counts, and the identity check reads CONFIG back. -/

namespace Sys2Proof.Machine.Offline

open Sys2Proof Sys2Proof.Machine

/-- The order of R161 as a proposition. -/
theorem comesBefore_iff (x y : Weighted) :
    comesBefore x y = true ↔ x.weight < y.weight ∨ (x.weight = y.weight ∧ x.sym.toNat ≤ y.sym.toNat) := by
  simp [comesBefore]

theorem comesBefore_total (x y : Weighted) : comesBefore x y = true ∨ comesBefore y x = true := by
  rw [comesBefore_iff, comesBefore_iff]
  omega

theorem comesBefore_trans {x y z : Weighted} (h : comesBefore x y = true) (k : comesBefore y z = true) :
    comesBefore x z = true := by
  rw [comesBefore_iff] at *
  omega

theorem insertSorted_perm (x : Weighted) (ys : List Weighted) : (insertSorted x ys).Perm (x :: ys) := by
  induction ys with
  | nil => exact .refl _
  | cons y ys ih =>
    rw [insertSorted]
    split
    · exact .refl _
    · exact (ih.cons y).trans (.swap x y ys)

/-- Sorting loses and invents nothing. -/
theorem sortAlphabet_perm (xs : List Weighted) : (sortAlphabet xs).Perm xs := by
  induction xs with
  | nil => exact .refl _
  | cons x xs ih => exact (insertSorted_perm x _).trans (ih.cons x)

theorem insertSorted_sorted {x : Weighted} {ys : List Weighted} (h : ys.Pairwise (comesBefore · ·)) :
    (insertSorted x ys).Pairwise (comesBefore · ·) := by
  induction ys with
  | nil => simp [insertSorted]
  | cons y ys ih =>
    obtain ⟨hy, hys⟩ := List.pairwise_cons.mp h
    rw [insertSorted]
    split
    · next hxy =>
      exact List.pairwise_cons.mpr
        ⟨List.forall_mem_cons.mpr ⟨hxy, fun z hz => comesBefore_trans hxy (hy z hz)⟩, h⟩
    · next hxy =>
      refine List.pairwise_cons.mpr ⟨fun z hz => ?_, ih hys⟩
      rcases List.mem_cons.mp ((insertSorted_perm x ys).mem_iff.mp hz) with rfl | hz
      · exact (comesBefore_total z y).resolve_left hxy
      · exact hy z hz

/-- The sorted alphabet is in the order of R161. -/
theorem sortAlphabet_sorted (xs : List Weighted) : (sortAlphabet xs).Pairwise (comesBefore · ·) := by
  induction xs with
  | nil => exact .nil
  | cons x xs ih => exact insertSorted_sorted ih

/-- A sequence in order is left as it is: "a re-sort by the same key reproduces the order" (R161). -/
theorem sortAlphabet_of_sorted {xs : List Weighted} (h : xs.Pairwise (comesBefore · ·)) : sortAlphabet xs = xs := by
  induction xs with
  | nil => rfl
  | cons x xs ih =>
    obtain ⟨hx, hxs⟩ := List.pairwise_cons.mp h
    rw [sortAlphabet, ih hxs]
    cases xs with
    | nil => rfl
    | cons y ys => rw [insertSorted, if_pos (hx y (List.mem_cons_self ..))]

/-- The entries of a header: one for each weighted symbol, in order, where every weight has a 4-byte form. -/
theorem headerEntries_of_lt {xs : List Weighted} (h : ∀ x ∈ xs, x.weight < 2 ^ 32) :
    headerEntries xs = some (xs.map (fun x => { sym := x.sym, freq := BitVec.ofNat 32 x.weight })) := by
  induction xs with
  | nil => rfl
  | cons x xs ih =>
    rw [headerEntries, ih (fun y hy => h y (List.mem_cons_of_mem _ hy)), headerEntry,
      if_pos (h x (List.mem_cons_self ..))]
    rfl

/-- What a validated alphabet is: every pair accepted, none missing, no symbol twice (R160). -/
theorem validate_done {alphabet : List (Byte × Weight)} {ps : List Weighted} (h : validate alphabet = .done ps) :
    acceptedPairs alphabet = some ps ∧ ps ≠ [] ∧ (ps.map Weighted.sym).Nodup := by
  unfold validate at h
  cases hq : acceptedPairs alphabet with
  | none => rw [hq] at h; cases h
  | some qs =>
    rw [hq] at h
    cases qs with
    | nil => cases h
    | cons q qs =>
      simp only at h
      split at h
      · next hd =>
        cases h
        exact ⟨rfl, List.cons_ne_nil _ _, hd⟩
      · cases h

/-- A codeword's text reads back as its bits (R132). -/
theorem codewordOfText_codewordText (bits : List Bool) : codewordOfText (codewordText bits) = some bits := by
  induction bits with
  | nil => rfl
  | cons b bs ih =>
    rw [codewordText, List.map_cons, codewordOfText, ← codewordText, ih]
    cases b <;> rfl

/-- A codeword's text holds only `0` and `1`. -/
theorem mem_codewordText {c : Char} {bits : List Bool} (h : c ∈ codewordText bits) : c = '0' ∨ c = '1' := by
  obtain ⟨b, -, rfl⟩ := List.mem_map.mp h
  cases b <;> simp

/-- Text without a newline, then a newline: that is the first line. -/
theorem endedLines_line {l : List Char} (h : '\n' ∉ l) (reversed cs : List Char) :
    endedLines reversed (l ++ '\n' :: cs) =
      (endedLines [] cs).map (fun ls => (reversed.reverse ++ l) :: ls) := by
  induction l generalizing reversed with
  | nil =>
    rw [List.nil_append, endedLines, if_pos rfl]
    cases endedLines [] cs <;> simp
  | cons c l ih =>
    rw [List.mem_cons, not_or] at h
    rw [List.cons_append, endedLines, if_neg (Ne.symm h.1), ih h.2]
    simp

/-- The fields of a line whose second one holds no `;`. -/
theorem fieldsOf_line {w : List Char} (h : ';' ∉ w) (f : List Char) : fieldsOf (f ++ ';' :: w) = some (f, w) := by
  have hw : fieldsOf w = none := by
    induction w with
    | nil => rfl
    | cons c w ih =>
      rw [List.mem_cons, not_or] at h
      rw [fieldsOf, ih h.2]
      exact if_neg (Ne.symm h.1)
  induction f with
  | nil => rw [List.nil_append, fieldsOf, hw]; exact if_pos rfl
  | cons c f ih => rw [List.cons_append, fieldsOf, ih]

/-- A written codebook reads back line by line, in a spelling that reads back and holds no newline (R132, R178). -/
theorem readCodebook_writeCodebook {spell : Byte → List Char} {readSymbol : List Char → Option Byte}
    (hread : ∀ s, readSymbol (spell s) = some s) (hline : ∀ s, '\n' ∉ spell s) (codes : List (Byte × List Bool)) :
    readCodebook readSymbol (writeCodebook spell codes) =
      .done (codes.map (fun c => { sym := c.1, codeword := codewordText c.2 })) := by
  have hl : endedLines [] (writeCodebook spell codes) =
      some (codes.map (fun c => spell c.1 ++ ';' :: codewordText c.2)) := by
    induction codes with
    | nil => rfl
    | cons c cs ih =>
      have hn : '\n' ∉ spell c.1 ++ ';' :: codewordText c.2 := by
        rw [List.mem_append, List.mem_cons, not_or, not_or]
        exact ⟨hline _, by decide, fun hm => by rcases mem_codewordText hm with h | h <;> exact absurd h (by decide)⟩
      have := endedLines_line hn [] (writeCodebook spell cs)
      rw [ih] at this
      simpa [writeCodebook] using this
  have hr : readLines readSymbol (codes.map (fun c => spell c.1 ++ ';' :: codewordText c.2)) =
      some (codes.map (fun c => { sym := c.1, codeword := codewordText c.2 })) := by
    clear hl
    induction codes with
    | nil => rfl
    | cons c cs ih =>
      have hs : ';' ∉ codewordText c.2 :=
        fun hm => by rcases mem_codewordText hm with h | h <;> exact absurd h (by decide)
      rw [List.map_cons, readLines, ih, readLine, fieldsOf_line hs]
      simp [hread]
  rw [readCodebook, hl]
  simp [hr]

/-- How many words a trie's nodes take. -/
theorem Trie.nodesFrom_length (empty i : Nat) (t : Trie) : (t.nodesFrom empty i).length = t.size := by
  induction t generalizing i with
  | vacant => rfl
  | leaf s => rfl
  | branch l r ihl ihr =>
    simp only [Trie.nodesFrom, Trie.size, List.length_cons, List.length_append, ihl, ihr]
    omega

/-- A trie's arena has as many words as `Trie.words` counts. -/
theorem Trie.arena_length (t : Trie) : t.arena.length = t.words := by
  unfold Trie.arena Trie.words
  rw [List.length_append, Trie.nodesFrom_length]
  split <;> rfl

/-- The indices of a trie's nodes, in the order of its arena. -/
theorem Trie.nodesFrom_indices (empty i : Nat) (t : Trie) :
    (t.nodesFrom empty i).map Prod.fst = (List.range' i t.size).map (BitVec.ofNat 9) := by
  induction t generalizing i with
  | vacant => rfl
  | leaf s => rfl
  | branch l r ihl ihr =>
    have : List.range' i (1 + l.size + r.size) =
        i :: (List.range' (i + 1) l.size ++ List.range' (i + 1 + l.size) r.size) := by
      rw [List.range'_append_1, show 1 + l.size + r.size = (l.size + r.size) + 1 by omega, List.range'_succ]
    simp only [Trie.nodesFrom, Trie.size, List.map_cons, List.map_append, ihl, ihr, this]

/-- A trie that fits stands at distinct indices, so no node overwrites another (R170). -/
theorem Trie.arena_indices_nodup {t : Trie} (h : t.words ≤ Config.nodeEntries) : (t.arena.map Prod.fst).Nodup := by
  have key : t.arena.map Prod.fst = (List.range' 0 t.words).map (BitVec.ofNat 9) := by
    unfold Trie.arena Trie.words
    rw [List.map_append, Trie.nodesFrom_indices]
    split <;> simp [List.range'_concat]
  rw [key]
  refine List.Nodup.map_on (fun x hx y hy hxy => ?_) (List.nodup_range' ..)
  have hx := List.mem_range'_1.mp hx
  have hy := List.mem_range'_1.mp hy
  have := congrArg BitVec.toNat hxy
  simp only [BitVec.toNat_ofNat] at this
  simp only [Config.nodeEntries] at h
  omega

/-- CONFIG gives the host the build's parameters (R34). -/
theorem paramsOfConfig_configWord (p : Params) : paramsOfConfig (configWord p) = p := by
  cases p with
  | mk lmax outDepth =>
    simp only [paramsOfConfig, configWord, Params.mk.injEq]
    constructor <;> apply BitVec.eq_of_getLsbD_eq <;> intro i hi
    · rw [BitVec.getLsbD_extractLsb', BitVec.getLsbD_append]
      simp [hi]
    · rw [BitVec.getLsbD_extractLsb', BitVec.getLsbD_append, BitVec.getLsbD_append]
      simp [hi]

/-- The identity check: it answers CONFIG's parameters exactly where the last ID read is ID_VALUE (R404 step 2). -/
theorem identify_done {heard : List Reply} {p : Params} (h : identify heard = .done p) :
    lastHeard 0x000 heard = some Config.idValue ∧
      ∃ config, lastHeard 0x004 heard = some config ∧ p = paramsOfConfig config := by
  unfold identify at h
  split at h
  · next ident config hi hc =>
    split at h
    · next he =>
      cases h
      exact ⟨he ▸ hi, config, hc, rfl⟩
    · cases h
  · cases h

/-- A boot's tree has every codeword within LMAX (R404 step 3). -/
theorem bootTree_done {p : Params} {alphabet : List (Byte × Weight)} {t : Tree} (h : bootTree p alphabet = .done t) :
    treeOf alphabet = .done t ∧ codesFit p (codewords t) = true := by
  unfold bootTree at h
  split at h
  · cases h
  · next u hu =>
    split at h
    · next hf =>
      cases h
      exact ⟨hu, hf⟩
    · cases h

end Sys2Proof.Machine.Offline
end

