-- ==== Sys2Proof/Laws/PerInstr.lean ====
section
/-! SUPPORT. A law of every instruction as syntax, one lemma per constructor. -/

namespace Sys2Proof.Laws.Encodes

open Sys2Proof

/-- A command's word carries its opcode in bits 7:0, is `OP + 256 · operand` as a number, and its operand fits the field
its format gives it (R121, R122, R123). -/
def Statement (i : Instr) : Prop :=
  opcodeField (encode i) = i.opcode ∧ (encode i).toNat = i.opcode.toNat + 256 * i.operand ∧
    i.operand < 2 ^ i.format.operandBits

theorem encOpen : Statement .encOpen := by unfold Statement; decide

theorem encSym (s : Byte) : Statement (.encSym s) := by
  refine ⟨?_, ?_, s.isLt⟩ <;> revert s <;> decide +kernel

theorem encBit (b : Bool) : Statement (.encBit b) := by unfold Statement; cases b <;> decide

theorem encFinish : Statement .encFinish := by unfold Statement; decide

theorem decOpen : Statement .decOpen := by unfold Statement; decide

theorem decByte (v : Byte) : Statement (.decByte v) := by
  refine ⟨?_, ?_, v.isLt⟩ <;> revert v <;> decide +kernel

theorem decEnd : Statement .decEnd := by unfold Statement; decide

theorem clear : Statement .clear := by unfold Statement; decide

end Sys2Proof.Laws.Encodes
end

