-- ==== Sys2Proof/Laws/Procedures.lean ====
section
/-! SUPPORT. What one step of a host and its block can be. -/

namespace Sys2Proof.Machine

open Sys2Proof

/-- A step is the block's, or, with the stage's accesses done and BUSY = 0, the host's choice of its next stage. -/
theorem hostStep_cases {h k : HostRun} (hk : hostStep h = .next k) :
    (h.block.script = [] ∧ h.block.busy = false ∧
        k = { h with
          stage := (nextStage h.purpose h.stage h.block.heard).1
          block := { h.block with script := (nextStage h.purpose h.stage h.block.heard).2 } }) ∨
      (¬(h.block.script = [] ∧ h.block.busy = false) ∧ ∃ t, step h.block = .next t ∧ k = { h with block := t }) := by
  unfold hostStep at hk
  split at hk
  · next hd => exact .inl ⟨hd.1, hd.2, by simpa using hk.symm⟩
  · next hd =>
    refine .inr ⟨hd, ?_⟩
    split at hk
    · next t ht => exact ⟨t, ht, by simpa using hk.symm⟩
    · cases hk
    · cases hk

/-- A procedure ends passed only from its check, with MODE = IDLE, ERROR = 0, OVERRUN = 0 and LOCKVIO = 0 as the last reads
showed them (R339, R340, R342, R407). -/
theorem nextStage_passed {p : Purpose} {stage : Stage} {heard : List Reply}
    (h : (nextStage p stage heard).1 = .finished true) :
    stage = .finished true ∨ (stage = .check ∧ checkPassed heard = true ∧ flagsClear heard = true) := by
  cases stage with
  | begin cs => cases cs <;> cases h
  | after cs =>
    unfold nextStage at h
    simp only at h
    split at h
    · cases p <;> cases h
    · cases cs <;> cases h
  | check => exact .inr ⟨rfl, by simpa [nextStage, streamPassed] using h⟩
  | recover => cases h
  | finished b => exact .inl h

end Sys2Proof.Machine
end

