-- ==== Sys2Proof/Laws/Run.lean ====
section
/-! SUPPORT. Runs of the machine, one step at a time. -/

namespace Sys2Proof.Machine

open Sys2Proof

/-- A run whose first step answers a next state goes on from it. -/
theorem runSteps_succ {s t : State} (n : Nat) (h : step s = .next t) :
    Safety.runSteps (n + 1) s = Safety.runSteps n t := by
  rw [Safety.runSteps, h]

/-- It is the engine's turn exactly when a command is latched and the schedule, or an empty script, lets it come. -/
theorem engineTurn_iff (s : State) : engineTurn s = true ↔ s.busy = true ∧ (s.delay = 0 ∨ s.script = []) := by
  unfold engineTurn
  simp

end Sys2Proof.Machine
end

