-- ==== Sys2Proof/Laws/Stream.lean ====
section
/-! SUPPORT. The BitWriter's operations as operations on the stream of bits: one law each for `write_bit`, a codeword and
the final byte. -/

namespace Sys2Proof.Machine

open Sys2Proof Sys2Proof.Safety

/-- How many bits `bitsBelow` lists. -/
@[simp] theorem length_bitsBelow {w : Nat} (x : BitVec w) (n : Nat) : (bitsBelow x n).length = n := by
  induction n with
  | zero => rfl
  | succ n ih => simp [bitsBelow, ih]

/-- A bit shifted into the pending byte stands after the pending bits (R200). -/
theorem bitsBelow_shiftIn (x : Byte) (b : Bool) (n : Nat) (h : n ≤ 7) :
    bitsBelow ((x <<< 1) ||| (BitVec.ofBool b).setWidth 8) (n + 1) = bitsBelow x n ++ [b] := by
  have key : ∀ i, i < 8 →
      ((x <<< 1) ||| (BitVec.ofBool b).setWidth 8).getLsbD i = if i = 0 then b else x.getLsbD (i - 1) := by
    intro i hi
    cases i with
    | zero => cases b <;> simp
    | succ i =>
      cases b <;> simp [hi] <;>
        exact (BitVec.getLsbD_eq_getElem (by omega)).symm
  induction n with
  | zero => simp [bitsBelow]
  | succ n ih =>
    rw [bitsBelow, ih (by omega), key _ (by omega)]
    simp [bitsBelow]

/-- `write_bit` appends its bit to the stream and does nothing else to it (R200, R201). -/
theorem writtenBits_writeBit (b : Bool) (s : State) (h : s.wcnt.toNat ≤ 7) :
    writtenBits (writeBit b s) = writtenBits s ++ [b] := by
  have h8 : s.wcnt + 1 = 8 ↔ s.wcnt.toNat = 7 := by
    rw [← BitVec.toNat_inj]; simp; omega
  unfold writeBit writtenBits
  split
  · next hw =>
    have := h8.mp hw
    simp only [push_out, List.flatMap_append, List.flatMap_cons, List.flatMap_nil, List.append_nil, this]
    show _ ++ byteBits _ ++ bitsBelow (0#8) (0#4).toNat = _
    rw [byteBits, bitsBelow_shiftIn _ _ 7 (by omega)]
    simp [bitsBelow]
  · next hw =>
    have hne : s.wcnt.toNat ≠ 7 := fun e => hw (h8.mpr e)
    have hadd : (s.wcnt + 1).toNat = s.wcnt.toNat + 1 := by rw [BitVec.toNat_add]; simp; omega
    simp only [hadd]
    rw [bitsBelow_shiftIn _ _ _ (by omega)]
    simp

/-- The n low bits of a codeword written most significant first are appended in that order (R261). -/
theorem writtenBits_writeCode (c : CodeValue) (n : Nat) (s : State) (h : s.wcnt.toNat ≤ 7) :
    writtenBits (writeCode c n s) = writtenBits s ++ bitsBelow c n := by
  induction n generalizing s with
  | zero => simp [writeCode, bitsBelow]
  | succ n ih =>
    have hw := (writeBit_count (c.getLsbD n) s h).1
    rw [writeCode, ih _ (by omega), writtenBits_writeBit _ _ h, bitsBelow]
    simp

/-- The byte `finish()` pushes: the pending bits, the marker 1, zeros (R202). -/
theorem byteBits_finalByte : ∀ (w : Byte) (n : BitVec 4), n.toNat ≤ 7 → n ≠ 0 →
    byteBits (finalByte w n) = bitsBelow w n.toNat ++ true :: List.replicate (7 - n.toNat) false := by
  decide +kernel

end Sys2Proof.Machine
end

