-- ==== Sys2Proof/Tests/Slice0.lean ====
section
/-! SUPPORT. The model's own tests: ill-formed lines, words written out bit by bit, at most two small theorems per
command with results from spec/95_test_vectors.md, and a witness for the hypotheses of every statement that has some. -/

namespace Sys2Proof.Tests

open Sys2Proof Sys2Proof.Machine Sys2Proof.Machine.Offline Sys2Proof.Safety

set_option Elab.async false

/-! ## Small states -/

/-- The reset state in another mode. -/
def inMode (m : Mode) : State := { State.reset with mode := m }

/-- A word latched, the engine's turn next. -/
def latched (m : Mode) (w : Word) : State := { inMode m with pending := w, busy := true }

/-- A word latched, a host access first. -/
def waiting (m : Mode) (op : HostOp) : State := { latched m 1 with delay := 1, script := [op] }

/-- BUSY = 0 and one host access to come. -/
def hostNext (m : Mode) (op : HostOp) : State := { inMode m with script := [op] }

/-- The node words of vector T1 (95_test_vectors.md section 2). -/
def treeT1 : List (NodeIndex × Word) :=
  [(0, 0x40000064), (1, 0x40000063), (2, 0x40000062), (3, 0x40000061), (4, 0x80010000), (5, 0x80040002), (6, 0x80050003)]

/-- The code table of vector T1. -/
def tableT1 : List (Byte × CtEntry) :=
  [(0x61, { valid := true, len := 1, code := 0 }), (0x62, { valid := true, len := 2, code := 2 }),
   (0x63, { valid := true, len := 3, code := 7 }), (0x64, { valid := true, len := 3, code := 6 })]

/-- The launch state of vector T1 with SYMCOUNT = 4. -/
def t1 : State :=
  launch Params.reference { nodes := treeT1, entries := tableT1, root := 6, symcount := 4 } [] []

/-- T1, an encode stream open, `cnt` bits of `buf` pending. -/
def t1Enc (buf : Byte) (cnt : BitVec 4) : State := { t1 with mode := .enc, wbuf := buf, wcnt := cnt }

/-- T1, a decode stream open. -/
def t1Dec : State := { t1 with mode := .dec, rroot := 6, cur := 6, target := 4 }

/-- T1, after DEC_BYTE 0x5F: three symbols out, the cursor at node 4. -/
def t1Mid : State := { t1Dec with cur := 4, depth := 2, syms := 3, bits := 8 }

/-- A decode stream over another tree. -/
def decOver (nodes : List (NodeIndex × Word)) (count : Count) : State :=
  { launch Params.reference { nodes := nodes, entries := [], root := 0, symcount := count } [] [] with
    mode := .dec
    target := count }

/-- The leaf-root tree of vector T2. -/
def t2Dec : State := decOver [(0, 0x40000078)] 4

/-- A field of the state a command answers. -/
def after {α : Type} (r : Host.Outcome State Fault Refusal) (field : State → α) : Option α :=
  match r with
  | .next t => some (field t)
  | .fault _ => none
  | .refused _ => none

/-- OUT, STATUS and ERROR after a command. -/
def seen (r : Host.Outcome State Fault Refusal) : Option (List Byte × Word × Word) :=
  after r (fun t => (t.out, statusWord t, errorWord t.error))

/-! ## Ill-formed lines are refused (30_encoding.md R133) -/

/-- A line with one number. -/
def line (m : String) (n : Nat) : SourceLine := { mnemonic := m, operands := [.number n] }

theorem test_line_unknown_mnemonic :
    ({ mnemonic := "ENC_NOP", operands := [] } : SourceLine).assemble = .refusedLine .unknownMnemonic := by decide

theorem test_line_operand_out_of_range :
    (line "ENC_SYM" 256).assemble = .refusedLine .operandOutOfRange ∧
    (line "ENC_BIT" 2).assemble = .refusedLine .operandOutOfRange ∧
    (line ".word" 0x100000000).assemble = .refusedLine .operandOutOfRange := by decide

theorem test_line_operand_on_f0 : (line "CLEAR" 0).assemble = .refusedLine .operandOnF0 := by decide

theorem test_line_operand_count :
    ({ mnemonic := "DEC_BYTE", operands := [] } : SourceLine).assemble = .refusedLine .operandCount ∧
    (line "WR" 8).assemble = .refusedLine .operandCount := by decide

theorem test_line_operand_kind :
    ({ mnemonic := "DEC_BYTE", operands := [.character 'a'] } : SourceLine).assemble = .refusedLine .operandKind := by decide

theorem test_line_well_formed :
    (line "DEC_BYTE" 255).assemble = .accepted (.command (.decByte 0xFF)) ∧
    ({ mnemonic := "ENC_SYM", operands := [.character 'a'] } : SourceLine).assemble =
      .accepted (.command (.encSym 0x61)) ∧
    ({ mnemonic := "WR", operands := [.number 0x18, .number 6] } : SourceLine).assemble = .accepted (.write 0x18 6) ∧
    (line "RD" 0x0C).assemble = .accepted (.read 0x0C) ∧ (line ".word" 0x10001).assemble = .accepted (.raw 0x10001) ∧
    (line "ENC_BIT" 1).wellFormed = true ∧ (line "ENC_BIT" 2).wellFormed = false := by decide

/-- Hexadecimal with `_` between digits only, and decimal (R12). -/
theorem test_numbers :
    readNumber "0x4000_0061".toList = some 0x40000061 ∧ readNumber "255".toList = some 255 ∧
    readNumber "_".toList = none ∧ readNumber "0x_".toList = none ∧ readNumber "0x1_".toList = none ∧
    readNumber "0x".toList = none ∧ readNumber "1_0".toList = none := by decide +kernel

/-- Lines of the programs of 95_test_vectors.md section 6, comments among them. -/
theorem test_program_text :
    assembleProgram
      ("NODE 4, INT 0, 1       ; WR 0x0810, 0x8001_0000\nWR 0x018, 6            ; ROOT\n\nDEC_BYTE! 0x5F\n" ++
        "ENC_SYM ';'\nDRAIN\nCODE 'b', \"10\"\n.word 0x0001_0001").toList =
      .accepted
        ([wr 0x810 0x80010000, wr 0x018 6, wr 0x008 0x00005F12, .wait, wr 0x008 0x00003B02, .drain] ++
          codeEntry 0x62 [true, false] ++ [wr 0x008 0x00010001]) ∧
    assembleProgram "DRAIN\nENC_NOP".toList = .refusedLine .unknownMnemonic := by decide +kernel

/-! ## Words written out from the encodings of R121 and R122: reserved zeros, operand, opcode -/

theorem test_decode_encOpen :
    decode 0b0000_0000_0000_0000_0000_0000_0000_0001 = .command .encOpen := by decide

theorem test_decode_encSym :
    decode 0b0000_0000_0000_0000_1000_0001_0000_0010 = .command (.encSym 0x81) := by decide

theorem test_decode_encBit :
    decode 0b0000_0000_0000_0000_0000_0001_0000_0011 = .command (.encBit true) ∧
    decode 0b0000_0000_0000_0000_0000_0000_0000_0011 = .command (.encBit false) := by decide

theorem test_decode_encFinish :
    decode 0b0000_0000_0000_0000_0000_0000_0000_0100 = .command .encFinish := by decide

theorem test_decode_decOpen :
    decode 0b0000_0000_0000_0000_0000_0000_0001_0001 = .command .decOpen := by decide

theorem test_decode_decByte :
    decode 0b0000_0000_0000_0000_1000_0000_0001_0010 = .command (.decByte 0x80) := by decide

theorem test_decode_decEnd :
    decode 0b0000_0000_0000_0000_0000_0000_0001_0011 = .command .decEnd := by decide

theorem test_decode_clear :
    decode 0b0000_0000_0000_0000_0000_0000_0010_0000 = .command .clear := by decide

/-- R124's reserved encodings: an opcode not listed, and one bit too many in each format. -/
theorem test_decode_illegal :
    decode 0x00000005 = .illegal (.unknownOpcode 0x05) ∧
    decode 0x80000020 = .illegal (.reservedBits 0x20) ∧
    decode 0x00010002 = .illegal (.reservedBits 0x02) ∧
    decode 0x00000203 = .illegal (.reservedBits 0x03) := by decide

/-- The node word examples of R126 and the T1 words of 95_test_vectors.md. -/
theorem test_node_words :
    leafWord 0x61 = 0x40000061 ∧ internalWord 3 5 = 0x80050003 ∧
    nodeOfWord 0x80050003 = .internal 3 5 ∧ nodeOfWord 0x40000061 = .leaf 0x61 ∧
    nodeOfWord 0x3FFFFFFF = .empty ∧ nodeOfWord 0xC0000000 = .rsvd := by decide

/-- ID and CONFIG of the reference build (95_test_vectors.md section 6). -/
theorem test_constants :
    (busRead 0x000 State.reset).value = 0x48554646 ∧ (busRead 0x004 State.reset).value = 0x000940FF := by decide

/-! ## The commands (95_test_vectors.md sections 3 to 5) -/

theorem test_encOpen_from_reset :
    exec .encOpen State.reset = .next { State.reset with mode := .enc } := by rfl

theorem test_encOpen_out_not_empty :
    seen (exec .encOpen { State.reset with out := [0x55] }) = some ([0x55], 0x00010043, 0x00010405) := by decide

theorem test_encSym_completes_a_byte :
    seen (exec (.encSym 0x63) (t1Enc 0b010 3)) = some ([], 0x00000601, 0) ∧
    seen (exec (.encSym 0x64) (t1Enc 0b010111 6)) = some ([0x5F], 0x00010141, 0) := by decide +kernel

theorem test_encSym_not_in_table :
    seen (exec (.encSym 0x71) (t1Enc 0b010 3)) = some ([0x50], 0x00010043, 0x00710102) := by decide +kernel

theorem test_encBit_pushes :
    seen (exec (.encBit false) (t1Enc 0x7F 7)) = some ([0xFE], 0x00010041, 0) := by decide +kernel

theorem test_encBit_out_overflow :
    after (exec (.encBit false) { t1Enc 0x7F 7 with out := List.replicate 63 0 }) (fun t => errorWord t.error) =
      some 0x00030305 := by decide +kernel

theorem test_encFinish_marks :
    seen (exec .encFinish (t1Enc 0 1)) = some ([0x40], 0x00010040, 0) ∧
    seen (exec .encFinish (t1Enc 0x7F 7)) = some ([0xFF], 0x00010040, 0) := by decide +kernel

theorem test_encFinish_empty :
    seen (exec .encFinish (t1Enc 0 0)) = some ([], 0, 0) := by decide +kernel

theorem test_decOpen_latches :
    after (exec .decOpen t1) (fun t => (statusWord t, cursorWord t, t.target)) =
      some (0x00000002, 0x00000006, 4) := by decide +kernel

theorem test_decOpen_out_not_empty :
    seen (exec .decOpen { t1 with out := [0x55] }) = some ([0x55], 0x00010043, 0x00110405) := by decide +kernel

theorem test_decByte_walks :
    seen (exec (.decByte 0x5F) t1Dec) = some ([0x61, 0x62, 0x63], 0x00030042, 0) ∧
    seen (exec (.decByte 0x40) t1Mid) = some ([0x64], 0x0001004A, 0) := by decide +kernel

theorem test_decByte_errors :
    seen (exec (.decByte 0x60) t1Mid) = some ([0x64], 0x00010043, 0x05600203) ∧
    seen (exec (.decByte 0x28) t2Dec) = some ([0x78, 0x78], 0x00020043, 0x05280503) ∧
    seen (exec (.decByte 0x80) (decOver [(0, 0x80010001)] 1)) = some ([], 0x00000003, 0x07800403) := by decide +kernel

theorem test_decEnd_closes :
    exec .decEnd { inMode .dec with syms := 3, target := 3 } = .next { State.reset with syms := 3, target := 3 } := by
  rfl

theorem test_decEnd_premature :
    seen (exec .decEnd { inMode .dec with syms := 3, target := 4 }) = some ([], 0x00000003, 0x00000103) := by decide

theorem test_clear_in_error :
    exec .clear { inMode .error with error := errorRecord .notInTable 0x71 0, overrun := true } =
      .next State.reset := by rfl

theorem test_clear_in_enc :
    seen (exec .clear (t1Enc 0 1)) = some ([0x40], 0x00010043, 0x00200205) := by decide +kernel

/-! ## The step, the bus and the runs -/

/-- The first command after reset, as the host fetches it. -/
theorem test_step_fetches :
    step (State.reset.withFetchWord 32 0x00000001) = .next { State.reset with mode := .enc, pending := 1 } := by rfl

/-- A raw word that is no command, from reset (95_test_vectors.md section 5). -/
theorem test_step_illegal :
    seen (step (latched .idle 0x00010001)) = some ([], 0x00000003, 0x00010105) := by decide

/-- Nothing latched and nothing to do: the block waits (R343). -/
theorem test_step_waits : step State.reset = .next State.reset := by rfl

/-- A reset input discards a latched command (R400). -/
theorem test_reset_discards :
    step (waiting .enc .reset) = .next State.reset := by rfl

/-- `ENC_SYM 'b'` as a host issues it: the CMD write latches, the engine step follows (95_test_vectors.md section 3). -/
theorem test_run_issue :
    after (runSteps 2 { t1Enc 0 0 with script := [issue (.encSym 0x62)] })
      (fun t => (statusWord t, bitbufWord t, t.syms, t.bits)) = some (0x00000201, 0x00000202, 1, 2) := by decide +kernel

/-- The tree and codewords of scenario 1 (95_test_vectors.md vector T1). -/
theorem test_tree_T1 :
    (match treeOf [(0x61, .finite 4), (0x62, .finite 3), (0x63, .finite 2), (0x64, .finite 1)] with
      | .done t =>
        decide (t.index = 6) && (codewords t).contains (0x61, [false]) &&
          (codewords t).contains (0x62, [true, false]) && (codewords t).contains (0x63, [true, true, true]) &&
          (codewords t).contains (0x64, [true, true, false]) && treeT1.all (fun n => (arena t).contains n)
      | .failed _ => false) = true := by decide +kernel

/-- The host's refusals of an alphabet (R160). -/
theorem test_alphabet_refused :
    treeOf [] = .failed .invalidInput ∧
    treeOf [(0x61, .finite (-1))] = .failed .invalidInput ∧
    treeOf [(0x61, .notFinite)] = .failed .invalidInput ∧
    treeOf [(0x61, .finite 1), (0x61, .finite 2)] = .failed .invalidInput := by decide +kernel

/-- The header of scenario 1 is in the tree builder's order, d c b a, with little-endian frequencies (R161, R174). -/
theorem test_file_T1 :
    writeFile [(0x61, .finite 4), (0x62, .finite 3), (0x63, .finite 2), (0x64, .finite 1)] [0x5F] =
      .done [4, 0, 0, 0, 0x64, 1, 0, 0, 0, 0x63, 2, 0, 0, 0, 0x62, 3, 0, 0, 0, 0x61, 4, 0, 0, 0, 0x5F] ∧
    writeFile [(0x61, .finite 4294967296)] [] = .failed .frequencyTooLarge ∧
    openFile [2, 0, 0, 0, 0x61] = .failed .corruptStream := by decide +kernel

/-- A codebook's trie: `0` a left edge, `1` a right edge, the missing codeword's place an EMPTY word (R178); codewords that
are no prefix code and an empty one are refused, and by an encoder one longer than LMAX. -/
theorem test_codebook :
    decoderOfCodebook [⟨0x62, ['1', '0']⟩, ⟨0x61, ['0']⟩] 3 =
      .done
        [wr 0x800 0x80020001, wr 0x804 0x40000061, wr 0x808 0x80040003, wr 0x80C 0x40000062, wr 0x810 0, wr 0x018 0,
          wr 0x020 3, wr 0x024 0] ∧
    decoderOfCodebook [⟨0x61, ['0']⟩, ⟨0x62, ['0', '1']⟩] 3 = .failed .badCodebook ∧
    decoderOfCodebook [⟨0x61, []⟩] 3 = .failed .badCodebook ∧
    encoderOfCodebook { lmax := 1, outDepth := 33 } [⟨0x62, ['1', '0']⟩] = .failed .unsupportedAlphabetSize := by
  decide +kernel

/-- A spelling of symbols for the tests: one raw ASCII character. -/
def rawSymbol : List Char → Option Byte
  | [c] => if c.toNat < 128 then some (BitVec.ofNat 8 c.toNat) else none
  | _ => none

/-- The text of a codebook, `symbol;codeword` lines, one symbol being `;` itself; a line not ended is refused (R132). -/
theorem test_codebook_text :
    readCodebook rawSymbol "a;0\n;;10\n".toList = .done [⟨0x61, ['0']⟩, ⟨0x3B, ['1', '0']⟩] ∧
    readCodebook rawSymbol "a;0".toList = .failed .badCodebook ∧
    readCodebook rawSymbol "a\n".toList = .failed .badCodebook ∧
    writeCodebook (fun s => [Char.ofNat s.toNat]) [(0x61, [false]), (0x62, [true, false])] = "a;0\nb;10\n".toList := by
  decide +kernel

/-- A host replacing an entry makes it invalid first and valid last (R335). -/
theorem test_replace_entry :
    (loadEncoder [(0x61, [true])]).take 3 = [wr 0x5840 0, wr 0x5844 1, wr 0x5848 0] ∧
    (loadEncoder [(0x61, [true])]).drop 9 = wr 0x5840 0x00010001 :: (allSymbols.filter (fun s => s ≠ 0x61)).map noCode := by
  decide +kernel

/-- The codewords 0^255 and 10^254 take all 512 words of NODE RAM; one bit more does not fit (R170, R178). -/
theorem test_codebook_room :
    (trieOf [(0x61, List.replicate 255 false), (0x62, true :: List.replicate 254 false)]).map Trie.words = some 512 ∧
    (match trieOf [(0x61, List.replicate 255 false), (0x62, true :: List.replicate 255 false)] with
      | some t => decide (loadTrie t 0 = .failed .arenaTooLarge)
      | none => false) = true := by decide +kernel

/-- A field of a host's run. -/
def afterRun {α : Type} (r : Host.Outcome HostRun Fault Refusal) (field : HostRun → α) : Option α :=
  match r with
  | .next h => some (field h)
  | .fault _ => none
  | .refused _ => none

/-- An encode run that meets an unknown symbol recovers: OUT popped, ERROR read, CLEAR (R339). -/
theorem test_encode_recovers :
    afterRun (hostSteps 16 (startEncode [0x71, 0x61] t1))
      (fun h => (h.stage, h.block.mode, h.block.syms, lastHeard 0x010 h.block.heard)) =
      some (.finished false, .idle, 0, some 0x00710102) := by decide +kernel

/-- An encode run of "a" passes its check, and keeps the stream's one byte (R339; 95_test_vectors.md section 3). -/
theorem test_encode_passes :
    afterRun (hostSteps 20 (startEncode [0x61] t1)) (fun h => (h.stage, keptSince 0 h)) = some (.finished true, [0x40]) := by
  decide +kernel

/-- An encode run that finds OVERRUN set at its end fails (R407). -/
theorem test_encode_overrun :
    afterRun (hostSteps 20 (startEncode [0x61] { t1 with overrun := true })) (fun h => (h.stage, h.block.mode)) =
      some (.finished false, .idle) := by decide +kernel

/-- A decode run stops feeding at the first error, and its check does not pass (R340). -/
theorem test_decode_stops_feeding :
    afterRun (hostSteps 16 (startDecode (setCount 1) [0x11, 0x22] State.reset))
      (fun h => (h.stage, h.block.mode, h.block.pending, lastHeard 0x010 h.block.heard)) =
      some (.finished false, .error, 0x00001112, some 0x07110403) := by decide +kernel

/-- A boot from reset: what the host hears passes the identity check, and gives CONFIG's parameters (R404 step 2). -/
theorem test_boot :
    after (runSteps 3 { State.reset with script := bootProcedure .reset }) (fun t => identify t.heard) =
      some (.done { lmax := 255, outDepth := 64 }) ∧
    bootProcedure .clear = [.drain, wr 0x008 0x00000020, .wait, rd 0x000, rd 0x004] ∧
    identify [{ addr := 0x000, value := 0x48554647 }, { addr := 0x004, value := 0x000940FF }] = .failed .wrongIdentity := by
  decide +kernel

/-- A boot refuses a tree with a codeword longer than CONFIG's LMAX, before any load (R404 step 3). -/
theorem test_boot_checks_lmax :
    bootLoads [{ addr := 0x000, value := 0x48554646 }, { addr := 0x004, value := 0x00092101 }]
      [(0x61, .finite 1), (0x62, .finite 1), (0x63, .finite 1)] 3 = .failed .unsupportedAlphabetSize := by decide +kernel

/-! ## Witnesses: hypotheses of the statements are met, each clause at the edge of its range -/

/-- DecodeExactlyInvertsEncode, DecoderAgreesWithOpcodeMap: a word that is a command and selects a row. -/
theorem witness_opcode_map :
    decode 0x0000FF02 = .command (.encSym 0xFF) ∧
    ∃ r ∈ opcodeMap, r.opcode = 0x02 ∧ (0x0000FF02 : Word) &&& r.mask = r.pattern := by decide

/-- StepRunsTheDecodedCommand, EngineStepAlwaysCompletes: both forms of the engine's turn. -/
theorem witness_engine_turn :
    ((latched .enc 0x00000103).busy = true ∧ (latched .enc 0x00000103).delay = 0 ∧
      decode (latched .enc 0x00000103).pending = .command (.encBit true)) ∧
    (let s := { latched .enc 0x00000103 with delay := 5 }
     s.busy = true ∧ s.delay ≠ 0 ∧ s.script = []) := by decide

/-- BusyEndsWithinItsDelay: admitted accesses at the edges of the window. -/
theorem witness_admitted :
    let s := { latched .enc 1 with delay := 2, script := [.read 0x7FFC 4, .write 0x0000 4 7, .wait, .drain, .reset] }
    s.busy = true ∧ ∀ op ∈ s.script, admitted op := by
  simp [latched, inMode, State.reset, State.resetWith, admitted, Config.windowBytes]

/-- ErrorModeDropsAllButClear: words next to CLEAR's. -/
theorem witness_error_mode :
    ∀ w ∈ ([0x00000120, 0x00000021, 0x80000020, 0x00000001] : List Word),
      (latched .error w).busy = true ∧ (latched .error w).delay = 0 ∧ (latched .error w).mode = .error ∧
        (latched .error w).pending ≠ 0x00000020 := by
  intro w hw
  simp only [List.mem_cons, List.not_mem_nil, or_false] at hw
  rcases hw with rfl | rfl | rfl | rfl <;> decide

/-- IllegalWordRaises: words that match no row. -/
theorem witness_illegal :
    ∀ w ∈ ([0x00000000, 0x00010001, 0x00000203, 0x00010012, 0x000000FF] : List Word),
      (latched .enc w).busy = true ∧ (latched .enc w).delay = 0 ∧ (latched .enc w).mode ≠ .error ∧
        ∀ r ∈ opcodeMap, (latched .enc w).pending &&& r.mask ≠ r.pattern := by
  intro w hw
  simp only [List.mem_cons, List.not_mem_nil, or_false] at hw
  rcases hw with rfl | rfl | rfl | rfl | rfl <;> decide

/-- WrongModeRaises: every command has a mode it is not legal in that is not ERROR. -/
theorem witness_wrong_mode :
    (inMode .dec).mode ≠ .error ∧ (inMode .enc).mode ≠ .error ∧ (inMode .idle).mode ≠ .error ∧
    (inMode .dec).mode ≠ .idle ∧ (inMode .dec).mode ≠ .enc ∧ (inMode .enc).mode ≠ .dec ∧
    (inMode .idle).mode ≠ .enc ∧ (inMode .idle).mode ≠ .dec ∧ (inMode .enc).mode ≠ .idle := by decide

/-- ErrorEntryRecordsAndFlushes: one pending bit, seven, none, and no flush outside ENC mode. -/
theorem witness_error_entry :
    ((t1Enc 0 1).mode = .enc ∧ (t1Enc 0 1).wcnt ≠ 0) ∧ ((t1Enc 0x7F 7).mode = .enc ∧ (t1Enc 0x7F 7).wcnt ≠ 0) ∧
    (t1Enc 0 0).wcnt = 0 ∧ (inMode .dec).mode ≠ .enc := by decide +kernel

/-- ErrorCodesAsTabulated: two causes of equal kind that differ in their subcode, and the codes of one. -/
theorem witness_error_codes :
    ErrorCause.badPadding.kind = ErrorCause.prematureEnd.kind ∧ ErrorCause.badPadding.sub ≠ ErrorCause.prematureEnd.sub ∧
    ErrorCause.outNotEmpty.kind = 5 ∧ ErrorCause.outNotEmpty.sub = 4 := by decide

/-- FirstErrorIsKept: a dropped command, CLEAR, and a reset, each answering a next state. -/
theorem witness_first_error :
    step (latched .error 0x00000001) = .next { inMode .error with pending := 1 } ∧
    step (latched .error 0x00000020) = .next { State.reset with pending := 0x20 } ∧
    step (hostNext .error .reset) = .next State.reset := ⟨rfl, rfl, rfl⟩

/-- ModeMovesOnlyAsTabulated: a next state in another mode for each event of the table. -/
theorem witness_mode_moves :
    after (step (hostNext .enc .reset)) State.mode = some .idle ∧
    after (step (latched .idle 0x00000001)) State.mode = some .enc ∧
    after (step (latched .idle 0x00000011)) State.mode = some .dec ∧
    after (step (latched .enc 0x00000004)) State.mode = some .idle ∧
    after (step (latched .dec 0x00000013)) State.mode = some .idle ∧
    after (step (latched .error 0x00000020)) State.mode = some .idle ∧
    after (step (latched .dec 0x00000001)) State.mode = some .error := by decide

/-- BusyWriteIsDropped: a write at either end of the window while BUSY = 1. -/
theorem witness_busy_write :
    ∀ a ∈ [0x0000, 0x0008, 0x7FFC],
      (waiting .enc (.write a 4 0xFF)).busy = true ∧ engineTurn (waiting .enc (.write a 4 0xFF)) = false ∧
        (waiting .enc (.write a 4 0xFF)).script = .write a 4 0xFF :: [] ∧ a % 4 = 0 ∧ a < 0x8000 := by decide

/-- CmdWriteLatches, DoutReadPopsHead, ReadsWhileBusy, RegisterWordsHaveTheirFields, RootAndCountersReadAndWrite: BUSY = 1
and BUSY = 0, with OUT empty and not, and every mode. -/
theorem witness_busy_values :
    ((inMode .enc).busy = false ∧ (inMode .enc).mode = .enc) ∧ ((inMode .dec).busy = false ∧ (inMode .dec).mode = .dec) ∧
    ((inMode .error).busy = false ∧ (inMode .error).mode = .error) ∧ State.reset.mode = .idle ∧
    (latched .idle 1).busy = true ∧ State.reset.busy = false ∧ State.reset.out = [] ∧
    ({ State.reset with out := [0x5F, 0x40] } : State).out = 0x5F :: [0x40] ∧
    ({ State.reset with out := [0x5F, 0x40] } : State).busy = false := by decide

/-- LockedTableWriteIsDropped: the ends of each locked range, and the offsets just outside. -/
theorem witness_locks :
    (∀ a ∈ [0x4000, 0x7FFC], (inMode .enc).busy = false ∧ a % 4 = 0 ∧ a < 0x8000 ∧ (inMode .enc).mode = .enc ∧ 0x4000 ≤ a) ∧
    (∀ a ∈ [0x0800, 0x0FFC], (inMode .dec).busy = false ∧ a % 4 = 0 ∧ (inMode .dec).mode = .dec ∧ 0x0800 ≤ a ∧ a < 0x1000) ∧
    (∀ a ∈ [0x0000, 0x0800, 0x3FFC],
      ¬((inMode .enc).mode = .enc ∧ 0x4000 ≤ a) ∧ ¬((inMode .enc).mode = .dec ∧ 0x0800 ≤ a ∧ a < 0x1000)) ∧
    (∀ a ∈ [0x07FC, 0x1000, 0x7FFC],
      ¬((inMode .dec).mode = .enc ∧ 0x4000 ≤ a) ∧ ¬((inMode .dec).mode = .dec ∧ 0x0800 ≤ a ∧ a < 0x1000)) := by decide

/-- NodeWriteReadsBack, CtHeaderWriteReadsBack, CtCodeWriteReadsBack: BUSY = 0, unlocked, a memory in canonical form, at
the first and the last entry and code word. -/
theorem witness_ram_writes :
    t1.busy = false ∧ t1.mode ≠ .dec ∧ t1.mode ≠ .enc ∧ Memory.wf t1.mem ∧ (0 : Nat) ≤ 7 ∧ (7 : Nat) ≤ 7 ∧
    targetOf (0x0800 + 4 * (511 : NodeIndex).toNat) = .node 511 ∧
    targetOf (0x4000 + 64 * (255 : Byte).toNat) = .ctHeader 255 ∧
    targetOf (0x4000 + 64 * (255 : Byte).toNat + 4 * (1 + 7)) = .ctCode 255 7 := by decide +kernel

/-- UnmappedReadsZeroIgnoresWrites: the ends of every range it names, and each of its three cases. -/
theorem witness_unmapped :
    (∀ a ∈ [0x001C, 0x0040, 0x07FC, 0x1000, 0x3FFC, 0x4024, 0x403C, 0x7FE4, 0x7FFC],
      a % 4 = 0 ∧
        (a = 0x01C ∨ (0x0040 ≤ a ∧ a < 0x0800) ∨ (0x1000 ≤ a ∧ a < 0x4000) ∨
          (0x4000 ≤ a ∧ a < 0x8000 ∧ 36 ≤ (a - 0x4000) % 64))) ∧
    (latched .enc 1).busy = true ∧ ((inMode .enc).busy = false ∧ (inMode .enc).mode = .enc ∧ 0x4000 ≤ 0x7FFC) ∧
    ¬((inMode .dec).mode = .enc ∧ 0x4000 ≤ 0x7FFC) := by decide

/-- ReadsHaveNoSideEffect: an aligned offset that is not DOUT's. -/
theorem witness_reads : 0x018 % 4 = 0 ∧ 0x018 ≠ 0x014 ∧ 0x7FFC % 4 = 0 ∧ 0x7FFC ≠ 0x014 ∧ State.reset.busy = false := by decide

/-- DrainReturnsOutInOrder: OUT empty, and OUT with two entries. -/
theorem witness_drain :
    (hostNext .idle .drain).busy = false ∧ (hostNext .idle .drain).script = .drain :: [] ∧
    ({ hostNext .idle .drain with out := [1, 2] } : State).out.length = 2 := by decide

/-- HostAccessReachesTheBusOrStops: a read and a write at the ends of the window with BUSY = 0, a WAIT with BUSY = 0 and with
BUSY = 1, and a write with BUSY = 1. -/
theorem witness_access :
    (engineTurn (hostNext .idle (.read 0x0000 4)) = false ∧ (hostNext .idle (.read 0x0000 4)).busy = false ∧
      (hostNext .idle (.read 0x0000 4)).script = .read 0x0000 4 :: [] ∧
      after (step (hostNext .idle (.read 0x0000 4))) State.heard = some [{ addr := 0, value := 0x48554646 }]) ∧
    (engineTurn (hostNext .idle (.write 0x7FFC 4 1)) = false ∧
      (hostNext .idle (.write 0x7FFC 4 1)).script = .write 0x7FFC 4 1 :: [] ∧ 0x7FFC % 4 = 0 ∧ 0x7FFC < 0x8000) ∧
    (engineTurn (hostNext .idle .wait) = false ∧ (hostNext .idle .wait).script = .wait :: [] ∧
      after (step (hostNext .idle .wait)) (fun t => (t.script, t.heard)) = some ([], [{ addr := 0x00C, value := 0 }])) ∧
    (engineTurn (waiting .idle .wait) = false ∧ (waiting .idle .wait).busy = true ∧
      after (step (waiting .idle .wait)) State.script = some [.wait]) ∧
    (engineTurn (waiting .idle (.write 0x0008 4 1)) = false ∧ (waiting .idle (.write 0x0008 4 1)).busy = true ∧
      after (step (waiting .idle (.write 0x0008 4 1))) (fun t => (t.overrun, t.delay)) = some (true, 0)) := by decide

/-- HostAccessReachesTheBusOrStops: a narrow access, an unaligned one, and the first offset past the window. -/
theorem witness_stops :
    engineTurn (hostNext .idle (.read 0x0002 2)) = false ∧
    ((hostNext .idle (.read 0x0002 2)).script = .read 0x0002 2 :: [] ∧ (2 ≠ 4 ∨ 0x0002 % 4 ≠ 0)) ∧
    ((hostNext .idle (.write 0x0001 4 0)).script = .write 0x0001 4 0 :: [] ∧ 0x0001 % 4 ≠ 0) ∧
    ((hostNext .idle (.read 0x8000 4)).script = .read 0x8000 4 :: [] ∧ 0x8000 % 4 = 0 ∧ 0x8000 ≤ 0x8000) ∧
    ((hostNext .idle (.write 0x8000 4 0)).script = .write 0x8000 4 0 :: []) := by decide

/-- TablesFixedDuringStream: an engine step and an accepted host write, each answering a next state. -/
theorem witness_tables_fixed :
    (engineTurn (latched .idle 1) = true ∧ after (step (latched .idle 1)) State.mode = some .enc) ∧
    (engineTurn (hostNext .enc (.write 0x0800 4 7)) = false ∧
      (hostNext .enc (.write 0x0800 4 7)).script.head? ≠ some .reset ∧
      after (step (hostNext .enc (.write 0x0800 4 7))) (fun t => nodeWord t.mem 0) = some 7) ∧
    after (step (hostNext .dec (.write 0x0800 4 7))) (fun t => (t.lockvio, nodeWord t.mem 0)) = some (true, 0) := by
  decide +kernel

/-- ResetInputRestoresResetState: with BUSY = 0, and with a command latched. -/
theorem witness_reset_input :
    engineTurn (hostNext .enc .reset) = false ∧ (hostNext .enc .reset).script = .reset :: [] ∧
    engineTurn (waiting .enc .reset) = false ∧ (waiting .enc .reset).script = .reset :: [] := by decide

/-- ResetMeetsEveryInvariant: the reference build and the smallest one. -/
theorem witness_params : Params.reference.wf ∧ ({ lmax := 1, outDepth := 33 } : Params).wf := by decide

/-- MemoryStaysCanonical: a host write's step from a memory in form. -/
theorem witness_memory_good :
    memoryGood (hostNext .idle (.write 0x4000 4 0x00030001)) ∧
    after (step (hostNext .idle (.write 0x4000 4 0x00030001))) (fun t => t.mem.length) = some 2 := by
  refine ⟨⟨⟨List.Pairwise.nil, ?_⟩, ?_⟩, by decide +kernel⟩ <;> intro c h <;> cases h

/-- WriterAndRoomStayGood: a step in ENC mode with seven bits pending and one entry free. -/
theorem witness_writer_good :
    let s := { latched .enc 0x00000003 with wbuf := 0x7F, wcnt := 7, out := List.replicate 63 0 }
    writerGood s ∧ roomGood s ∧ after (step s) (fun t => t.out.length) = some 64 := by
  refine ⟨?_, ?_, by decide +kernel⟩
  · unfold writerGood; decide +kernel
  · unfold roomGood; decide +kernel

/-- ReaderIdleBetweenCommands, ErrorRecordMatchesMode: a step that raises, from good states. -/
theorem witness_reader_and_error_good :
    readerIdle (latched .idle 0x00000002) ∧ errorGood (latched .idle 0x00000002) ∧
    after (step (latched .idle 0x00000002)) (fun t => t.error) = some (errorRecord .wrongMode 0x02 0) := by
  refine ⟨rfl, ⟨fun h => ?_, fun _ => rfl⟩, by decide⟩
  exact absurd h (by decide)

/-- CursorStaysOnTheTree: DEC mode with the cursor on an INTERNAL node below the root, and at the root. -/
theorem witness_cursor_good : cursorGood t1Mid ∧ cursorGood t1Dec ∧ t1Mid.mode = .dec ∧ t1Mid.depth = 2 ∧
    after (step { t1Mid with busy := true, pending := 0x00004012 }) (fun t => (t.cur, t.depth, t.syms)) = some (6, 0, 4) := by
  refine ⟨fun _ => ⟨.inr ⟨by decide +kernel, by decide +kernel, 0, 1, by decide +kernel⟩, by decide +kernel⟩,
    fun _ => ⟨.inl ⟨by decide +kernel, by decide +kernel⟩, by decide +kernel⟩, ?_⟩
  decide +kernel

/-- EncOpenOpensAStream, DecOpenLatchesTreeAndCount, ClearLeavesErrorMode, DecEndChecksTheCount: each mode, OUT empty and
not, the count reached and not. -/
theorem witness_modes :
    (State.reset.mode = .idle ∧ State.reset.out = []) ∧
    (({ State.reset with out := [0x55] } : State).mode = .idle ∧ ({ State.reset with out := [0x55] } : State).out ≠ []) ∧
    (inMode .error).mode = .error ∧ (inMode .enc).mode = .enc ∧
    ((inMode .dec).mode = .dec ∧ (inMode .dec).syms = (inMode .dec).target) ∧ t1Dec.syms ≠ t1Dec.target := by
  decide +kernel

/-- EncSymAppendsItsCodeword: the least entry with no bit pending, and the longest codeword with seven pending and exactly
the room it needs (95_test_vectors.md section 3). -/
theorem witness_encSym :
    (let s := t1Enc 0 0
     s.mode = .enc ∧ s.wcnt.toNat ≤ 7 ∧ acceptedEntry s.params (ctEntry s.mem 0x61) ∧
       (s.wcnt.toNat + (ctEntry s.mem 0x61).len.toNat) / 8 + 1 ≤ freeRoom s) ∧
    (let s := { t1Enc 0 7 with
       mem := storeEntry [] 0xFF { valid := true, len := 255, code := 5 }, out := List.replicate 31 0 }
     s.mode = .enc ∧ s.wcnt.toNat ≤ 7 ∧ acceptedEntry s.params (ctEntry s.mem 0xFF) ∧
       (s.wcnt.toNat + (ctEntry s.mem 0xFF).len.toNat) / 8 + 1 = freeRoom s) := by
  unfold acceptedEntry
  decide +kernel

/-- EncSymChecksInOrder: each of the four checks fails for some entry. -/
theorem witness_encSym_checks :
    (t1Enc 0 0).mode = .enc ∧ (ctEntry (t1Enc 0 0).mem 0x71).valid = false ∧
    (let e := ctEntry (storeEntry [] 0x65 { valid := true, len := 0, code := 0 }) 0x65
     e.valid = true ∧ e.len = 0) ∧
    (let e := ctEntry (storeEntry [] 0x65 { valid := true, len := 256, code := 0 }) 0x65
     e.valid = true ∧ e.len ≠ 0 ∧ (t1Enc 0 0).params.lmax.toNat < e.len.toNat) ∧
    (let s := { t1Enc 0b10110 5 with out := List.replicate 63 0 }
     acceptedEntry s.params (ctEntry s.mem 0x64) ∧
       freeRoom s < (s.wcnt.toNat + (ctEntry s.mem 0x64).len.toNat) / 8 + 1) := by
  unfold acceptedEntry
  decide +kernel

/-- EncBitAppendsItsBit, EncFinishClosesTheStream: the last entry is enough for a bit, and is not for the eighth. -/
theorem witness_encBit :
    (let s := { t1Enc 0 0 with out := List.replicate 63 0 }
     s.mode = .enc ∧ s.wcnt.toNat ≤ 7 ∧ (s.wcnt.toNat + 1) / 8 + 1 ≤ freeRoom s ∧ s.wcnt = 0) ∧
    (let s := { t1Enc 0x7F 7 with out := List.replicate 63 0 }
     s.mode = .enc ∧ s.wcnt.toNat ≤ 7 ∧ freeRoom s < (s.wcnt.toNat + 1) / 8 + 1 ∧ s.wcnt ≠ 0) := by decide +kernel

/-- EncoderCommandsFrame, DecoderCommandsFrame: each command answers a next state. -/
theorem witness_frames :
    after (exec .encOpen State.reset) State.mode = some .enc ∧
    after (exec (.encSym 0x61) (t1Enc 0 0)) State.wcnt = some 1 ∧
    after (exec (.encBit true) (t1Enc 0 0)) State.wcnt = some 1 ∧
    after (exec .encFinish (t1Enc 0 0)) State.mode = some .idle ∧
    after (exec .decOpen t1) State.mode = some .dec ∧
    after (exec (.decByte 0x5F) t1Dec) State.rbuf = some 0x5F ∧
    after (exec .decEnd (inMode .dec)) State.mode = some .idle := by decide +kernel

/-- FramingKeepsEveryBit: an empty BitWriter. -/
theorem witness_framing : State.reset.wcnt = 0 ∧ (t1Enc 0 0).wcnt = 0 := by decide +kernel

/-- EncodeStreamIsPackedCodewords: T1 accepts every symbol of "abcd". -/
theorem witness_encode_stream :
    t1.params.wf ∧ t1.mode = .idle ∧ t1.out = [] ∧
    ∀ x ∈ ([0x61, 0x62, 0x63, 0x64] : List Byte), acceptedEntry t1.params (ctEntry t1.mem x) := by
  refine ⟨by decide +kernel, by decide +kernel, by decide +kernel, fun x hx => ?_⟩
  simp only [List.mem_cons, List.not_mem_nil, or_false] at hx
  unfold acceptedEntry
  rcases hx with rfl | rfl | rfl | rfl <;> decide +kernel

/-- DecByteChecksBeforeReading: the count reached; and the count not reached with one entry too few. -/
theorem witness_decByte_checks :
    ((inMode .dec).mode = .dec ∧ (inMode .dec).syms = (inMode .dec).target) ∧
    (let s := { inMode .dec with target := 8, out := List.replicate 57 0 }
     s.mode = .dec ∧ s.syms ≠ s.target ∧ freeRoom s < min 8 (s.target - s.syms).toNat) := by decide +kernel

/-- WalkStepByNodeTags, LeafRootEmitsOnZeros: a word of every tag, a node of every tag at the cursor, a child of every
tag. -/
theorem witness_walk_step :
    ((0x3FFFFFFF : Word).extractLsb' 30 2 = 0 ∧ (0x7FFFFFFF : Word).extractLsb' 30 2 = 1 ∧
      (0xBFFFFFFF : Word).extractLsb' 30 2 = 2 ∧ (0xC0000000 : Word).extractLsb' 30 2 = 3) ∧
    nodeAt t2Dec.mem t2Dec.cur = .leaf 0x78 ∧ nodeAt State.reset.mem 0 = .empty ∧
    nodeAt (decOver [(0, 0xC0000000)] 1).mem 0 = .rsvd ∧
    (nodeAt t1Dec.mem 6 = .internal 3 5 ∧ nodeAt t1Dec.mem 3 = .leaf 0x61 ∧ nodeAt t1Dec.mem 5 = .internal 2 4) ∧
    (nodeAt (decOver [(0, 0x80020001), (2, 0xC0000000)] 1).mem 0 = .internal 1 2 ∧
      nodeAt (decOver [(0, 0x80020001), (2, 0xC0000000)] 1).mem 1 = .empty ∧
      nodeAt (decOver [(0, 0x80020001), (2, 0xC0000000)] 1).mem 2 = .rsvd) := by decide +kernel

/-- A codeword of T1's tree: "110" is 'd'. -/
theorem codeword_d : isCodeword t1.mem 6 [true, true, false] 0x64 :=
  .inr ⟨3, 5, by decide +kernel, ⟨2, 4, by decide +kernel⟩,
    2, 4, by decide +kernel, ⟨0, 1, by decide +kernel⟩, 0, 1, by decide +kernel, by decide +kernel⟩

/-- A codeword of T1's tree: "0" is 'a'. -/
theorem codeword_a : isCodeword t1.mem 6 [false] 0x61 := .inr ⟨3, 5, by decide +kernel, by decide +kernel⟩

/-- WalkingACodewordEmitsItsSymbol: a codeword from an INTERNAL root and one from a LEAF root. -/
theorem witness_walk_codeword :
    (isCodeword t1Dec.mem t1Dec.rroot [true, true, false] 0x64 ∧ t1Dec.cur = t1Dec.rroot ∧ t1Dec.depth = 0) ∧
    (isCodeword t2Dec.mem t2Dec.rroot [false] 0x78 ∧ t2Dec.cur = t2Dec.rroot ∧ t2Dec.depth = 0) :=
  ⟨⟨codeword_d, by decide +kernel, by decide +kernel⟩,
    ⟨.inl ⟨by decide +kernel, rfl⟩, by decide +kernel, by decide +kernel⟩⟩

/-- The state one bit of 0x40 leads to from the middle of 'd' or 'c'. -/
def t1Done : State := { t1Mid with out := [0x64], syms := 4, bits := 9, cur := 6, depth := 0 }

theorem walkList_t1Mid : walkList [false] t1Mid = some t1Done := by decide +kernel

/-- The count is not reached before a byte's first bit where it is not reached at all. -/
theorem countNotReached_first {s : State} (b : Bool) (h : s.syms ≠ s.target) : countNotReachedBefore [b] s := by
  intro p q hpq hq u hu
  cases p with
  | nil =>
    simp only [walkList, Option.some.injEq] at hu
    exact hu ▸ h
  | cons c cs =>
    simp only [List.cons_append, List.cons.injEq] at hpq
    have := hpq.2.symm
    simp only [List.append_eq_nil_iff] at this
    exact absurd this.2 hq

/-- In t1Mid the first bit is never one too late: the count is not reached before it. -/
theorem countNotReached_t1Mid : countNotReachedBefore [false] t1Mid := countNotReached_first _ (by decide +kernel)

/-- DecByteWalksItsBits: 0x40 at the last symbol, one bit walked and seven of padding (95_test_vectors.md section 4). -/
theorem witness_decByte_walks :
    t1Mid.mode = .dec ∧ t1Mid.syms ≠ t1Mid.target ∧ min 8 (t1Mid.target - t1Mid.syms).toNat ≤ freeRoom t1Mid ∧
    byteBits 0x40 = [false] ++ true :: List.replicate 6 false ∧ walkList [false] t1Mid = some t1Done ∧
    countNotReachedBefore [false] t1Mid ∧ t1Done.syms = t1Done.target :=
  ⟨by decide +kernel, by decide +kernel, by decide +kernel, by decide, walkList_t1Mid, countNotReached_t1Mid,
    by decide +kernel⟩

/-- DecByteWalksItsBits: a byte used up whole, the count not reached. -/
theorem witness_decByte_walks_whole :
    byteBits 0x00 = List.replicate 8 false ++ [] ∧
    (walkList (List.replicate 8 false) (decOver [(0, 0x80000000)] 1)).isSome = true ∧
    (decOver [(0, 0x80000000)] 1).syms ≠ (decOver [(0, 0x80000000)] 1).target ∧
    countNotReachedBefore (List.replicate 8 false) (decOver [(0, 0x80000000)] 1) := by
  refine ⟨by decide, by decide +kernel, by decide +kernel, ?_⟩
  intro p q hpq _ u hu
  have hp : p = List.replicate p.length false := by
    refine List.eq_replicate_of_mem fun b hb => ?_
    have : b ∈ List.replicate 8 false := by rw [hpq]; exact List.mem_append_left _ hb
    exact List.eq_of_mem_replicate this
  have hlen : p.length ≤ 8 := by
    have := congrArg List.length hpq
    simp only [List.length_replicate, List.length_append] at this
    omega
  rw [hp] at hu
  generalize p.length = n at hu hlen
  have key : ∀ n : Fin 9, ((walkList (List.replicate n.val false) (decOver [(0, 0x80000000)] 1)).map
      (fun u => decide (u.syms ≠ u.target))) = some true := by decide +kernel
  have := key ⟨n, by omega⟩
  rw [hu] at this
  simpa using this

/-- DecByteFailsAtItsBit: the first bit of a byte raises, over an EMPTY tree, at a leaf root, and at depth 254. -/
theorem witness_decByte_fails :
    (let s := decOver [] 1
     s.mode = .dec ∧ min 8 (s.target - s.syms).toNat ≤ freeRoom s ∧ walkList [] s = some s ∧
       countNotReachedBefore ([] ++ [true]) s ∧ walkError true s = some .malformedTree) ∧
    (let s := t2Dec
     s.mode = .dec ∧ min 8 (s.target - s.syms).toNat ≤ freeRoom s ∧ walkList [] s = some s ∧
       countNotReachedBefore ([] ++ [true]) s ∧ walkError true s = some .walkPastLeaf) ∧
    (let s := { decOver [(0, 0x80000000)] 1 with depth := 254 }
     s.mode = .dec ∧ min 8 (s.target - s.syms).toNat ≤ freeRoom s ∧ walkList [] s = some s ∧
       countNotReachedBefore ([] ++ [true]) s ∧ walkError true s = some .depthExceeded) ∧
    byteBits 0x80 = [] ++ true :: List.replicate 7 false := by
  refine ⟨⟨?_, ?_, rfl, countNotReached_first _ ?_, ?_⟩, ⟨?_, ?_, rfl, countNotReached_first _ ?_, ?_⟩,
    ⟨?_, ?_, rfl, countNotReached_first _ ?_, ?_⟩, ?_⟩ <;> decide +kernel

/-- DecByteRejectsBadPadding: 0x60 after 'd', the highest wrong bit is 5 (95_test_vectors.md section 4). -/
theorem witness_decByte_bad_padding :
    t1Mid.mode = .dec ∧ t1Mid.syms ≠ t1Mid.target ∧ min 8 (t1Mid.target - t1Mid.syms).toNat ≤ freeRoom t1Mid ∧
    byteBits 0x60 = [false] ++ bitsBelow (0x60 : Byte) 7 ∧ walkList [false] t1Mid = some t1Done ∧
    countNotReachedBefore [false] t1Mid ∧ t1Done.syms = t1Done.target ∧
    (0x60 : Byte).getLsbD 5 ≠ decide (5 = 7 - 1) ∧ ∀ k, 5 < k → k < 7 → (0x60 : Byte).getLsbD k = decide (k = 7 - 1) :=
  ⟨by decide +kernel, by decide +kernel, by decide +kernel, by decide, walkList_t1Mid, countNotReached_t1Mid,
    by decide +kernel, by decide, fun k h₁ h₂ => by
      obtain rfl : k = 6 := by omega
      decide⟩

/-- DecodeStreamGivesTheText, RoundTrip: T1 loaded for a decode of "da", its entries the tree's codewords. -/
theorem witness_round_trip :
    let s := { t1 with symcount := 2 }
    s.params.wf ∧ s.mode = .idle ∧ s.out = [] ∧ ([0x64, 0x61] : List Byte).length < 2 ^ 64 ∧
      s.symcount = BitVec.ofNat 64 ([0x64, 0x61] : List Byte).length ∧
      (∀ x ∈ ([0x64, 0x61] : List Byte), acceptedEntry s.params (ctEntry s.mem x) ∧
        isCodeword s.mem s.root (codewordOf (ctEntry s.mem x)) x) ∧
      ([0xC8] : List Byte).flatMap byteBits =
        ([0x64, 0x61] : List Byte).flatMap (fun x => codewordOf (ctEntry s.mem x)) ++ paddingOf 4 := by
  refine ⟨by decide +kernel, by decide +kernel, by decide +kernel, by decide, by decide, ?_, by decide +kernel⟩
  intro x hx
  simp only [List.mem_cons, List.not_mem_nil, or_false] at hx
  rcases hx with rfl | rfl
  · refine ⟨by unfold acceptedEntry; decide +kernel, ?_⟩
    rw [show codewordOf (ctEntry _ 0x64) = [true, true, false] by decide +kernel]
    exact codeword_d
  · refine ⟨by unfold acceptedEntry; decide +kernel, ?_⟩
    rw [show codewordOf (ctEntry _ 0x61) = [false] by decide +kernel]
    exact codeword_a

/-- HeaderRoundTrip: an alphabet the host accepts, its weights below 2^32, the largest among them. -/
theorem witness_file :
    validate [(0x61, .finite 4294967295), (0x62, .finite 0)] =
      .done [{ weight := 4294967295, sym := 0x61 }, { weight := 0, sym := 0x62 }] ∧
    ∀ x ∈ ([{ weight := 4294967295, sym := 0x61 }, { weight := 0, sym := 0x62 }] : List Weighted), x.weight < 2 ^ 32 := by
  decide +kernel

/-- HeaderRoundTrip, TreeBuilderKeepsLeavesAndWeight, CodewordsArePrefixFree: a header, an alphabet of one symbol, a tree
of two leaves. -/
theorem witness_offline :
    ([{ sym := 0x61, freq := 4 }] : List HeaderEntry).length < 2 ^ 32 ∧
    ([{ weight := 0, sym := 0x61 }] : List Weighted) ≠ [] ∧
    2 ≤ (leavesOf (.internal 2 2 (.leaf 0 1 0x61) (.leaf 1 1 0x62))).length := by decide

end Sys2Proof.Tests
end

section
/-! PROOF. One step of the machine seen from the block's invariants: which outcomes a step has, and what a host access
keeps of the fields the invariants speak of. -/

namespace Sys2Proof.Machine

open Sys2Proof

/-- What a host access other than reset leaves of the engine's fields (R94, R332 to R337): entries may only leave OUT, and
in DEC mode NODE RAM is locked. BUSY is not among them, so the end of an engine step keeps the same. -/
structure EngineKept (s t : State) : Prop where
  params : t.params = s.params
  mode : t.mode = s.mode
  error : t.error = s.error
  syms : t.syms = s.syms
  wbuf : t.wbuf = s.wbuf
  wcnt : t.wcnt = s.wcnt
  rcnt : t.rcnt = s.rcnt
  cur : t.cur = s.cur
  depth : t.depth = s.depth
  rroot : t.rroot = s.rroot
  target : t.target = s.target
  out : t.out <:+ s.out
  nodes : s.mode = .dec → ∀ i, nodeAt t.mem i = nodeAt s.mem i

theorem EngineKept.outCount_le {s t : State} (h : EngineKept s t) : outCount t ≤ outCount s := h.out.length_le

theorem engineKept_refl (s : State) : EngineKept s s := by
  constructor <;> simp

theorem EngineKept.trans {s t u : State} (h : EngineKept s t) (k : EngineKept t u) : EngineKept s u where
  params := k.params.trans h.params
  mode := k.mode.trans h.mode
  error := k.error.trans h.error
  syms := k.syms.trans h.syms
  wbuf := k.wbuf.trans h.wbuf
  wcnt := k.wcnt.trans h.wcnt
  rcnt := k.rcnt.trans h.rcnt
  cur := k.cur.trans h.cur
  depth := k.depth.trans h.depth
  rroot := k.rroot.trans h.rroot
  target := k.target.trans h.target
  out := k.out.trans h.out
  nodes hd i := (k.nodes (h.mode.trans hd) i).trans (h.nodes hd i)

theorem engineKept_retire (s : State) : EngineKept s (retire s) := by
  constructor <;> simp

theorem engineKept_beginAction (rest : List HostOp) (s : State) : EngineKept s (beginAction rest s) := by
  constructor <;> simp

/-- A word written to CT RAM leaves NODE RAM alone (R84, R85). -/
theorem nodeAt_writeWord_ct (m : List Host.Cell) (sym : Byte) (w : Nat) (e : Word) (i : NodeIndex) :
    nodeAt (Memory.writeWord m (ctOffset sym w) e) i = nodeAt m i := by
  have hi := i.isLt
  unfold nodeAt nodeWord
  rw [Memory.readWord_writeWord_ne]
  left
  simp only [nodeOffset, ctOffset]
  omega

/-- A host read takes at most the head of OUT (R42, R94). -/
theorem engineKept_read (a : Nat) (k : List HostOp) (s : State) :
    EngineKept s { hear a (busRead a s) with script := k } := by
  obtain h | ⟨-, h⟩ | ⟨-, v, rest, -, ho, h, -⟩ := busRead_after a s <;> constructor <;> simp [h]
  rw [ho]
  exact List.suffix_cons v rest

/-- A host write changes none of the engine's fields, and no node in DEC mode (R334 to R337). -/
theorem engineKept_write (a : Nat) (d : Word) (s : State) : EngineKept s (busWrite a d s) := by
  obtain ⟨-, h⟩ | ⟨-, h | h | h | h | ⟨c, h⟩ | ⟨hm, i, h⟩ | ⟨-, sym, w, e, -, h⟩⟩ := busWrite_cases a d s <;> rw [h]
  case inr.inr.inr.inr.inr.inr.inr => constructor <;> simp [nodeAt_writeWord_ct]
  case inr.inr.inr.inr.inr.inr.inl => constructor <;> simp [hm]
  all_goals constructor <;> simp

/-- The outcomes of one step: the latched command run by its own rule (R235), a word dropped in ERROR mode (R232), an
illegal word or a command in a wrong mode raised (R233, R234), a host access, or a reset (R400). -/
inductive StepOutcome (s : State) : State → Prop where
  | command (i : Instr) (turn : engineTurn s = true) (word : decode s.pending = .command i)
      (legal : legalIn i s.mode = true) : StepOutcome s (retire (commandBody i s))
  | dropped (turn : engineTurn s = true) (inError : s.mode = .error) : StepOutcome s (retire s)
  | rejected (c : ErrorCause) (arg : Byte) (turn : engineTurn s = true) (noError : s.mode ≠ .error) :
      StepOutcome s (retire (raise c arg 0 s))
  | host (t : State) (turn : engineTurn s = false) (kept : EngineKept s t) : StepOutcome s t
  | reset (rest : List HostOp) (turn : engineTurn s = false) (next : s.script = .reset :: rest) :
      StepOutcome s (resetBlock (beginAction rest s))

theorem engineStep_outcome {s t : State} (turn : engineTurn s = true) (h : engineStep s = .next t) :
    StepOutcome s t := by
  obtain ⟨i, u, hi, hu, rfl⟩ | ⟨r, -, rfl⟩ := engineStep_cases h
  · rw [exec_eq_dispatch] at hu
    obtain ⟨hl, rfl⟩ | ⟨-, he, rfl⟩ | ⟨-, he, rfl⟩ := dispatchCommand_cases hu
    · exact .command i turn hi hl
    · exact .dropped turn he
    · exact .rejected _ _ turn he
  · unfold illegalCommand
    split
    · next he => exact .dropped turn he
    · next he => exact .rejected _ _ turn he

theorem platformStep_outcome {s t : State} (turn : engineTurn s = false) (h : platformStep s = .next t) :
    StepOutcome s t := by
  obtain ⟨-, rfl⟩ | ⟨op, rest, hs, ⟨a, k, -, rfl⟩ | ⟨a, d, -, -, -, rfl⟩ | ⟨rfl, rfl⟩⟩ := platformStep_cases h
  · exact .host _ turn (engineKept_refl _)
  · exact .host _ turn ((engineKept_beginAction rest s).trans (engineKept_read a k _))
  · exact .host _ turn ((engineKept_beginAction rest s).trans (engineKept_write a d _))
  · exact .reset rest turn hs

theorem step_outcome {s t : State} (h : step s = .next t) : StepOutcome s t := by
  obtain ⟨turn, h⟩ | ⟨turn, h⟩ := step_cases h
  · exact engineStep_outcome turn h
  · exact platformStep_outcome turn h

/-- An invariant of the engine's fields is kept by every step when a host access, error entry, every command's own rule and
reset keep it. -/
theorem step_keeps {P : State → Prop}
    (host : ∀ {s t}, EngineKept s t → P s → P t)
    (raises : ∀ {s} c arg i, P s → P (raise c arg i s))
    (body : ∀ {s} i, legalIn i s.mode = true → P s → P (commandBody i s))
    (resets : ∀ {s}, P s → P (resetBlock s))
    {s t : State} (h : step s = .next t) (hs : P s) : P t := by
  cases step_outcome h with
  | command i turn word legal => exact host (engineKept_retire _) (body i legal hs)
  | dropped turn inError => exact host (engineKept_retire _) hs
  | rejected c arg turn noError => exact host (engineKept_retire _) (raises c arg 0 hs)
  | host _ turn kept => exact host kept hs
  | reset rest turn next => exact resets (host (engineKept_beginAction rest s) hs)

theorem finish_consumeBit (s : State) : finish (consumeBit s) = consumeBit (finish s) := by
  unfold finish
  rw [apply_ite consumeBit]
  rfl

/-- Error entry discards the rest of the operand, however much of it was read (R366). -/
theorem raise_consumeBit (c : ErrorCause) (a : Byte) (i : BitVec 3) (s : State) :
    raise c a i (consumeBit s) = raise c a i s := by
  by_cases hm : s.mode = .enc
  · rw [raise_of_enc hm, raise_of_enc (s := consumeBit s) hm, finish_consumeBit]
    rfl
  · rw [raise_of_not_enc hm, raise_of_not_enc (s := consumeBit s) hm]
    rfl

/-- A bit that raises ends in error entry from the state it was read in (R294, R366). -/
theorem walkStep_raised {bit : Bool} {v : Byte} {i : BitVec 3} {s t : State} (h : walkStep bit v i s = .raised t) :
    ∃ c, t = raise c v i s := by
  obtain ⟨c, e⟩ | ⟨_, _, _, e⟩ | ⟨_, _, _, _, _, e⟩ | ⟨_, _, _, _, _, _, _, e⟩ := walkStep_cases bit v i s <;>
    simp only [h, Walk.raised.injEq, reduceCtorEq] at e
  exact ⟨c, e⟩

/-- A property of the state inside a DEC_BYTE is kept by its walk when every bit's step keeps it: a bit is read only while
one is left and the count is not reached (R291), and the walk goes on or raises (R294). -/
theorem walkBits_keeps {P : State → Prop} {v : Byte}
    (running : ∀ {s t} bit i, s.rcnt ≠ 0 → s.syms ≠ s.target → P s → walkStep bit v i (consumeBit s) = .running t → P t)
    (raises : ∀ {s} c i, P s → P (raise c v i s)) {n : Nat} {s t : State} (hs : P s)
    (h : walkBits v n s = .running t ∨ walkBits v n s = .raised t) : P t := by
  induction n generalizing s with
  | zero =>
    simp only [walkBits, Walk.running.injEq, reduceCtorEq, or_false] at h
    exact h ▸ hs
  | succ n ih =>
    simp only [walkBits] at h
    split at h
    · simp only [Walk.running.injEq, reduceCtorEq, or_false] at h
      exact h ▸ hs
    · next hgo =>
      rw [not_or] at hgo
      split at h
      · next u hu => exact ih (running _ _ hgo.1 hgo.2 hs hu) h
      · next u hu =>
        simp only [reduceCtorEq, Walk.raised.injEq, false_or] at h
        subst h
        obtain ⟨c, e⟩ := walkStep_raised hu
        rw [e, raise_consumeBit]
        exact raises c _ hs

/-- The end of a DEC_BYTE raises BAD_PADDING, discards the padding at the count, or leaves the state (R291, R298). -/
theorem finishByte_cases (v : Byte) (s : State) :
    (∃ j, finishByte v s = raise .badPadding v j s) ∨
      (s.syms = s.target ∧ finishByte v s = { s with rcnt := 0 }) ∨
      (¬(s.syms = s.target ∧ s.rcnt ≠ 0) ∧ finishByte v s = s) := by
  unfold finishByte
  split
  · next h =>
    split
    · exact .inl ⟨_, rfl⟩
    · exact .inr (.inl ⟨h.1, rfl⟩)
  · next h => exact .inr (.inr ⟨h, rfl⟩)

/-- What DEC_BYTE's own rule establishes: a property that holds once the byte is loaded, that every bit's step, error entry
and the discarded padding keep, and that error entry at the early checks gives (R291). -/
theorem decByteBody_keeps {P : State → Prop} {v : Byte} {s : State}
    (early : ∀ c arg, P (raise c arg 0 s))
    (loaded : s.syms ≠ s.target → decodeRoom s ≤ freeRoom s → P (load v s))
    (running : ∀ {s t} bit i, s.rcnt ≠ 0 → s.syms ≠ s.target → P s →
      walkStep bit v i (consumeBit s) = .running t → P t)
    (raises : ∀ {s} c i, P s → P (raise c v i s))
    (discards : ∀ {s}, s.syms = s.target → P s → P { s with rcnt := 0 }) : P (decByteBody v s) := by
  unfold decByteBody
  split
  · exact early _ _
  next hne =>
  split
  · exact early _ _
  next hroom =>
  have hload := loaded hne (by omega)
  split
  · next t ht =>
    have hwalk := walkBits_keeps running raises hload (.inl ht)
    obtain ⟨j, h⟩ | ⟨he, h⟩ | ⟨-, h⟩ := finishByte_cases v t <;> rw [h]
    · exact raises _ j hwalk
    · exact discards he hwalk
    · exact hwalk
  · next t ht => exact walkBits_keeps running raises hload (.inr ht)

end Sys2Proof.Machine
end

section
/-! PROOF. What each command's own rule can do: the state it completes in, or error entry; the mode and the error record it
leaves; and the one word it is decoded from. -/

namespace Sys2Proof.Machine

open Sys2Proof Sys2Proof.Safety

/-- A bit of `walk_step` that raises nothing emits a symbol and stays, emits one and goes back to the root, or moves to an
INTERNAL child (R294). -/
theorem walkStep_running {bit : Bool} {v : Byte} {i : BitVec 3} {s t : State} (h : walkStep bit v i s = .running t) :
    (∃ sym, t = emitSymbol sym s) ∨ (∃ sym, t = toRoot (emitSymbol sym s)) ∨
      ∃ k l r, nodeAt s.mem k = .internal l r ∧ s.depth.toNat + 1 < Config.depthLimit ∧
        t = { s with cur := k, depth := s.depth + 1, bits := s.bits + 1 } := by
  obtain ⟨c, e⟩ | ⟨sym, -, -, e⟩ | ⟨_, _, sym, -, -, e⟩ | ⟨_, _, l, r, -, hk, hd, e⟩ := walkStep_cases bit v i s <;>
    simp only [h, Walk.running.injEq, reduceCtorEq] at e
  · exact .inl ⟨sym, e⟩
  · exact .inr (.inl ⟨sym, e⟩)
  · exact .inr (.inr ⟨_, l, r, hk, hd, e⟩)

/-- ENC_SYM raises, or it has the entries it needs and emits its codeword (R261). -/
theorem encSymBody_cases (sym : Byte) (s : State) :
    (∃ c arg, encSymBody sym s = raise c arg 0 s) ∨
      (encodeRoom s (ctEntry s.mem sym).len.toNat ≤ freeRoom s ∧
        encSymBody sym s = emitCodeword (ctEntry s.mem sym) s) := by
  simp only [encSymBody]
  split
  · exact .inl ⟨_, _, rfl⟩
  split
  · exact .inl ⟨_, _, rfl⟩
  split
  · exact .inl ⟨_, _, rfl⟩
  split
  · exact .inl ⟨_, _, rfl⟩
  · exact .inr ⟨by omega, rfl⟩

/-- ENC_BIT raises, or it has the entries it needs and writes its bit (R262). -/
theorem encBitBody_cases (b : Bool) (s : State) :
    (∃ c arg, encBitBody b s = raise c arg 0 s) ∨
      (encodeRoom s 1 ≤ freeRoom s ∧ encBitBody b s = { writeBit b s with bits := (writeBit b s).bits + 1 }) := by
  unfold encBitBody
  split
  · exact .inl ⟨_, _, rfl⟩
  · exact .inr ⟨by omega, rfl⟩

/-- ENC_OPEN raises, or it finds OUT empty and opens its stream (R260). -/
theorem encOpenBody_cases (s : State) :
    (∃ c arg, encOpenBody s = raise c arg 0 s) ∨
      (outCount s = 0 ∧ encOpenBody s = { s with wbuf := 0, wcnt := 0, syms := 0, bits := 0, mode := .enc }) := by
  unfold encOpenBody
  split
  · exact .inl ⟨_, _, rfl⟩
  · exact .inr ⟨by omega, rfl⟩

/-- DEC_OPEN raises, or it opens its stream with the cursor at the root it latches (R290). -/
theorem decOpenBody_cases (s : State) :
    (∃ c arg, decOpenBody s = raise c arg 0 s) ∨
      decOpenBody s =
        { s with
          rroot := s.root
          target := s.symcount
          cur := s.root
          depth := 0
          rcnt := 0
          syms := 0
          bits := 0
          mode := .dec } := by
  unfold decOpenBody
  split
  · exact .inl ⟨_, _, rfl⟩
  · exact .inr rfl

/-- DEC_END raises, or it closes the stream (R299). -/
theorem decEndBody_cases (s : State) :
    (∃ c arg, decEndBody s = raise c arg 0 s) ∨ decEndBody s = { s with mode := .idle } := by
  unfold decEndBody
  split
  · exact .inl ⟨_, _, rfl⟩
  · exact .inr rfl

/-- The mode a command leads to when it raises nothing (the last column of R122, R372). -/
def modeAfter : Instr → Mode
  | .encOpen => .enc
  | .encSym _ => .enc
  | .encBit _ => .enc
  | .encFinish => .idle
  | .decOpen => .dec
  | .decByte _ => .dec
  | .decEnd => .idle
  | .clear => .idle

theorem modeAfter_ne_error (i : Instr) : modeAfter i ≠ .error := by cases i <;> simp [modeAfter]

/-- Only CLEAR is legal in ERROR mode (R232). -/
theorem eq_clear_of_legalIn_error {i : Instr} (h : legalIn i .error = true) : i = .clear := by
  cases i <;> simp_all [legalIn]

/-- What a command's own rule makes of the mode and the error record: its tabulated mode and the record as it was, CLEAR's
with the record cleared, or ERROR mode with one of R361's records. -/
inductive BodyOutcome (i : Instr) (s t : State) : Prop where
  | completed (other : i ≠ .clear) (mode : t.mode = modeAfter i) (error : t.error = s.error)
  | cleared (clear : i = .clear) (mode : t.mode = .idle) (error : t.error = ErrorRecord.none)
  | raised (noError : s.mode ≠ .error) (mode : t.mode = .error) (error : ∃ c arg j, t.error = errorRecord c arg j)

theorem bodyOutcome_raise (i : Instr) {s : State} (hs : s.mode ≠ .error) (c : ErrorCause) (arg : Byte) (j : BitVec 3)
    (u : State) : BodyOutcome i s (raise c arg j u) := .raised hs rfl ⟨c, arg, j, rfl⟩

/-- The outcome speaks of the mode and the error record only. -/
theorem BodyOutcome.of_frame {i : Instr} {s t u : State} (h : BodyOutcome i s t) (hmode : u.mode = t.mode)
    (herror : u.error = t.error) : BodyOutcome i s u := by
  cases h with
  | completed other mode error => exact .completed other (hmode.trans mode) (herror.trans error)
  | cleared clear mode error => exact .cleared clear (hmode.trans mode) (herror.trans error)
  | raised noError mode error => exact .raised noError (hmode.trans mode) (herror ▸ error)

theorem BodyOutcome.mode_ne_dec {i : Instr} {s t : State} (h : BodyOutcome i s t) (hi : modeAfter i ≠ .dec) :
    t.mode ≠ .dec := by
  cases h with
  | completed other mode error => exact mode ▸ hi
  | cleared clear mode error => simp [mode]
  | raised noError mode error => simp [mode]

theorem bodyOutcome_decByteBody (v : Byte) {s : State} (hm : s.mode = .dec) :
    BodyOutcome (.decByte v) s (decByteBody v s) := by
  have hs : s.mode ≠ .error := by simp [hm]
  refine decByteBody_keeps (fun c arg => bodyOutcome_raise _ hs c arg 0 s) (fun _ _ => .completed (by simp) hm rfl)
    (fun bit i _ _ h hw => ?_) (fun c i _ => bodyOutcome_raise _ hs c v i _) (fun _ h => h.of_frame rfl rfl)
  obtain ⟨sym, rfl⟩ | ⟨sym, rfl⟩ | ⟨k, l, r, -, -, rfl⟩ := walkStep_running hw <;> exact h.of_frame rfl rfl

theorem bodyOutcome_commandBody {s : State} (i : Instr) (hl : legalIn i s.mode = true) :
    BodyOutcome i s (commandBody i s) := by
  cases i <;> simp only [legalIn, decide_eq_true_eq, Bool.or_eq_true] at hl
  case encOpen =>
    obtain ⟨c, arg, e⟩ | ⟨-, e⟩ := encOpenBody_cases s <;> rw [commandBody, e]
    · exact bodyOutcome_raise _ (by simp [hl]) _ _ _ _
    · exact .completed (by simp) rfl rfl
  case encSym sym =>
    obtain ⟨c, arg, e⟩ | ⟨-, e⟩ := encSymBody_cases sym s <;> rw [commandBody, e]
    · exact bodyOutcome_raise _ (by simp [hl]) _ _ _ _
    · exact .completed (by simp) ((writeCode_mode _ _ s).trans hl) (writeCode_error _ _ s)
  case encBit b =>
    obtain ⟨c, arg, e⟩ | ⟨-, e⟩ := encBitBody_cases b s <;> rw [commandBody, e]
    · exact bodyOutcome_raise _ (by simp [hl]) _ _ _ _
    · exact .completed (by simp) ((writeBit_mode b s).trans hl) (writeBit_error b s)
  case encFinish => exact .completed (by simp) rfl (finish_error s)
  case decOpen =>
    obtain ⟨c, arg, e⟩ | e := decOpenBody_cases s <;> rw [commandBody, e]
    · exact bodyOutcome_raise _ (by simp [hl]) _ _ _ _
    · exact .completed (by simp) rfl rfl
  case decByte v => exact bodyOutcome_decByteBody v hl
  case decEnd =>
    obtain ⟨c, arg, e⟩ | e := decEndBody_cases s <;> rw [commandBody, e]
    · exact bodyOutcome_raise _ (by simp [hl]) _ _ _ _
    · exact .completed (by simp) rfl rfl
  case clear => exact .cleared rfl rfl rfl

/-- A word is its opcode field and the 24 bits above it (R121). -/
theorem toNat_eq_opcodeField_add (w : Word) :
    w.toNat = (opcodeField w).toNat + 256 * (w.extractLsb' 8 24).toNat := by
  have hw := w.isLt
  simp only [opcodeField, BitVec.extractLsb'_toNat, Nat.shiftRight_eq_div_pow]
  omega

/-- A command's word is its opcode plus 256 times its operand (R123). -/
theorem toNat_encode (i : Instr) : (encode i).toNat = i.opcode.toNat + 256 * i.operand := by
  cases i with
  | encOpen => exact Laws.Encodes.encOpen.2.1
  | encSym sym => exact (Laws.Encodes.encSym sym).2.1
  | encBit b => exact (Laws.Encodes.encBit b).2.1
  | encFinish => exact Laws.Encodes.encFinish.2.1
  | decOpen => exact Laws.Encodes.decOpen.2.1
  | decByte v => exact (Laws.Encodes.decByte v).2.1
  | decEnd => exact Laws.Encodes.decEnd.2.1
  | clear => exact Laws.Encodes.clear.2.1

/-- A word with a command's opcode and its operand above it is the command's word. -/
theorem eq_encode_of_fields {w : Word} {i : Instr} (hop : opcodeField w = i.opcode)
    (hoperand : (w.extractLsb' 8 24).toNat = i.operand) : w = encode i := by
  apply BitVec.eq_of_toNat_eq
  rw [toNat_eq_opcodeField_add, toNat_encode, hop, hoperand]

/-- Format F0 checks every bit above the opcode (R121). -/
theorem eq_encode_of_decodeF0 {i j : Instr} {w : Word} (h : decodeF0 i w = .command j) (hop : opcodeField w = i.opcode)
    (hi : i.operand = 0) : w = encode j := by
  unfold decodeF0 at h
  split at h
  · next hz =>
    obtain rfl : i = j := by simpa using h
    exact eq_encode_of_fields hop (by simp [hz, hi])
  · cases h

/-- Format F8 reads bits 15:8 and checks the bits above (R121). -/
theorem eq_encode_of_decodeF8 {build : Byte → Instr} {j : Instr} {w : Word} (h : decodeF8 build w = .command j)
    (hop : ∀ b, opcodeField w = (build b).opcode) (hi : ∀ b, (build b).operand = b.toNat) : w = encode j := by
  unfold decodeF8 at h
  split at h
  · next hz =>
    obtain rfl : build (byteOperand w) = j := by simpa using h
    refine eq_encode_of_fields (hop _) ?_
    have hw := w.isLt
    have hhigh : (w.extractLsb' 16 16).toNat = 0 := by simp [hz]
    rw [hi]
    simp only [byteOperand, BitVec.extractLsb'_toNat, Nat.shiftRight_eq_div_pow] at hhigh ⊢
    omega
  · cases h

theorem toNat_bitOperand (w : Word) : (bitOperand w).toNat = w.toNat / 2 ^ 8 % 2 := by
  rw [bitOperand, BitVec.getLsbD, Nat.toNat_testBit]

/-- Format F1 reads bit 8 and checks the bits above (R121). -/
theorem eq_encode_of_decodeF1 {build : Bool → Instr} {j : Instr} {w : Word} (h : decodeF1 build w = .command j)
    (hop : ∀ b, opcodeField w = (build b).opcode) (hi : ∀ b, (build b).operand = b.toNat) : w = encode j := by
  unfold decodeF1 at h
  split at h
  · next hz =>
    obtain rfl : build (bitOperand w) = j := by simpa using h
    refine eq_encode_of_fields (hop _) ?_
    have hw := w.isLt
    have hhigh : (w.extractLsb' 9 23).toNat = 0 := by simp [hz]
    rw [hi, toNat_bitOperand]
    simp only [BitVec.extractLsb'_toNat, Nat.shiftRight_eq_div_pow] at hhigh ⊢
    omega
  · cases h

/-- A word that decodes is the encoding of its command: the decoder reads every operand bit and checks every other bit
(R121 to R123). -/
theorem eq_encode_of_decode {w : Word} {i : Instr} (h : decode w = .command i) : w = encode i := by
  unfold decode at h
  split at h
  · next hop => exact eq_encode_of_decodeF0 h hop rfl
  split at h
  · next hop => exact eq_encode_of_decodeF8 h (fun _ => hop) (fun _ => rfl)
  split at h
  · next hop => exact eq_encode_of_decodeF1 h (fun _ => hop) (fun _ => rfl)
  split at h
  · next hop => exact eq_encode_of_decodeF0 h hop rfl
  split at h
  · next hop => exact eq_encode_of_decodeF0 h hop rfl
  split at h
  · next hop => exact eq_encode_of_decodeF8 h (fun _ => hop) (fun _ => rfl)
  split at h
  · next hop => exact eq_encode_of_decodeF0 h hop rfl
  split at h
  · next hop => exact eq_encode_of_decodeF0 h hop rfl
  · cases h

end Sys2Proof.Machine
end

section
/-! PROOF. The BitWriter's bounds and OUT's over every step (R49, R54, R237). -/

namespace Sys2Proof.Machine

open Sys2Proof Sys2Proof.Safety

/-- The BitWriter's bounds and OUT's together: a room check speaks of both (R236, R237). -/
def outputGood (s : State) : Prop := writerGood s ∧ roomGood s

/-- Outside ENC mode the invariant asks for an empty BitWriter and no more than OUT_DEPTH entries. -/
theorem outputGood_of_not_enc {s : State} (hm : s.mode ≠ .enc) (hp : s.params.wf) (hc : s.wcnt = 0) (hb : s.wbuf = 0)
    (ho : outCount s ≤ s.params.outDepth.toNat) : outputGood s :=
  ⟨⟨by simp [hc], by simp [hc, hb], fun _ => ⟨hc, hb⟩⟩, hp, ho, fun he => absurd he hm⟩

/-- A BitWriter without pending bits has an empty WBUF (R49). -/
theorem wbuf_eq_zero_of_wcnt {s : State} (h : writerGood s) (hc : s.wcnt = 0) : s.wbuf = 0 := by
  have hlt := h.2.1
  rw [hc] at hlt
  exact BitVec.eq_of_toNat_eq (by simpa using hlt)

/-- `write_bit` keeps WBUF below 2^WCNT (R49, R200). -/
theorem writeBit_wbuf_lt (b : Bool) {s : State} (hc : s.wcnt.toNat ≤ 7) (hb : s.wbuf.toNat < 2 ^ s.wcnt.toNat) :
    (writeBit b s).wbuf.toNat < 2 ^ (writeBit b s).wcnt.toNat := by
  have hcount := (writeBit_count b s hc).1
  by_cases h8 : s.wcnt + 1 = 8
  · rw [writeBit, if_pos h8]
    exact Nat.one_pos
  · have hne : s.wcnt.toNat ≠ 7 := fun e => h8 (by rw [← BitVec.toNat_inj]; simp; omega)
    have hbuf : (writeBit b s).wbuf = (s.wbuf <<< 1) ||| (BitVec.ofBool b).setWidth 8 := by rw [writeBit, if_neg h8]
    rw [hcount, hbuf, Nat.mod_eq_of_lt (by omega), BitVec.toNat_or]
    apply Nat.or_lt_two_pow
    · rw [BitVec.toNat_shiftLeft, Nat.shiftLeft_eq, pow_succ]
      exact lt_of_le_of_lt (Nat.mod_le _ _) (by omega)
    · have hbit : ((BitVec.ofBool b).setWidth 8).toNat < 2 := by cases b <;> decide
      exact lt_of_lt_of_le hbit (Nat.le_self_pow (by omega) 2)

theorem writerGood_writeBit (b : Bool) {s : State} (hm : s.mode = .enc) (h : writerGood s) :
    writerGood (writeBit b s) := by
  obtain ⟨hc, hb, -⟩ := h
  have hcount := (writeBit_count b s hc).1
  exact ⟨by omega, writeBit_wbuf_lt b hc hb, fun hne => absurd hm (by simpa using hne)⟩

theorem writerGood_writeCode (c : CodeValue) (n : Nat) {s : State} (hm : s.mode = .enc) (h : writerGood s) :
    writerGood (writeCode c n s) := by
  induction n generalizing s with
  | zero => exact h
  | succ n ih => exact ih (by simpa using hm) (writerGood_writeBit _ hm h)

/-- `finish()` finds the entry kept for it in ENC mode (R54, R202, R237). -/
theorem outputGood_finish_closed {s t : State} (hm : s.mode = .enc) (h : outputGood s)
    (hparams : t.params = s.params) (hmode : t.mode ≠ .enc) (hwcnt : t.wcnt = (finish s).wcnt)
    (hwbuf : t.wbuf = (finish s).wbuf) (hout : outCount t = outCount (finish s)) : outputGood t := by
  obtain ⟨hw, hp, -, hroom⟩ := h
  have hlast := hroom hm
  have hpushed := finish_outCount s
  refine outputGood_of_not_enc hmode (hparams ▸ hp) (hwcnt.trans (finish_wcnt s))
    (hwbuf.trans (finish_wbuf s (wbuf_eq_zero_of_wcnt hw))) ?_
  rw [hparams, hout, hpushed]
  split <;> omega

/-- Error entry keeps the bounds: in ENC mode it flushes into the entry kept for it, else it pushes nothing (R366). -/
theorem outputGood_raise (c : ErrorCause) (arg : Byte) (i : BitVec 3) {s : State} (h : outputGood s) :
    outputGood (raise c arg i s) := by
  by_cases hm : s.mode = .enc
  · exact outputGood_finish_closed hm h (by simp) (by simp) (by simp [raise_of_enc hm]) (by simp [raise_of_enc hm])
      (by simp [raise_of_enc hm, outCount])
  · obtain ⟨⟨-, -, hempty⟩, hp, ho, -⟩ := h
    obtain ⟨hc, hb⟩ := hempty hm
    rw [raise_of_not_enc hm]
    exact outputGood_of_not_enc (by simp) hp hc hb ho

/-- Bits written in ENC mode within the room R236 asks for leave the entry for the flush free (R237). -/
theorem outputGood_of_room {s t : State} {n : Nat} (hm : s.mode = .enc) (h : outputGood s) (hw : writerGood t)
    (hroom : encodeRoom s n ≤ freeRoom s) (hparams : t.params = s.params)
    (hout : outCount t = outCount s + (s.wcnt.toNat + n) / 8) : outputGood t := by
  obtain ⟨-, hp, -, hflush⟩ := h
  have hlast := hflush hm
  unfold encodeRoom freeRoom at hroom
  refine ⟨hw, hparams ▸ hp, ?_, fun _ => ?_⟩ <;> rw [hparams] <;> omega

theorem outputGood_encOpenBody {s : State} (h : outputGood s) : outputGood (encOpenBody s) := by
  obtain ⟨c, arg, e⟩ | ⟨hout, e⟩ := encOpenBody_cases s <;> rw [e]
  · exact outputGood_raise _ _ _ h
  · obtain ⟨-, hp, -, -⟩ := h
    have hdepth := hp.2
    refine ⟨⟨by simp, by simp, fun _ => ⟨rfl, rfl⟩⟩, hp, ?_, fun _ => ?_⟩
    · show outCount s ≤ s.params.outDepth.toNat
      omega
    · show outCount s + 1 ≤ s.params.outDepth.toNat
      omega

theorem outputGood_encSymBody (sym : Byte) {s : State} (hm : s.mode = .enc) (h : outputGood s) :
    outputGood (encSymBody sym s) := by
  obtain ⟨c, arg, e⟩ | ⟨hroom, e⟩ := encSymBody_cases sym s <;> rw [e]
  · exact outputGood_raise _ _ _ h
  · exact outputGood_of_room hm h (writerGood_writeCode _ _ hm h.1) hroom (writeCode_params _ _ s)
      (writeCode_count _ _ s h.1.1).2

theorem outputGood_encBitBody (b : Bool) {s : State} (hm : s.mode = .enc) (h : outputGood s) :
    outputGood (encBitBody b s) := by
  obtain ⟨c, arg, e⟩ | ⟨hroom, e⟩ := encBitBody_cases b s <;> rw [e]
  · exact outputGood_raise _ _ _ h
  · exact outputGood_of_room hm h (writerGood_writeBit _ hm h.1) hroom (writeBit_params _ s)
      (writeBit_count _ s h.1.1).2

theorem outputGood_encFinishBody {s : State} (hm : s.mode = .enc) (h : outputGood s) : outputGood (encFinishBody s) :=
  outputGood_finish_closed hm h (finish_params s) (by simp [encFinishBody]) rfl rfl rfl

/-- Outside ENC mode a change of the engine's registers but for the BitWriter's keeps the bounds. -/
theorem outputGood_of_frame {s t : State} (hs : s.mode ≠ .enc) (ht : t.mode ≠ .enc) (h : outputGood s)
    (hparams : t.params = s.params) (hwcnt : t.wcnt = s.wcnt) (hwbuf : t.wbuf = s.wbuf) (hout : t.out = s.out) :
    outputGood t := by
  obtain ⟨⟨-, -, hempty⟩, hp, ho, -⟩ := h
  obtain ⟨hc, hb⟩ := hempty hs
  exact outputGood_of_not_enc ht (hparams ▸ hp) (hwcnt.trans hc) (hwbuf.trans hb)
    (by rw [hparams, outCount, hout]; exact ho)

/-- Inside a DEC_BYTE: OUT has room for every symbol the rest of the operand may still emit, which is at most one a bit and
no more than the count asks for (R236, R291). -/
def operandFits (s : State) : Prop :=
  s.mode ≠ .enc ∧ s.params.wf ∧ s.wcnt = 0 ∧ s.wbuf = 0 ∧
    outCount s + min s.rcnt.toNat (s.target - s.syms).toNat ≤ s.params.outDepth.toNat

theorem outputGood_of_operandFits {s : State} (h : operandFits s) : outputGood s := by
  obtain ⟨hm, hp, hc, hb, ho⟩ := h
  exact outputGood_of_not_enc hm hp hc hb (by omega)

/-- With no bit of the operand left nothing more can be emitted (R293, R366). -/
theorem operandFits_of_rcnt_zero {s : State} (hm : s.mode ≠ .enc) (hr : s.rcnt = 0) (h : outputGood s) :
    operandFits s := by
  obtain ⟨⟨-, -, hempty⟩, hp, ho, -⟩ := h
  obtain ⟨hc, hb⟩ := hempty hm
  refine ⟨hm, hp, hc, hb, ?_⟩
  simpa [hr] using ho

theorem toNat_sub_one_of_ne_zero {x : BitVec 4} (h : x ≠ 0) : (x - 1).toNat + 1 = x.toNat := by bv_omega

theorem toNat_sub_add_one_of_ne {syms target : Count} (h : syms ≠ target) :
    (target - (syms + 1)).toNat + 1 = (target - syms).toNat := by bv_omega

/-- A symbol emitted at a bit read takes one entry of the room, one bit and one of the count. -/
theorem room_after_symbol {s : State} {room : Nat} (hr : s.rcnt ≠ 0) (hne : s.syms ≠ s.target) (sym : Byte)
    (h : outCount s + min s.rcnt.toNat (s.target - s.syms).toNat ≤ room) :
    (s.out ++ [sym]).length + min (s.rcnt - 1).toNat (s.target - (s.syms + 1)).toNat ≤ room := by
  have hrcnt := toNat_sub_one_of_ne_zero hr
  have hleft := toNat_sub_add_one_of_ne hne
  rw [List.length_append, List.length_singleton]
  unfold outCount at h
  omega

/-- A bit takes no more than its share of the room: it emits at most one symbol (R294). -/
theorem operandFits_walkStep {bit : Bool} {v : Byte} {i : BitVec 3} {s t : State} (hr : s.rcnt ≠ 0)
    (hne : s.syms ≠ s.target) (h : operandFits s) (hw : walkStep bit v i (consumeBit s) = .running t) :
    operandFits t := by
  obtain ⟨hm, hp, hc, hb, ho⟩ := h
  obtain ⟨sym, rfl⟩ | ⟨sym, rfl⟩ | ⟨k, l, r, -, -, rfl⟩ := walkStep_running hw <;>
    refine ⟨hm, hp, hc, hb, ?_⟩
  · exact room_after_symbol hr hne sym ho
  · exact room_after_symbol hr hne sym ho
  · have hrcnt := toNat_sub_one_of_ne_zero hr
    show s.out.length + min (s.rcnt - 1).toNat (s.target - s.syms).toNat ≤ s.params.outDepth.toNat
    unfold outCount at ho
    omega

theorem outputGood_decByteBody (v : Byte) {s : State} (hm : s.mode = .dec) (h : outputGood s) :
    outputGood (decByteBody v s) := by
  have hne : s.mode ≠ .enc := by simp [hm]
  refine outputGood_of_operandFits (decByteBody_keeps (fun c arg => ?_) (fun _ hroom => ?_)
    (fun _ _ => operandFits_walkStep) (fun c i h => ?_) (fun _ h => ?_))
  · exact operandFits_of_rcnt_zero (by simp) rfl (outputGood_raise c arg 0 h)
  · obtain ⟨⟨-, -, hempty⟩, hp, ho, -⟩ := h
    obtain ⟨hc, hb⟩ := hempty hne
    refine ⟨hne, hp, hc, hb, ?_⟩
    unfold decodeRoom freeRoom at hroom
    show outCount s + min 8 (s.target - s.syms).toNat ≤ s.params.outDepth.toNat
    omega
  · exact operandFits_of_rcnt_zero (by simp) rfl (outputGood_raise c v i (outputGood_of_operandFits h))
  · exact operandFits_of_rcnt_zero h.1 rfl
      (outputGood_of_frame h.1 h.1 (outputGood_of_operandFits h) rfl rfl rfl rfl)

/-- Every command keeps the BitWriter's bounds and OUT's in the modes it is legal in. -/
theorem outputGood_commandBody {s : State} (i : Instr) (hl : legalIn i s.mode = true) (h : outputGood s) :
    outputGood (commandBody i s) := by
  cases i <;> simp only [legalIn, decide_eq_true_eq, Bool.or_eq_true] at hl
  case encOpen => exact outputGood_encOpenBody h
  case encSym sym => exact outputGood_encSymBody sym hl h
  case encBit b => exact outputGood_encBitBody b hl h
  case encFinish => exact outputGood_encFinishBody hl h
  case decOpen =>
    obtain ⟨c, arg, e⟩ | e := decOpenBody_cases s <;> rw [commandBody, e]
    · exact outputGood_raise _ _ _ h
    · exact outputGood_of_frame (by simp [hl]) (by simp) h rfl rfl rfl rfl
  case decByte v => exact outputGood_decByteBody v hl h
  case decEnd =>
    obtain ⟨c, arg, e⟩ | e := decEndBody_cases s <;> rw [commandBody, e]
    · exact outputGood_raise _ _ _ h
    · exact outputGood_of_frame (by simp [hl]) (by simp) h rfl rfl rfl rfl
  case clear =>
    exact outputGood_of_frame (by rcases hl with hl | hl <;> simp [hl]) (by simp [commandBody]) h rfl rfl rfl rfl

theorem outputGood_host {s t : State} (k : EngineKept s t) (h : outputGood s) : outputGood t := by
  obtain ⟨⟨hc, hb, hempty⟩, hp, ho, hroom⟩ := h
  have hle := k.outCount_le
  refine ⟨?_, ?_⟩
  · unfold writerGood
    rw [k.wcnt, k.wbuf, k.mode]
    exact ⟨hc, hb, hempty⟩
  · unfold roomGood
    rw [k.params, k.mode]
    exact ⟨hp, hle.trans ho, fun hm => (Nat.succ_le_succ hle).trans (hroom hm)⟩

theorem outputGood_resetBlock {s : State} (h : outputGood s) : outputGood (resetBlock s) :=
  outputGood_of_not_enc (by simp) h.2.1 rfl rfl (Nat.zero_le _)

/-- Settles O33: every part of a step keeps the BitWriter's bounds and OUT's, the walk of a DEC_BYTE through
`operandFits`. -/
theorem writerAndRoomStayGood : Obligations.WriterAndRoomStayGood := fun _ _ h hw hr =>
  step_keeps outputGood_host (fun c arg i h => outputGood_raise c arg i h) outputGood_commandBody
    outputGood_resetBlock h ⟨hw, hr⟩

end Sys2Proof.Machine
end

section
/-! PROOF. The cursor and the count over every step (R51, R294, R296). -/

namespace Sys2Proof.Machine

open Sys2Proof Sys2Proof.Safety

theorem cursorGood_of_not_dec {s : State} (h : s.mode ≠ .dec) : cursorGood s := fun hm => absurd hm h

/-- The invariant speaks of the mode, the cursor's registers, the counts and the nodes only. -/
theorem cursorGood_of_frame {s t : State} (h : cursorGood s) (hmode : t.mode = s.mode) (hcur : t.cur = s.cur)
    (hrroot : t.rroot = s.rroot) (hdepth : t.depth = s.depth) (hsyms : t.syms = s.syms) (htarget : t.target = s.target)
    (hnodes : s.mode = .dec → ∀ i, nodeAt t.mem i = nodeAt s.mem i) : cursorGood t := by
  intro hm
  rw [hmode] at hm
  rw [hcur, hrroot, hdepth, hsyms, htarget, hnodes hm]
  exact h hm

/-- A symbol emitted before the count is reached does not pass it (R291, R294). -/
theorem syms_add_one_le {syms target : Count} (hne : syms ≠ target) (h : syms.toNat ≤ target.toNat) :
    (syms + 1).toNat ≤ target.toNat := by bv_omega

/-- A bit leaves the cursor, takes it to the root, or takes it one edge further to an INTERNAL node (R294, R296). -/
theorem cursorGood_walkStep {bit : Bool} {v : Byte} {i : BitVec 3} {s t : State} (hne : s.syms ≠ s.target)
    (h : cursorGood s) (hw : walkStep bit v i (consumeBit s) = .running t) : cursorGood t := by
  intro hm
  obtain ⟨sym, rfl⟩ | ⟨sym, rfl⟩ | ⟨k, l, r, hk, hd, rfl⟩ := walkStep_running hw <;> obtain ⟨hcur, hsyms⟩ := h hm
  · exact ⟨hcur, syms_add_one_le hne hsyms⟩
  · exact ⟨.inl ⟨rfl, rfl⟩, syms_add_one_le hne hsyms⟩
  · have hdepth : (s.depth + 1).toNat = s.depth.toNat + 1 := by
      simp only [Config.depthLimit, consumeBit_depth] at hd
      rw [BitVec.toNat_add]
      simp
      omega
    refine ⟨.inr ⟨?_, ?_, l, r, hk⟩, hsyms⟩
    · show 1 ≤ (s.depth + 1).toNat
      omega
    · show (s.depth + 1).toNat + 1 ≤ _
      simp only [Config.depthLimit, consumeBit_depth] at hd ⊢
      omega

theorem cursorGood_decByteBody (v : Byte) {s : State} (h : cursorGood s) : cursorGood (decByteBody v s) :=
  decByteBody_keeps (fun _ _ => cursorGood_of_not_dec (by simp)) (fun _ _ => h) (fun _ _ _ => cursorGood_walkStep)
    (fun _ _ _ => cursorGood_of_not_dec (by simp)) (fun _ h => h)

/-- Only DEC_OPEN and DEC_BYTE end in DEC mode: the first puts the cursor on the root it latches (R290), the second walks
(R291). -/
theorem cursorGood_commandBody {s : State} (i : Instr) (hl : legalIn i s.mode = true) (h : cursorGood s) :
    cursorGood (commandBody i s) := by
  cases i
  case decOpen =>
    obtain ⟨c, arg, e⟩ | e := decOpenBody_cases s <;> rw [commandBody, e]
    · exact cursorGood_of_not_dec (by simp)
    · exact fun _ => ⟨.inl ⟨rfl, rfl⟩, Nat.zero_le _⟩
  case decByte v => exact cursorGood_decByteBody v h
  all_goals exact cursorGood_of_not_dec ((bodyOutcome_commandBody _ hl).mode_ne_dec (by simp [modeAfter]))

theorem cursorGood_host {s t : State} (k : EngineKept s t) (h : cursorGood s) : cursorGood t :=
  cursorGood_of_frame h k.mode k.cur k.rroot k.depth k.syms k.target k.nodes

/-- Settles O36: the walk of a DEC_BYTE moves the cursor only to the root or to an INTERNAL child, and while the cursor is
live NODE RAM is locked. -/
theorem cursorStaysOnTheTree : Obligations.CursorStaysOnTheTree := fun _ _ h =>
  step_keeps cursorGood_host (fun _ _ _ _ => cursorGood_of_not_dec (by simp)) cursorGood_commandBody
    (fun _ => cursorGood_of_not_dec (by simp)) h

end Sys2Proof.Machine
end

section
/-! PROOF. MODE, the error record and the BitReader over every step (R37, R41, R50, R56). -/

namespace Sys2Proof.Machine

open Sys2Proof Sys2Proof.Safety

theorem errorGood_commandBody {s : State} (i : Instr) (hl : legalIn i s.mode = true) (h : errorGood s) :
    errorGood (commandBody i s) := by
  cases bodyOutcome_commandBody i hl with
  | completed other mode error =>
    have hs : s.mode ≠ .error := fun he => other (eq_clear_of_legalIn_error (he ▸ hl))
    exact ⟨fun he => absurd (mode.symm.trans he) (modeAfter_ne_error i), fun _ => error.trans (h.2 hs)⟩
  | cleared clear mode error => exact ⟨fun he => by simp [mode] at he, fun _ => error⟩
  | raised noError mode error => exact ⟨fun _ => error, fun hne => absurd mode hne⟩

theorem errorGood_host {s t : State} (k : EngineKept s t) (h : errorGood s) : errorGood t := by
  unfold errorGood
  rw [k.mode, k.error]
  exact h

/-- Settles O35: a command ends in ERROR mode exactly when it raised, and then the record is the one it raised. -/
theorem errorRecordMatchesMode : Obligations.ErrorRecordMatchesMode := fun _ _ h =>
  step_keeps errorGood_host (fun c arg i _ => ⟨fun _ => ⟨c, arg, i, rfl⟩, fun hne => absurd rfl hne⟩)
    errorGood_commandBody (fun _ => ⟨fun he => by simp at he, fun _ => rfl⟩) h

/-- Settles O12: in ERROR mode the engine runs CLEAR and drops every other word, and no host access but reset reaches the
record. -/
theorem firstErrorIsKept : Obligations.FirstErrorIsKept := by
  intro s t hs h
  cases step_outcome h with
  | command i turn word legal =>
    obtain rfl := eq_clear_of_legalIn_error (hs ▸ legal)
    exact .inr ⟨rfl, rfl, .inl ⟨turn, eq_encode_of_decode word⟩⟩
  | dropped turn inError => exact .inl ⟨hs, rfl⟩
  | rejected c arg turn noError => exact absurd hs noError
  | host _ turn kept => exact .inl ⟨kept.mode.trans hs, kept.error⟩
  | reset rest turn next => exact .inr ⟨rfl, rfl, .inr ⟨turn, by simp [next]⟩⟩

/-- The commands other than CLEAR that lead out of the mode they are legal in (R37, R372). -/
theorem modeAfter_of_legalIn {i : Instr} {m : Mode} (hl : legalIn i m = true) (hne : modeAfter i ≠ m)
    (hi : i ≠ .clear) :
    (m = .idle ∧ i = .encOpen) ∨ (m = .idle ∧ i = .decOpen) ∨ (m = .enc ∧ i = .encFinish) ∨
      (m = .dec ∧ i = .decEnd) := by
  cases i <;> simp_all [legalIn, modeAfter]

/-- Settles O13: each command leads to its tabulated mode or raises, and no host access but reset reaches MODE. -/
theorem modeMovesOnlyAsTabulated : Obligations.ModeMovesOnlyAsTabulated := by
  intro s t h hne
  cases step_outcome h with
  | command i turn word legal =>
    refine .inr ⟨turn, ?_⟩
    have hword := eq_encode_of_decode word
    rw [retire_mode] at hne ⊢
    cases bodyOutcome_commandBody i legal with
    | completed other mode error =>
      rw [mode] at hne ⊢
      obtain ⟨hs, rfl⟩ | ⟨hs, rfl⟩ | ⟨hs, rfl⟩ | ⟨hs, rfl⟩ := modeAfter_of_legalIn legal hne other
      · exact .inl ⟨hs, hword, rfl⟩
      · exact .inr (.inl ⟨hs, hword, rfl⟩)
      · exact .inr (.inr (.inl ⟨hs, hword, rfl⟩))
      · exact .inr (.inr (.inr (.inl ⟨hs, hword, rfl⟩)))
    | cleared clear mode error =>
      subst clear
      have hs : s.mode = .error := by simpa [legalIn, ← mode, hne.symm] using legal
      exact .inr (.inr (.inr (.inr (.inl ⟨hs, hword, mode⟩))))
    | raised noError mode error => exact .inr (.inr (.inr (.inr (.inr ⟨noError, mode⟩))))
  | dropped turn inError => exact absurd rfl hne
  | rejected c arg turn noError => exact .inr ⟨turn, by simp [noError]⟩
  | host _ turn kept => exact absurd kept.mode hne
  | reset rest turn next => exact .inl ⟨turn, by simp [next], rfl⟩

/-- Fuel for the bits that are left is enough: the walk ends with the operand used up or the count reached (R291). -/
theorem walkBits_running_ends {v : Byte} {n : Nat} {s t : State} (hn : s.rcnt.toNat ≤ n)
    (h : walkBits v n s = .running t) : t.rcnt = 0 ∨ t.syms = t.target := by
  induction n generalizing s with
  | zero =>
    rw [walkBits, Walk.running.injEq] at h
    subst h
    exact .inl (BitVec.eq_of_toNat_eq (by simpa using hn))
  | succ n ih =>
    rw [walkBits] at h
    split at h
    · next hstop =>
      rw [Walk.running.injEq] at h
      exact h ▸ hstop
    · next hgo =>
      split at h
      · next u hu =>
        have hrcnt : u.rcnt = s.rcnt - 1 := by
          obtain ⟨sym, rfl⟩ | ⟨sym, rfl⟩ | ⟨k, l, r, -, -, rfl⟩ := walkStep_running hu <;> rfl
        have hless := toNat_sub_one_of_ne_zero (not_or.mp hgo).1
        exact ih (by rw [hrcnt]; omega) h
      · cases h

/-- A walk that raises ends with error entry (R366). -/
theorem walkBits_raised {v : Byte} {n : Nat} {s t : State} (h : walkBits v n s = .raised t) :
    ∃ c i u, t = raise c v i u := by
  induction n generalizing s with
  | zero => cases h
  | succ n ih =>
    rw [walkBits] at h
    split at h
    · cases h
    · split at h
      · exact ih h
      · next u hu =>
        rw [Walk.raised.injEq] at h
        obtain ⟨c, e⟩ := walkStep_raised hu
        exact ⟨c, _, _, h ▸ e⟩

/-- DEC_BYTE leaves no bit of its operand: it raises, it reads them all, or it discards the padding (R291, R293, R366). -/
theorem readerIdle_decByteBody (v : Byte) (s : State) : readerIdle (decByteBody v s) := by
  unfold decByteBody
  split
  · rfl
  split
  · rfl
  split
  · next t ht =>
    have hends := walkBits_running_ends (by simp) ht
    obtain ⟨j, e⟩ | ⟨-, e⟩ | ⟨hleft, e⟩ := finishByte_cases v t <;> rw [e]
    · rfl
    · rfl
    · exact hends.elim id fun hs => by_contra fun hr => hleft ⟨hs, hr⟩
  · next t ht =>
    obtain ⟨c, i, u, rfl⟩ := walkBits_raised ht
    rfl

theorem readerIdle_commandBody {s : State} (i : Instr) (h : readerIdle s) : readerIdle (commandBody i s) := by
  unfold readerIdle at h ⊢
  cases i with
  | encOpen =>
    obtain ⟨c, arg, e⟩ | ⟨-, e⟩ := encOpenBody_cases s <;> rw [commandBody, e]
    · rfl
    · exact h
  | encSym sym =>
    obtain ⟨c, arg, e⟩ | ⟨-, e⟩ := encSymBody_cases sym s <;> rw [commandBody, e]
    · rfl
    · exact (writeCode_rcnt _ _ s).trans h
  | encBit b =>
    obtain ⟨c, arg, e⟩ | ⟨-, e⟩ := encBitBody_cases b s <;> rw [commandBody, e]
    · rfl
    · exact (writeBit_rcnt b s).trans h
  | encFinish => exact (finish_rcnt s).trans h
  | decOpen =>
    obtain ⟨c, arg, e⟩ | e := decOpenBody_cases s
    · rw [commandBody, e]
      rfl
    · rw [commandBody, e]
  | decByte v => exact readerIdle_decByteBody v s
  | decEnd =>
    obtain ⟨c, arg, e⟩ | e := decEndBody_cases s <;> rw [commandBody, e]
    · rfl
    · exact h
  | clear => exact h

/-- Settles O34: only DEC_BYTE loads an operand, and it ends with none of its bits left. -/
theorem readerIdleBetweenCommands : Obligations.ReaderIdleBetweenCommands := fun _ _ h =>
  step_keeps (P := readerIdle) (fun k h => k.rcnt.trans h) (fun _ _ _ _ => rfl) (fun i _ => readerIdle_commandBody i)
    (fun _ => rfl) h

end Sys2Proof.Machine
end

section
/-! PROOF. The registers as the host reads and writes them: DOUT, the fields of the register words, ROOT and the
counters, and the reset state with its invariants (R32 to R48, R60). -/

namespace Sys2Proof.Machine

open Sys2Proof Sys2Proof.Safety

/-- The register file is the window's first sixteen words (R32, R82). -/
theorem targetOf_register {a : Nat} (ha : a < 0x0040) : targetOf a = .reg (regOfIndex (a / 4)) := if_pos ha

/-- A read of a register but DOUT with BUSY = 0 returns its word (R332). -/
theorem busRead_register {s : State} {a : Nat} (ha : a < 0x0040) (hr : regOfIndex (a / 4) ≠ .dout)
    (hb : s.busy = false) : (busRead a s).value = regValue (regOfIndex (a / 4)) s := by
  simp [busRead, targetOf_register ha, readReg, hr, hb]

/-- A write to a register with BUSY = 0 is R334's: no register is locked. -/
theorem busWrite_register {s : State} {a : Nat} (d : Word) (ha : a < 0x0040) (hb : s.busy = false) :
    busWrite a d s = writeReg (regOfIndex (a / 4)) d s := by
  simp [busWrite, targetOf_register ha, hb, locked, Target.inCtRam, Target.inNodeRam, acceptWrite]

/-- What a read of DOUT that pops returns: VALID = 1 over the byte (R42). -/
theorem validDout_eq : ∀ v : Byte, (0#23 ++ 1#1 ++ v : Word) = 0x100 ||| v.setWidth 32 := by decide

/-- Settles O22: DOUT's read pops the head of OUT, and its write is one of those the registers ignore. -/
theorem doutReadPopsHead : Obligations.DoutReadPopsHead := by
  intro s
  have hread : busRead 0x014 s = readDout s := rfl
  refine ⟨fun v rest hb ho => ?_, fun h => ?_, fun d hb => busWrite_register d (by decide) hb, fun d hb => if_pos hb⟩
  · rw [hread, ← validDout_eq]
    simp [readDout, hb, ho]
  · rw [hread, readDout]
    obtain hb | ho := h
    · rw [if_pos hb]
    · rw [ho]
      exact ite_self _

/-! The register words are appends of their fields, so each field is one of the appended words (R34 to R48). -/

theorem configWord_fields (p : Params) :
    (configWord p).extractLsb' 0 8 = p.lmax ∧ (configWord p).extractLsb' 8 8 = p.outDepth ∧
      (configWord p).extractLsb' 16 4 = 9 ∧ (configWord p).extractLsb' 20 12 = 0 := by
  unfold configWord
  refine ⟨?_, ?_, ?_, ?_⟩ <;>
    simp (disch := decide) only [BitVec.extractLsb'_append_eq_of_le, BitVec.extractLsb'_append_eq_of_add_le] <;>
    exact BitVec.extractLsb'_eq_self

theorem bitbufWord_fields (s : State) :
    (bitbufWord s).extractLsb' 0 8 = s.wbuf ∧ (bitbufWord s).extractLsb' 8 4 = s.wcnt ∧
      (bitbufWord s).extractLsb' 12 20 = 0 := by
  unfold bitbufWord
  refine ⟨?_, ?_, ?_⟩ <;>
    simp (disch := decide) only [BitVec.extractLsb'_append_eq_of_le, BitVec.extractLsb'_append_eq_of_add_le] <;>
    exact BitVec.extractLsb'_eq_self

theorem cursorWord_fields (s : State) :
    (cursorWord s).extractLsb' 0 9 = s.cur ∧ (cursorWord s).extractLsb' 9 7 = 0 ∧
      (cursorWord s).extractLsb' 16 8 = s.depth ∧ (cursorWord s).extractLsb' 24 8 = 0 := by
  unfold cursorWord
  refine ⟨?_, ?_, ?_, ?_⟩ <;>
    simp (disch := decide) only [BitVec.extractLsb'_append_eq_of_le, BitVec.extractLsb'_append_eq_of_add_le] <;>
    exact BitVec.extractLsb'_eq_self

theorem errorWord_fields (e : ErrorRecord) :
    (errorWord e).extractLsb' 0 4 = e.kind ∧ (errorWord e).extractLsb' 4 4 = 0 ∧ (errorWord e).extractLsb' 8 8 = e.sub ∧
      (errorWord e).extractLsb' 16 8 = e.arg ∧ (errorWord e).extractLsb' 24 3 = e.bitidx ∧
      (errorWord e).extractLsb' 27 5 = 0 := by
  unfold errorWord
  refine ⟨?_, ?_, ?_, ?_, ?_, ?_⟩ <;>
    simp (disch := decide) only [BitVec.extractLsb'_append_eq_of_le, BitVec.extractLsb'_append_eq_of_add_le] <;>
    exact BitVec.extractLsb'_eq_self

theorem statusWord_fields (s : State) :
    (statusWord s).extractLsb' 0 2 = s.mode.code ∧ (statusWord s).extractLsb' 8 4 = s.wcnt ∧
      (statusWord s).extractLsb' 12 4 = 0 ∧ (statusWord s).extractLsb' 16 8 = BitVec.ofNat 8 (outCount s) ∧
      (statusWord s).extractLsb' 24 8 = 0 := by
  unfold statusWord
  refine ⟨?_, ?_, ?_, ?_, ?_⟩ <;>
    simp (disch := decide) only [BitVec.extractLsb'_append_eq_of_le, BitVec.extractLsb'_append_eq_of_add_le] <;>
    exact BitVec.extractLsb'_eq_self

theorem statusWord_flags (s : State) :
    (statusWord s).getLsbD 2 = s.busy ∧ (statusWord s).getLsbD 3 = done s ∧ (statusWord s).getLsbD 4 = s.overrun ∧
      (statusWord s).getLsbD 5 = s.lockvio ∧ (statusWord s).getLsbD 6 = outValid s ∧
      (statusWord s).getLsbD 7 = false := by
  unfold statusWord
  refine ⟨?_, ?_, ?_, ?_, ?_, ?_⟩ <;> simp only [BitVec.getLsbD_append] <;> simp

theorem highHalf_append_lowHalf (c : Count) : highHalf c ++ lowHalf c = c :=
  (BitVec.extractLsb'_append_extractLsb'_eq_extractLsb' rfl).trans BitVec.extractLsb'_eq_self

/-- Settles O25: each register's word is the append of its fields. -/
theorem registerWordsHaveTheirFields : Obligations.RegisterWordsHaveTheirFields := by
  intro s hb status error bitbuf cursor config
  have hstatus : status = statusWord s := busRead_register (by decide) (by decide) hb
  have herror : error = errorWord s.error := busRead_register (by decide) (by decide) hb
  have hbitbuf : bitbuf = bitbufWord s := busRead_register (by decide) (by decide) hb
  have hcursor : cursor = cursorWord s := busRead_register (by decide) (by decide) hb
  have hconfig : config = configWord s.params := busRead_register (by decide) (by decide) hb
  rw [hstatus, herror, hbitbuf, hcursor, hconfig]
  obtain ⟨hmode, hwcnt, hlow, hcount, hhigh⟩ := statusWord_fields s
  obtain ⟨hbusy, hdone, hoverrun, hlockvio, houtv, hgap⟩ := statusWord_flags s
  refine ⟨fun h => ?_, fun h => ?_, fun h => ?_, fun h => ?_,
    ⟨hbusy.trans hb, ?_, hoverrun, hlockvio, ?_, hgap, hwcnt, hlow, hcount, hhigh⟩, errorWord_fields s.error,
    bitbufWord_fields s, cursorWord_fields s, configWord_fields s.params,
    busRead_register (by decide) (by decide) hb, busRead_register (by decide) (by decide) hb,
    busRead_register (by decide) (by decide) hb⟩
  · rw [hmode, h]; rfl
  · rw [hmode, h]; rfl
  · rw [hmode, h]; rfl
  · rw [hmode, h]; rfl
  · rw [hdone]
    simp [done]
  · rw [houtv, outValid]
    cases s.out <;> rfl

/-- Settles O26: ROOT and the halves of SYMCOUNT take what is written, the other registers but CMD ignore it. -/
theorem rootAndCountersReadAndWrite : Obligations.RootAndCountersReadAndWrite := by
  intro s d hb
  have hwrite : ∀ a, a < 0x0040 → busWrite a d s = writeReg (regOfIndex (a / 4)) d s :=
    fun _ ha => busWrite_register d ha hb
  have hread : ∀ a, a < 0x0040 → regOfIndex (a / 4) ≠ .dout → (busRead a s).value = regValue (regOfIndex (a / 4)) s :=
    fun _ ha hr => busRead_register ha hr hb
  refine ⟨hwrite _ (by decide), hwrite _ (by decide), hwrite _ (by decide), ?_, ?_, ?_, fun a ha => ?_⟩
  · rw [hread 0x024 (by decide) (by decide), hread 0x020 (by decide) (by decide)]
    exact highHalf_append_lowHalf s.symcount
  · rw [hread 0x02C (by decide) (by decide), hread 0x028 (by decide) (by decide)]
    exact highHalf_append_lowHalf s.syms
  · rw [hread 0x034 (by decide) (by decide), hread 0x030 (by decide) (by decide)]
    exact highHalf_append_lowHalf s.bits
  · simp only [List.mem_cons, List.not_mem_nil, or_false] at ha
    rcases ha with rfl | rfl | rfl | rfl | rfl | rfl | rfl | rfl | rfl | rfl | rfl | rfl <;>
      exact hwrite _ (by decide)

/-- An empty memory reads 0 everywhere (R60). -/
theorem readWord_nil (a : Nat) : Memory.readWord [] a = 0 := by
  simp [Memory.readWord, Memory.readByte, Memory.unlisted]

/-- Settles O29: both RAMs are empty and every register is cleared, so each word reads 0 but ID and CONFIG. -/
theorem resetStateIsAsTabulated : Obligations.ResetStateIsAsTabulated := by
  intro p s config
  have hconfig : config = configWord p := rfl
  have hstatus : statusWord (State.resetWith p) = 0 := by
    simp [statusWord, outCount, outValid, done, State.resetWith, Mode.code]
  have herror : errorWord ErrorRecord.none = 0 := by decide
  have hmem : s.mem = [] := rfl
  refine ⟨rfl, rfl, rfl, rfl, rfl, rfl, rfl, rfl, rfl, rfl, rfl, rfl, rfl, rfl, rfl, rfl, rfl, rfl, rfl, rfl,
    fun sym => ?_, fun i => ?_, hstatus, herror, rfl, hconfig ▸ configWord_fields p⟩
  · simp [hmem, ctEntry, codeWord, readWord_nil]
  · exact readWord_nil _

/-- Settles O31: the reset state is in IDLE mode, and an empty block meets every bound. -/
theorem resetMeetsEveryInvariant : Obligations.ResetMeetsEveryInvariant := by
  intro p hp
  have hidle : (State.resetWith p).mode = .idle := rfl
  obtain ⟨hwriter, hroom⟩ : outputGood (State.resetWith p) :=
    outputGood_of_not_enc (by simp [hidle]) hp rfl rfl (Nat.zero_le _)
  refine ⟨⟨⟨.nil, fun c hc => ?_⟩, fun c hc => ?_⟩, hwriter, hroom, rfl, ⟨fun he => ?_, fun _ => rfl⟩,
    cursorGood_of_not_dec (by simp [hidle])⟩
  · cases hc
  · cases hc
  · cases he

end Sys2Proof.Machine
end

section
/-! PROOF. The two RAMs over every step: what a step can make of the memory, its canonical form and bounds (R82, R84, R85),
and the tables fixed during a stream (R97). -/

namespace Sys2Proof.Machine

open Sys2Proof Sys2Proof.Safety

/-- What one step makes of the memory: the engine writes neither RAM, and a host access leaves both alone, clears them by
reset, or stores one word of a RAM that the mode does not lock (R97, R334, R337, R400). -/
inductive MemOutcome (s : State) : List Host.Cell → Prop where
  | same : MemOutcome s s.mem
  | cleared (next : s.script.head? = some .reset) : MemOutcome s []
  | node (unlocked : s.mode ≠ .dec) (i : NodeIndex) (d : Word) :
      MemOutcome s (Memory.writeWord s.mem (nodeOffset i) d)
  | ct (unlocked : s.mode ≠ .enc) (sym : Byte) (w : Nat) (word : w ≤ 8) (d : Word) :
      MemOutcome s (Memory.writeWord s.mem (ctOffset sym w) d)

@[simp] theorem illegalCommand_mem (w : Word) (s : State) : (illegalCommand w s).mem = s.mem := by
  unfold illegalCommand
  split <;> simp

theorem engineStep_mem {s t : State} (h : engineStep s = .next t) : t.mem = s.mem := by
  obtain ⟨i, u, -, hu, rfl⟩ | ⟨r, -, rfl⟩ := engineStep_cases h
  · obtain ⟨-, -, -, -, -, hmem, -⟩ := exec_frame hu
    exact hmem
  · simp

theorem busRead_mem (a : Nat) (s : State) : (busRead a s).after.mem = s.mem := by
  obtain h | ⟨-, h⟩ | ⟨-, v, rest, -, -, h, -⟩ := busRead_after a s <;> rw [h]

/-- What a host write makes of the memory (R334, R336, R337). -/
theorem busWrite_memOutcome (a : Nat) (d : Word) (s : State) (rest : List HostOp) :
    MemOutcome s (busWrite a d (beginAction rest s)).mem := by
  obtain ⟨-, h⟩ | ⟨-, h | h | h | h | ⟨c, h⟩ | ⟨hm, i, h⟩ | ⟨hm, sym, w, e, hw, h⟩⟩ :=
    busWrite_cases a d (beginAction rest s) <;> rw [h]
  case inr.inr.inr.inr.inr.inr.inr => exact .ct (s := s) hm sym w hw e
  case inr.inr.inr.inr.inr.inr.inl => exact .node (s := s) hm i d
  all_goals exact .same

theorem step_memOutcome {s t : State} (h : step s = .next t) : MemOutcome s t.mem := by
  obtain ⟨-, h⟩ | ⟨-, h⟩ := step_cases h
  · exact engineStep_mem h ▸ .same
  obtain ⟨-, rfl⟩ | ⟨op, rest, hs, ⟨a, k, -, rfl⟩ | ⟨a, d, -, -, -, rfl⟩ | ⟨rfl, rfl⟩⟩ := platformStep_cases h
  · exact .same
  · rw [hear_mem, busRead_mem]
    exact .same
  · exact busWrite_memOutcome a d s rest
  · exact .cleared (by simp [hs])

/-- `memoryGood` as a property of the memory alone: canonical form, every listed byte at an offset of a RAM (R82, R84,
R85). -/
def canonicalInRam (m : List Host.Cell) : Prop := Memory.wf m ∧ ∀ c ∈ m, inRam c.1 = true

theorem canonicalInRam_nil : canonicalInRam [] := ⟨⟨.nil, by simp⟩, by simp⟩

/-- A word stored at four offsets of the RAMs keeps the memory canonical and inside them. -/
theorem canonicalInRam_writeWord {m : List Host.Cell} {a : Nat} (d : Word) (hm : canonicalInRam m)
    (ha : ∀ b, a ≤ b ∧ b < a + 4 → inRam b = true) : canonicalInRam (Memory.writeWord m a d) := by
  obtain ⟨hwf, hin⟩ := hm
  refine ⟨Memory.wf_writeWord m a d hwf, fun c hc => ?_⟩
  obtain hold | hnew := Memory.mem_writeWord hc
  · exact hin c hold
  · exact ha c.1 hnew

theorem MemOutcome.keeps_canonicalInRam {s : State} {m : List Host.Cell} (h : MemOutcome s m)
    (hgood : canonicalInRam s.mem) : canonicalInRam m := by
  cases h with
  | same => exact hgood
  | cleared next => exact canonicalInRam_nil
  | node unlocked i d => exact canonicalInRam_writeWord d hgood (Memory.inRam_node i)
  | ct unlocked sym w word d => exact canonicalInRam_writeWord d hgood fun b => Memory.inRam_ct sym w b word

/-- Settles O32: a step leaves the memory alone, clears it, or stores one word at offsets of a RAM. -/
theorem memoryStaysCanonical : Obligations.MemoryStaysCanonical := fun _ _ h hgood =>
  (step_memOutcome h).keeps_canonicalInRam hgood

/-- A NODE RAM word lies below CT RAM (R82, R84). -/
theorem readByte_writeWord_node {m : List Host.Cell} {a : Nat} (i : NodeIndex) (d : Word) (ha : 0x4000 ≤ a) :
    Memory.readByte (Memory.writeWord m (nodeOffset i) d) a = Memory.readByte m a := by
  have hi := i.isLt
  refine Memory.readByte_writeWord_ne _ _ _ _ (.inr ?_)
  simp only [nodeOffset]
  omega

/-- A CT RAM word lies above NODE RAM (R82, R85). -/
theorem readByte_writeWord_ct {m : List Host.Cell} {a : Nat} (sym : Byte) (w : Nat) (d : Word) (ha : a < 0x4000) :
    Memory.readByte (Memory.writeWord m (ctOffset sym w) d) a = Memory.readByte m a := by
  refine Memory.readByte_writeWord_ne _ _ _ _ (.inl ?_)
  simp only [ctOffset]
  omega

/-- But for a reset, a host access stores only in the RAM that the mode leaves unlocked (R337). -/
theorem MemOutcome.lockedBytes_eq {s : State} {m : List Host.Cell} (h : MemOutcome s m)
    (noReset : s.script.head? ≠ some .reset) :
    (s.mode = .enc → ∀ a, 0x4000 ≤ a → Memory.readByte m a = Memory.readByte s.mem a) ∧
      (s.mode = .dec → ∀ a, 0x0800 ≤ a → a < 0x1000 → Memory.readByte m a = Memory.readByte s.mem a) := by
  cases h with
  | same => exact ⟨fun _ _ _ => rfl, fun _ _ _ _ => rfl⟩
  | cleared next => exact absurd next noReset
  | node unlocked i d => exact ⟨fun _ _ ha => readByte_writeWord_node i d ha, fun hm => absurd hm unlocked⟩
  | ct unlocked sym w word d =>
    exact ⟨fun hm => absurd hm unlocked, fun _ _ _ ha => readByte_writeWord_ct sym w d (by omega)⟩

/-- Settles O28: the engine writes no memory, and the locks keep the host from the table a stream reads. -/
theorem tablesFixedDuringStream : Obligations.TablesFixedDuringStream := by
  intro s t h
  refine ⟨fun turn a => ?_, fun _ noReset => (step_memOutcome h).lockedBytes_eq noReset⟩
  obtain ⟨-, h⟩ | ⟨noTurn, -⟩ := step_cases h
  · rw [engineStep_mem h]
  · simp [turn] at noTurn

end Sys2Proof.Machine
end

section
/-! PROOF. The address map from the RAMs' side: a word written through the bus and read back, and the offsets that hold
nothing (R82 to R85, R127, R128, R334, R337). -/

namespace Sys2Proof.Machine

open Sys2Proof Sys2Proof.Safety

/-- The address map finds the NODE RAM entry at its offset (R84). -/
theorem targetOf_nodeOffset (i : NodeIndex) : targetOf (nodeOffset i) = .node i := by
  have hi := i.isLt
  have hindex : (nodeOffset i - 0x0800) / 4 = i.toNat := by simp only [nodeOffset]; omega
  have hlow : 0x0800 ≤ nodeOffset i ∧ nodeOffset i < 0x1000 := by simp only [nodeOffset]; omega
  rw [targetOf, if_neg (by omega), if_neg (by omega), if_pos hlow.2, hindex, BitVec.ofNat_toNat, BitVec.setWidth_eq]

/-- The address map finds the code word k of a CT entry at its offset (R85). -/
theorem targetOf_ctOffset_code (sym : Byte) {k : Nat} (hk : k ≤ 7) :
    targetOf (ctOffset sym (1 + k)) = .ctCode sym k := by
  have hsym := sym.isLt
  have hentry : (ctOffset sym (1 + k) - 0x4000) / 64 = sym.toNat := by simp only [ctOffset]; omega
  have hword : (ctOffset sym (1 + k) - 0x4000) / 4 % 16 = 1 + k := by simp only [ctOffset]; omega
  have hlow : 0x4000 ≤ ctOffset sym (1 + k) := by simp only [ctOffset]; omega
  rw [targetOf, if_neg (by omega), if_neg (by omega), if_neg (by omega), if_neg (by omega), hword, hentry,
    if_neg (by omega), if_pos (by omega), Nat.add_sub_cancel_left, BitVec.ofNat_toNat, BitVec.setWidth_eq]

theorem busRead_nodeOffset (i : NodeIndex) (s : State) :
    busRead (nodeOffset i) s = { value := nodeWord s.mem i, after := s } := by
  rw [busRead, targetOf_nodeOffset]

theorem busRead_ctOffset_code (sym : Byte) {k : Nat} (hk : k ≤ 7) (s : State) :
    busRead (ctOffset sym (1 + k)) s = { value := codeWord s.mem sym k, after := s } := by
  rw [busRead, targetOf_ctOffset_code sym hk]

/-- With BUSY = 0 and NODE RAM not locked a NODE write stores its word (R334, R337). -/
theorem busWrite_nodeOffset (i : NodeIndex) (d : Word) {s : State} (hb : s.busy = false) (hm : s.mode ≠ .dec) :
    busWrite (nodeOffset i) d s = { s with mem := Memory.writeWord s.mem (nodeOffset i) d } := by
  simp [busWrite, targetOf_nodeOffset, hb, locked, hm, Target.inCtRam, acceptWrite]

/-- With BUSY = 0 and CT RAM not locked a write of a code word stores it (R334, R337). -/
theorem busWrite_ctOffset_code (sym : Byte) {k : Nat} (hk : k ≤ 7) (d : Word) {s : State} (hb : s.busy = false)
    (hm : s.mode ≠ .enc) :
    busWrite (ctOffset sym (1 + k)) d s = { s with mem := Memory.writeWord s.mem (ctOffset sym (1 + k)) d } := by
  simp [busWrite, targetOf_ctOffset_code sym hk, hb, locked, hm, Target.inNodeRam, acceptWrite]

/-- Settles O17: the address map sends the offset to entry i, and a word reads back as stored. -/
theorem nodeWriteReadsBack : Obligations.NodeWriteReadsBack := by
  intro s i d hb hm hwf t
  have ht : t = { s with mem := Memory.writeWord s.mem (nodeOffset i) d } := busWrite_nodeOffset i d hb hm
  have hword : nodeWord t.mem i = d := by
    rw [ht]
    exact Memory.readWord_writeWord_same s.mem (nodeOffset i) d hwf
  refine ⟨?_, hword, fun a ha => ?_, by rw [ht]⟩
  · exact (congrArg ReadResult.value (busRead_nodeOffset i t)).trans hword
  · rw [ht]
    exact Memory.readByte_writeWord_ne s.mem (nodeOffset i) a d ha

/-- CODEk is bits 32k+31:32k of CODE (R85, R128). -/
theorem ctEntry_code_extractLsb' (m : List Host.Cell) (sym : Byte) {k : Nat} (hk : k ≤ 7) :
    (ctEntry m sym).code.extractLsb' (32 * k) 32 = codeWord m sym k := by
  unfold ctEntry
  interval_cases k <;>
    simp (disch := decide) only [BitVec.extractLsb'_append_eq_of_le, BitVec.extractLsb'_append_eq_of_add_le] <;>
    exact BitVec.extractLsb'_eq_self

/-- A bit of CODE is a bit of the code word it lies in (R128). -/
theorem ctEntry_code_getLsbD (m : List Host.Cell) (sym : Byte) {j : Nat} (hj : j < 256) :
    (ctEntry m sym).code.getLsbD j = (codeWord m sym (j / 32)).getLsbD (j % 32) := by
  rw [← ctEntry_code_extractLsb' m sym (by omega), BitVec.getLsbD_extractLsb', Nat.div_add_mod]
  simp [Nat.mod_lt]

/-- A word read in CT RAM away from the word of the same entry that was written. -/
theorem readWord_writeWord_ctOffset_ne (m : List Host.Cell) (sym : Byte) {v w : Nat} (d : Word) (h : v ≠ w) :
    Memory.readWord (Memory.writeWord m (ctOffset sym w) d) (ctOffset sym v) = Memory.readWord m (ctOffset sym v) := by
  refine Memory.readWord_writeWord_ne _ _ _ _ ?_
  simp only [ctOffset]
  omega

/-- Settles O19: the address map sends the offset to code word k, a word reads back as stored, and the entry's other words
stand elsewhere. -/
theorem ctCodeWriteReadsBack : Obligations.CtCodeWriteReadsBack := by
  intro s sym k d hk hb hm hwf a₀ t
  have ht : t = { s with mem := Memory.writeWord s.mem (ctOffset sym (1 + k)) d } := busWrite_ctOffset_code sym hk d hb hm
  have hword : codeWord t.mem sym k = d := by
    rw [ht]
    exact Memory.readWord_writeWord_same s.mem (ctOffset sym (1 + k)) d hwf
  have hother : ∀ w, w ≠ 1 + k → Memory.readWord t.mem (ctOffset sym w) = Memory.readWord s.mem (ctOffset sym w) := by
    intro w hw
    rw [ht]
    exact readWord_writeWord_ctOffset_ne s.mem sym d hw
  have hheader := hother 0 (by omega)
  refine ⟨?_, ?_, fun j hj hjk => ?_, ?_, ?_, fun a ha => ?_, by rw [ht]⟩
  · exact (congrArg ReadResult.value (busRead_ctOffset_code sym hk t)).trans hword
  · rw [ctEntry_code_extractLsb' _ _ hk, hword]
  · rw [ctEntry_code_getLsbD _ _ hj, ctEntry_code_getLsbD _ _ hj, codeWord, codeWord, hother _ (by omega)]
  · rw [ctEntry, ctEntry, hheader]
  · rw [ctEntry, ctEntry, hheader]
  · rw [ht]
    exact Memory.readByte_writeWord_ne s.mem (ctOffset sym (1 + k)) a d ha

/-- The offsets that hold nothing: the reserved register, the unmapped ranges, and words 9 to 15 of a CT entry (R82, R83,
R85). -/
theorem targetOf_of_empty {a : Nat} (ha : a % 4 = 0)
    (h : a = 0x01C ∨ (0x0040 ≤ a ∧ a < 0x0800) ∨ (0x1000 ≤ a ∧ a < 0x4000) ∨
      (0x4000 ≤ a ∧ a < 0x8000 ∧ 36 ≤ (a - 0x4000) % 64)) :
    (a < 0x4000 ∧ (targetOf a = .reg .reserved ∨ targetOf a = .unmapped)) ∨ (0x4000 ≤ a ∧ targetOf a = .ctReserved) := by
  rcases h with rfl | ⟨hlo, hhi⟩ | ⟨hlo, hhi⟩ | ⟨hlo, -, hword⟩
  · exact .inl ⟨by decide, .inl rfl⟩
  · exact .inl ⟨by omega, .inr (by rw [targetOf, if_neg (by omega), if_pos hhi])⟩
  · refine .inl ⟨hhi, .inr ?_⟩
    rw [targetOf, if_neg (by omega), if_neg (by omega), if_neg (by omega), if_pos hhi]
  · refine .inr ⟨hlo, ?_⟩
    rw [targetOf, if_neg (by omega), if_neg (by omega), if_neg (by omega), if_neg (by omega), if_neg (by omega),
      if_neg (by omega)]

/-- Such an offset reads 0, takes no write, and is locked only as a reserved CT word in ENC mode (R83, R337). -/
theorem empty_offset {a : Nat} (s : State) (d : Word) (ha : a % 4 = 0)
    (h : a = 0x01C ∨ (0x0040 ≤ a ∧ a < 0x0800) ∨ (0x1000 ≤ a ∧ a < 0x4000) ∨
      (0x4000 ≤ a ∧ a < 0x8000 ∧ 36 ≤ (a - 0x4000) % 64)) :
    busRead a s = { value := 0, after := s } ∧ acceptWrite (targetOf a) d s = s ∧
      (locked (targetOf a) s.mode = true ↔ s.mode = .enc ∧ 0x4000 ≤ a) := by
  obtain ⟨hlow, ht | ht⟩ | ⟨hct, ht⟩ := targetOf_of_empty ha h <;> rw [busRead, ht]
  · exact ⟨by simp [readReg, Reg.busyOpen, regValue], rfl, by simp [locked, Target.inCtRam, Target.inNodeRam, hlow]⟩
  · exact ⟨rfl, rfl, by simp [locked, Target.inCtRam, Target.inNodeRam, hlow]⟩
  · exact ⟨rfl, rfl, by simp [locked, Target.inCtRam, Target.inNodeRam, hct]⟩

/-- Settles O20: the precedence of R338 at an offset that holds nothing. -/
theorem unmappedReadsZeroIgnoresWrites : Obligations.UnmappedReadsZeroIgnoresWrites := by
  intro s a d ha h
  obtain ⟨hread, haccept, hlocked⟩ := empty_offset s d ha h
  refine ⟨hread, fun hb => if_pos hb, fun hb hl => ?_, fun hb hl => ?_⟩
  · rw [busWrite, if_neg (by simp [hb]), if_pos (hlocked.mpr hl)]
  · rw [busWrite, if_neg (by simp [hb]), if_neg (hl ∘ hlocked.mp), haccept]

end Sys2Proof.Machine
end

section
/-! PROOF. The host's accesses as steps of the machine: reads without side effect, WAIT and DRAIN, and the accesses that
stop (R42, R90, R91, R94, R134, R333). -/

namespace Sys2Proof.Machine

open Sys2Proof Sys2Proof.Safety

/-- DOUT is the register at word index 5 and no other (R32). -/
theorem eq_five_of_regOfIndex_dout {n : Nat} (h : regOfIndex n = .dout) : n = 5 := by
  unfold regOfIndex at h
  split at h <;> cases h
  rfl

/-- DOUT is at one aligned offset only (R32, R82). -/
theorem eq_doutOffset_of_targetOf {a : Nat} (ha : a % 4 = 0) (h : targetOf a = .reg .dout) : a = 0x014 := by
  by_cases hreg : a < 0x0040
  · rw [targetOf_register hreg, Target.reg.injEq] at h
    have hindex := eq_five_of_regOfIndex_dout h
    omega
  · unfold targetOf at h
    split_ifs at h

/-- A read at an offset other than DOUT's may draw a free value while BUSY = 1, and does nothing else (R94, R333). -/
theorem busRead_after_draws {a : Nat} (s : State) (ha : a % 4 = 0) (hne : a ≠ 0x014) :
    ∃ n, (busRead a s).after = { s with draws := n } ∧ (s.busy = false → n = s.draws) := by
  obtain h | ⟨hb, h⟩ | ⟨hd, -⟩ := busRead_after a s
  · exact ⟨s.draws, h, fun _ => rfl⟩
  · exact ⟨s.draws + 1, h, by simp [hb]⟩
  · exact absurd (eq_doutOffset_of_targetOf ha hd) hne

/-- Settles O21: of the registers only DOUT pops, and a free value is drawn only while BUSY = 1. -/
theorem readsHaveNoSideEffect : Obligations.ReadsHaveNoSideEffect := fun s _ => busRead_after_draws s

theorem busRead_after_heard (a : Nat) (s : State) : (busRead a s).after.heard = s.heard := by
  obtain h | ⟨-, h⟩ | ⟨-, v, rest, -, -, h, -⟩ := busRead_after a s <;> rw [h]

/-- When it is not the engine's turn a step is the action at the head of the script. -/
theorem step_eq_perform {s : State} {op : HostOp} {rest : List HostOp} (turn : engineTurn s = false)
    (hs : s.script = op :: rest) : step s = perform op (beginAction rest s) := by
  simp [step, turn, platformStep, hs]

theorem engineTurn_of_not_busy {s : State} (hb : s.busy = false) : engineTurn s = false := by
  simp [engineTurn, hb]

theorem beginAction_of_not_busy {s : State} (rest : List HostOp) (hb : s.busy = false) :
    beginAction rest s = { s with script := rest } := by
  simp [beginAction, hb]

/-- A turn of DRAIN that finds an entry pops it and stays in the script (R42, R134). -/
theorem step_drain_cons {s : State} {rest : List HostOp} {v : Byte} {vs : List Byte} (hb : s.busy = false)
    (hs : s.script = .drain :: rest) (ho : s.out = v :: vs) :
    step s = .next
      { s with
        out := vs
        heard := s.heard ++ [{ addr := 0x014, value := 0x100 ||| v.setWidth 32 }] } := by
  obtain ⟨hread, -⟩ := doutReadPopsHead { s with script := rest }
  rw [step_eq_perform (engineTurn_of_not_busy hb) hs, beginAction_of_not_busy rest hb, perform, doutOffset,
    hread v vs hb ho]
  simp [hear, hb, ho, hs]

/-- A turn of DRAIN that finds OUT empty hears VALID = 0 and leaves the script (R42, R134). -/
theorem step_drain_nil {s : State} {rest : List HostOp} (hb : s.busy = false) (hs : s.script = .drain :: rest)
    (ho : s.out = []) :
    step s = .next { s with script := rest, heard := s.heard ++ [{ addr := 0x014, value := 0 }] } := by
  obtain ⟨-, hread, -⟩ := doutReadPopsHead { s with script := rest }
  rw [step_eq_perform (engineTurn_of_not_busy hb) hs, beginAction_of_not_busy rest hb, perform, doutOffset,
    hread (.inr ho)]
  simp [hear, ho]

/-- Settles O23, by induction on OUT: each turn pops one entry until none is left. -/
theorem drainReturnsOutInOrder : Obligations.DrainReturnsOutInOrder := by
  intro s rest hb hs
  generalize ho : s.out = vs
  induction vs generalizing s with
  | nil =>
    rw [List.length_nil, runSteps_succ 0 (step_drain_nil hb hs ho), runSteps]
    simp [← ho]
  | cons v vs ih =>
    rw [List.length_cons, runSteps_succ _ (step_drain_cons hb hs ho)]
    refine (ih _ ?_ ?_ ?_).trans ?_
    · exact hb
    · exact hs
    · rfl
    · simp

/-- A turn of WAIT hears STATUS; it stays in the script while BUSY = 1, when it draws a free value (R134, R333). -/
theorem step_wait {s : State} {rest : List HostOp} (turn : engineTurn s = false) (hs : s.script = .wait :: rest) :
    ∃ n m, (s.busy = false → n = s.delay ∧ m = s.draws) ∧
      step s =
        .next
          { s with
            script := if s.busy then .wait :: rest else rest
            delay := n
            draws := m
            heard := s.heard ++ [{ addr := 0x00C, value := (busRead 0x00C s).value }] } := by
  have hread : ∀ u, busRead 0x00C u = readReg .status u := fun _ => rfl
  rw [step_eq_perform turn hs, perform, statusOffset, hread, hread]
  cases hb : s.busy with
  | false =>
    refine ⟨s.delay, s.draws, fun _ => ⟨rfl, rfl⟩, ?_⟩
    rw [beginAction_of_not_busy rest hb]
    simp [hear, readReg, hb, regValue, statusWord, outCount, outValid, done]
  | true =>
    refine ⟨s.delay - 1, s.draws + 1, by simp, ?_⟩
    simp [hear, readReg, hb, Reg.busyOpen, drawBusy, beginAction]

/-- An access that is not an aligned word is refused by name (R91). -/
theorem checkedAccess_misaligned {a size : Nat} (s : State) (h : size ≠ 4 ∨ a % 4 ≠ 0) :
    checkedAccess a size s = .refused (.misalignedAccess a size) := if_pos h

/-- An aligned word access past the window faults (R80). -/
theorem checkedAccess_outside {a : Nat} (s : State) (ha : a % 4 = 0) (hw : Config.windowBytes ≤ a) :
    checkedAccess a 4 s = .fault (.outsideWindow a) := by
  rw [checkedAccess, if_neg (by simp [ha]), if_pos hw]

/-- Settles O27: an access passes the check or stops at it, and what passes is the bus's. -/
theorem hostAccessReachesTheBusOrStops : Obligations.HostAccessReachesTheBusOrStops := by
  intro s a size d rest turn
  refine ⟨fun hsize ha hw => ?_, step_wait turn, fun h => ⟨fun hs => ?_, fun hs => ?_⟩,
    fun hsize ha hw => ⟨fun hs => ?_, fun hs => ?_⟩⟩
  · subst hsize
    refine ⟨(beginAction rest s).delay, fun hb => by simp [hb], fun hs => ?_, fun hs => ?_⟩
    · rw [step_eq_perform turn hs, perform, checkedAccess_ok ha hw]
      simp only [hear, busRead_after_heard]
      rfl
    · rw [step_eq_perform turn hs, perform, checkedAccess_ok ha hw]
      rfl
  · rw [step_eq_perform turn hs, perform, checkedAccess_misaligned _ h]
  · rw [step_eq_perform turn hs, perform, checkedAccess_misaligned _ h]
  · rw [step_eq_perform turn hs, perform, hsize, checkedAccess_outside _ ha hw]
  · rw [step_eq_perform turn hs, perform, hsize, checkedAccess_outside _ ha hw]

end Sys2Proof.Machine
end

section
/-! PROOF. The framing round trip: bits written one by one and closed by `finish()` (R88, R130, R200 to R203). -/

namespace Sys2Proof.Machine

open Sys2Proof Sys2Proof.Safety

/-- Bits written one after another, first to last (R200). -/
def writeBits (bits : List Bool) (s : State) : State := bits.foldl (fun u b => writeBit b u) s

theorem writeBit_pushes (b : Bool) (s : State) : ∃ pushed, (writeBit b s).out = s.out ++ pushed := by
  unfold writeBit
  split
  · exact ⟨_, rfl⟩
  · exact ⟨[], (List.append_nil _).symm⟩

/-- Bits written only append to OUT, and stand after the stream's earlier bits (R200, R201). -/
theorem writeBits_stream (bits : List Bool) {s : State} (h : s.wcnt.toNat ≤ 7) :
    (∃ pushed, (writeBits bits s).out = s.out ++ pushed) ∧
      writtenBits (writeBits bits s) = writtenBits s ++ bits ∧
      (writeBits bits s).wcnt.toNat = (s.wcnt.toNat + bits.length) % 8 := by
  induction bits generalizing s with
  | nil => exact ⟨⟨[], by simp [writeBits]⟩, by simp [writeBits], by simp [writeBits]; omega⟩
  | cons b bits ih =>
    have hcount := (writeBit_count b s h).1
    obtain ⟨first, hfirst⟩ := writeBit_pushes b s
    obtain ⟨⟨later, hlater⟩, hbits, hwcnt⟩ := ih (s := writeBit b s) (by omega)
    rw [writtenBits_writeBit b s h] at hbits
    refine ⟨⟨first ++ later, ?_⟩, ?_, ?_⟩
    · rw [← List.append_assoc, ← hfirst]
      exact hlater
    · exact hbits.trans (by simp)
    · rw [List.length_cons]
      exact hwcnt.trans (by omega)

/-- `finish()` pushes the pending bits followed by R130's padding, or nothing when none is pending (R202). -/
theorem finish_stream {s : State} (h : s.wcnt.toNat ≤ 7) :
    ∃ pushed, (finish s).out = s.out ++ pushed ∧
      pushed.flatMap byteBits = bitsBelow s.wbuf s.wcnt.toNat ++ paddingOf s.wcnt.toNat := by
  unfold finish
  split
  · next h0 => exact ⟨[], by simp, by simp [h0, bitsBelow, paddingOf]⟩
  · next h0 =>
    have hne : s.wcnt.toNat ≠ 0 := fun e => h0 (BitVec.eq_of_toNat_eq e)
    refine ⟨[finalByte s.wbuf s.wcnt], rfl, ?_⟩
    rw [paddingOf, if_neg (by omega), Nat.mod_eq_of_lt (by omega), ← byteBits_finalByte _ _ h h0]
    simp

theorem paddingOf_mod (L : Nat) : paddingOf (L % 8) = paddingOf L := by simp [paddingOf]

/-- Settles O43: the bits written are the bytes pushed and the pending bits, and `finish()` pushes those with the padding. -/
theorem framingKeepsEveryBit : Obligations.FramingKeepsEveryBit := by
  intro bits s h0 t
  have ht : t = finish (writeBits bits s) := rfl
  obtain ⟨⟨whole, hwhole⟩, hbits, hwcnt⟩ := writeBits_stream bits (s := s) (by simp [h0])
  obtain ⟨last, hlast, hpad⟩ := finish_stream (s := writeBits bits s) (by omega)
  have hstream : whole.flatMap byteBits ++ bitsBelow (writeBits bits s).wbuf (writeBits bits s).wcnt.toNat = bits := by
    simpa [writtenBits, hwhole, h0, bitsBelow] using hbits
  have hpadding : paddingOf (writeBits bits s).wcnt.toNat = paddingOf bits.length := by
    rw [hwcnt, h0, paddingOf_mod]
    simp
  refine ⟨whole ++ last, ?_, ?_, ht ▸ finish_wcnt _⟩
  · rw [ht, hlast, hwhole, List.append_assoc]
  · rw [List.flatMap_append, hpad, ← List.append_assoc, hstream, hpadding]

end Sys2Proof.Machine
end

section
/-! PROOF. The decoder inverts the encoder, and agrees with the opcode map of patterns and masks (R120 to R124). -/

namespace Sys2Proof.Machine

open Sys2Proof Sys2Proof.Safety

/-- A command's word carries its opcode, its operand above it, and the operand fits its format's field (R121, R123). -/
theorem encodes (i : Instr) : Laws.Encodes.Statement i := by
  cases i with
  | encOpen => exact Laws.Encodes.encOpen
  | encSym sym => exact Laws.Encodes.encSym sym
  | encBit b => exact Laws.Encodes.encBit b
  | encFinish => exact Laws.Encodes.encFinish
  | decOpen => exact Laws.Encodes.decOpen
  | decByte v => exact Laws.Encodes.decByte v
  | decEnd => exact Laws.Encodes.decEnd
  | clear => exact Laws.Encodes.clear

@[simp] theorem opcodeField_encode (i : Instr) : opcodeField (encode i) = i.opcode := (encodes i).1

/-- A field of a word, by the word's number. -/
theorem extractLsb'_eq_of_toNat {w : Word} {start len : Nat} {x : BitVec len}
    (h : w.toNat / 2 ^ start % 2 ^ len = x.toNat) : w.extractLsb' start len = x :=
  BitVec.eq_of_toNat_eq (by rw [BitVec.extractLsb'_toNat, Nat.shiftRight_eq_div_pow, h])

/-- The 24 bits above the opcode are the operand (R123). -/
theorem operandBits_encode (i : Instr) : ((encode i).extractLsb' 8 24).toNat = i.operand := by
  have hword := toNat_eq_opcodeField_add (encode i)
  rw [toNat_encode, opcodeField_encode] at hword
  omega

/-- Format F0 accepts the word of its command (R121). -/
theorem decodeF0_encode (i : Instr) (hi : i.operand = 0) : decodeF0 i (encode i) = .command i := by
  have hz : (encode i).extractLsb' 8 24 = 0 := BitVec.eq_of_toNat_eq ((operandBits_encode i).trans hi)
  rw [decodeF0, if_pos hz]

/-- Format F8 reads back the byte its command's word carries (R121, R123). -/
theorem decodeF8_encode (build : Byte → Instr) (v : Byte) (hi : (build v).operand = v.toNat) :
    decodeF8 build (encode (build v)) = .command (build v) := by
  have hv := v.isLt
  have hop := (build v).opcode.isLt
  have hword := toNat_encode (build v)
  have hz : (encode (build v)).extractLsb' 16 16 = 0 := extractLsb'_eq_of_toNat (show _ = 0 by omega)
  have hbyte : byteOperand (encode (build v)) = v := extractLsb'_eq_of_toNat (by omega)
  rw [decodeF8, if_pos hz, hbyte]

/-- Format F1 reads back the bit its command's word carries (R121, R123). -/
theorem decodeF1_encode (build : Bool → Instr) (b : Bool) (hi : (build b).operand = b.toNat) :
    decodeF1 build (encode (build b)) = .command (build b) := by
  have hb := b.toNat_lt
  have hop := (build b).opcode.isLt
  have hword := toNat_encode (build b)
  have hz : (encode (build b)).extractLsb' 9 23 = 0 := extractLsb'_eq_of_toNat (show _ = 0 by omega)
  have hbit : bitOperand (encode (build b)) = b := by
    rw [bitOperand, BitVec.getLsbD, Nat.testBit_eq_decide_div_mod_eq,
      show (encode (build b)).toNat / 2 ^ 8 % 2 = b.toNat by omega]
    cases b <;> rfl
  rw [decodeF1, if_pos hz, hbit]

/-- The encoding of a command decodes to it (R120 to R123). -/
theorem decode_encode (i : Instr) : decode (encode i) = .command i := by
  rw [decode, opcodeField_encode]
  cases i with
  | encOpen => exact decodeF0_encode .encOpen rfl
  | encSym sym => exact decodeF8_encode .encSym sym rfl
  | encBit b => exact decodeF1_encode .encBit b rfl
  | encFinish => exact decodeF0_encode .encFinish rfl
  | decOpen => exact decodeF0_encode .decOpen rfl
  | decByte v => exact decodeF8_encode .decByte v rfl
  | decEnd => exact decodeF0_encode .decEnd rfl
  | clear => exact decodeF0_encode .clear rfl

/-- Settles O1: a word that decodes has its command's opcode and operand and nothing else, and each format reads its own
encoding back. -/
theorem decodeExactlyInvertsEncode : Obligations.DecodeExactlyInvertsEncode :=
  fun _ i => ⟨eq_encode_of_decode, fun h => h ▸ decode_encode i⟩

/-- Settles O2: each word is evaluated. -/
theorem specWordsDecodeAsWritten : Obligations.SpecWordsDecodeAsWritten := by
  unfold Obligations.SpecWordsDecodeAsWritten
  decide

/-- The mask of a format: every bit but its operand's (R121, R122). -/
def formatMask : Format → Word
  | .f0 => 0xFFFFFFFF
  | .f8 => 0xFFFF00FF
  | .f1 => 0xFFFFFEFF

/-- The row of the opcode map for a command (R122). -/
def rowOf (i : Instr) : OpcodeRow :=
  { opcode := i.opcode, pattern := i.opcode.setWidth 32, mask := formatMask i.format }

theorem rowOf_mem_opcodeMap (i : Instr) : rowOf i ∈ opcodeMap := by
  cases i <;> simp [rowOf, opcodeMap, formatMask, Instr.opcode, Instr.format]

/-- Every row of the opcode map is an opcode under a format's mask, and a command of that opcode carries any operand the
format has room for (R122, R123). -/
theorem opcodeMap_row_format {r : OpcodeRow} (hr : r ∈ opcodeMap) :
    ∃ f, r.mask = formatMask f ∧ r.pattern = r.opcode.setWidth 32 ∧
      ∀ n < 2 ^ f.operandBits, ∃ i : Instr, i.opcode = r.opcode ∧ i.operand = n := by
  have hbyte : ∀ n < 2 ^ 8, ∃ v : Byte, v.toNat = n := fun n hn =>
    ⟨BitVec.ofNat 8 n, by rw [BitVec.toNat_ofNat, Nat.mod_eq_of_lt hn]⟩
  have hbit : ∀ n < 2 ^ 1, ∃ b : Bool, b.toNat = n := fun n hn => ⟨n == 1, by interval_cases n <;> rfl⟩
  have hnone : ∀ n < 2 ^ 0, 0 = n := by omega
  simp only [opcodeMap, List.mem_cons, List.not_mem_nil, or_false] at hr
  rcases hr with rfl | rfl | rfl | rfl | rfl | rfl | rfl | rfl
  · exact ⟨.f0, rfl, rfl, fun n hn => ⟨.encOpen, rfl, hnone n hn⟩⟩
  · exact ⟨.f8, rfl, rfl, fun n hn => let ⟨v, hv⟩ := hbyte n hn; ⟨.encSym v, rfl, hv⟩⟩
  · exact ⟨.f1, rfl, rfl, fun n hn => let ⟨b, hb⟩ := hbit n hn; ⟨.encBit b, rfl, hb⟩⟩
  · exact ⟨.f0, rfl, rfl, fun n hn => ⟨.encFinish, rfl, hnone n hn⟩⟩
  · exact ⟨.f0, rfl, rfl, fun n hn => ⟨.decOpen, rfl, hnone n hn⟩⟩
  · exact ⟨.f8, rfl, rfl, fun n hn => let ⟨v, hv⟩ := hbyte n hn; ⟨.decByte v, rfl, hv⟩⟩
  · exact ⟨.f0, rfl, rfl, fun n hn => ⟨.decEnd, rfl, hnone n hn⟩⟩
  · exact ⟨.f0, rfl, rfl, fun n hn => ⟨.clear, rfl, hnone n hn⟩⟩

theorem formatMask_getLsbD (f : Format) :
    ∀ j < 32, (formatMask f).getLsbD j = (decide (j < 8) || decide (8 + f.operandBits ≤ j)) := by
  cases f <;> decide

theorem testBit_operandBits (w : Word) (j : Nat) :
    (w.extractLsb' 8 24).toNat.testBit j = (decide (j < 24) && w.getLsbD (8 + j)) := by
  rw [← BitVec.getLsbD, BitVec.getLsbD_extractLsb']

theorem opcodeField_getLsbD (w : Word) (j : Nat) : (opcodeField w).getLsbD j = (decide (j < 8) && w.getLsbD j) := by
  rw [opcodeField, BitVec.getLsbD_extractLsb', Nat.zero_add]

/-- A word that matches an opcode under a format's mask has that opcode, and the bits above it fit the format's operand
(R121, R122). -/
theorem fields_of_and_formatMask {f : Format} {op : Byte} {w : Word} (h : w &&& formatMask f = op.setWidth 32) :
    opcodeField w = op ∧ (w.extractLsb' 8 24).toNat < 2 ^ f.operandBits := by
  have hmasked : ∀ j < 32,
      (w.getLsbD j && (decide (j < 8) || decide (8 + f.operandBits ≤ j))) = op.getLsbD j := fun j hj => by
    rw [← formatMask_getLsbD f j hj, ← BitVec.getLsbD_and, h, BitVec.getLsbD_setWidth]
    simp [hj]
  constructor
  · apply BitVec.eq_of_getLsbD_eq
    intro j hj
    rw [opcodeField_getLsbD, ← hmasked j (by omega)]
    simp [hj]
  · apply Nat.lt_pow_two_of_testBit
    intro j hj
    rw [testBit_operandBits]
    by_cases hj24 : j < 24
    · simpa [hj, hj24] using hmasked (8 + j) (by omega)
    · simp [hj24]

/-- A command's word matches its row (R122, R123). -/
theorem encode_matches_rowOf (i : Instr) : encode i &&& (rowOf i).mask = (rowOf i).pattern := by
  apply BitVec.eq_of_getLsbD_eq
  intro j hj
  simp only [rowOf, BitVec.getLsbD_and, formatMask_getLsbD _ j hj, BitVec.getLsbD_setWidth, ← opcodeField_encode,
    opcodeField_getLsbD]
  by_cases hj8 : j < 8
  · simp [hj, hj8]
  · by_cases hhigh : 8 + i.format.operandBits ≤ j
    · have hfits : i.operand < 2 ^ (j - 8) :=
        lt_of_lt_of_le (encodes i).2.2 (Nat.pow_le_pow_right (by omega) (by omega))
      have hzero := testBit_operandBits (encode i) (j - 8)
      rw [operandBits_encode, Nat.testBit_lt_two_pow hfits, show 8 + (j - 8) = j by omega] at hzero
      have hbit : (encode i).getLsbD j = false := by simpa [show j - 8 < 24 by omega] using hzero.symm
      simp [hj8, hbit]
    · simp [hj8, hhigh]

theorem opcodeMap_opcode_injective :
    ∀ r₁ ∈ opcodeMap, ∀ r₂ ∈ opcodeMap, r₁.opcode = r₂.opcode → r₁ = r₂ := by decide

/-- A word that matches a row is the word of a command with the row's opcode. -/
theorem exists_eq_encode_of_match {r : OpcodeRow} {w : Word} (hr : r ∈ opcodeMap) (h : w &&& r.mask = r.pattern) :
    ∃ i : Instr, w = encode i ∧ i.opcode = r.opcode := by
  obtain ⟨f, hmask, hpattern, hinstr⟩ := opcodeMap_row_format hr
  rw [hmask, hpattern] at h
  obtain ⟨hop, hoperand⟩ := fields_of_and_formatMask h
  obtain ⟨i, hi, hn⟩ := hinstr _ hoperand
  exact ⟨i, eq_encode_of_fields (hop.trans hi.symm) hn.symm, hi⟩

/-- A row a word matches gives the word's opcode. -/
theorem opcodeField_of_match {r : OpcodeRow} {w : Word} (hr : r ∈ opcodeMap) (h : w &&& r.mask = r.pattern) :
    opcodeField w = r.opcode := by
  obtain ⟨i, rfl, hop⟩ := exists_eq_encode_of_match hr h
  exact (opcodeField_encode i).trans hop

/-- Settles O3: a word matches a row exactly when it is the word of a command with the row's opcode, and no two rows share
an opcode. -/
theorem decoderAgreesWithOpcodeMap : Obligations.DecoderAgreesWithOpcodeMap := by
  refine fun w => ⟨fun i h => ?_, fun r hr h => ?_, fun r₁ h₁ r₂ h₂ hw₁ hw₂ => ?_⟩
  · rw [eq_encode_of_decode h]
    exact ⟨rowOf i, rowOf_mem_opcodeMap i, rfl, encode_matches_rowOf i⟩
  · obtain ⟨i, rfl, hop⟩ := exists_eq_encode_of_match hr h
    exact ⟨i, decode_encode i, hop⟩
  · exact opcodeMap_opcode_injective r₁ h₁ r₂ h₂
      ((opcodeField_of_match h₁ hw₁).symm.trans (opcodeField_of_match h₂ hw₂))

end Sys2Proof.Machine
end

section
/-! PROOF. A code-table header written through the bus and read back (R85, R127, R334, R337). -/

namespace Sys2Proof.Machine

open Sys2Proof Sys2Proof.Safety

/-- The address map finds the header of a CT entry at the entry's offset (R85). -/
theorem targetOf_ctOffset_header (sym : Byte) : targetOf (ctOffset sym 0) = .ctHeader sym := by
  have hsym := sym.isLt
  have hentry : (ctOffset sym 0 - 0x4000) / 64 = sym.toNat := by simp only [ctOffset]; omega
  have hword : (ctOffset sym 0 - 0x4000) / 4 % 16 = 0 := by simp only [ctOffset]; omega
  have hlow : 0x4000 ≤ ctOffset sym 0 := by simp only [ctOffset]; omega
  rw [targetOf, if_neg (by omega), if_neg (by omega), if_neg (by omega), if_neg (by omega), if_pos hword, hentry,
    BitVec.ofNat_toNat, BitVec.setWidth_eq]

theorem busRead_ctOffset_header (sym : Byte) (s : State) :
    busRead (ctOffset sym 0) s =
      { value := headerWord (ctEntry s.mem sym).valid (ctEntry s.mem sym).len, after := s } := by
  rw [busRead, targetOf_ctOffset_header]

/-- With BUSY = 0 and CT RAM not locked a header write stores VALID and LEN (R127, R334, R337). -/
theorem busWrite_ctOffset_header (sym : Byte) (d : Word) {s : State} (hb : s.busy = false) (hm : s.mode ≠ .enc) :
    busWrite (ctOffset sym 0) d s =
      { s with mem := Memory.writeWord s.mem (ctOffset sym 0) (headerStored d) } := by
  simp [busWrite, targetOf_ctOffset_header, hb, locked, hm, Target.inNodeRam, acceptWrite]

@[simp] theorem headerWord_valid (valid : Bool) (len : BitVec 16) : (headerWord valid len).getLsbD 0 = valid := by
  rw [headerWord, BitVec.getLsbD_append]
  cases valid <;> rfl

@[simp] theorem headerWord_len (valid : Bool) (len : BitVec 16) : (headerWord valid len).extractLsb' 16 16 = len := by
  unfold headerWord
  simp (disch := decide) only [BitVec.extractLsb'_append_eq_of_le, Nat.reduceSub]
  exact BitVec.extractLsb'_eq_self

/-- The fields of an entry whose header word is known (R127). -/
theorem ctEntry_of_header {m m' : List Host.Cell} {sym : Byte} {valid : Bool} {len : BitVec 16}
    (hheader : Memory.readWord m' (ctOffset sym 0) = headerWord valid len)
    (hcode : ∀ k, codeWord m' sym k = codeWord m sym k) :
    ctEntry m' sym = { valid := valid, len := len, code := (ctEntry m sym).code } := by
  simp only [ctEntry, hheader, hcode, headerWord_valid, headerWord_len]

/-- Settles O18: the address map sends the offset to the header, the stored word has the two fields, and the code words
stand elsewhere. -/
theorem ctHeaderWriteReadsBack : Obligations.CtHeaderWriteReadsBack := by
  intro s sym d hb hm hwf t
  have ht : t = { s with mem := Memory.writeWord s.mem (ctOffset sym 0) (headerStored d) } :=
    busWrite_ctOffset_header sym d hb hm
  have hentry : ctEntry t.mem sym =
      { valid := d.getLsbD 0, len := d.extractLsb' 16 16, code := (ctEntry s.mem sym).code } := by
    rw [ht]
    exact ctEntry_of_header (Memory.readWord_writeWord_same _ _ _ hwf)
      fun k => readWord_writeWord_ctOffset_ne s.mem sym _ (by omega)
  refine ⟨hentry, ?_, fun a ha => ?_, by rw [ht]⟩
  · refine (congrArg ReadResult.value (busRead_ctOffset_header sym t)).trans ?_
    rw [hentry, headerWord]
  · rw [ht]
    exact Memory.readByte_writeWord_ne s.mem (ctOffset sym 0) a _ ha

end Sys2Proof.Machine
end

section
/-! PROOF. ENC_SYM on an accepted entry, and the encode stream with OUT drained after each command (R129, R130, R201, R261,
R264, R265). -/

namespace Sys2Proof.Machine

open Sys2Proof Sys2Proof.Safety

/-- An accepted entry with room passes every check of ENC_SYM (R129, R236, R261). -/
theorem encSymBody_accepted {s : State} {sym : Byte} (h : acceptedEntry s.params (ctEntry s.mem sym))
    (hroom : encodeRoom s (ctEntry s.mem sym).len.toNat ≤ freeRoom s) :
    encSymBody sym s = emitCodeword (ctEntry s.mem sym) s := by
  obtain ⟨hvalid, hpos, hmax⟩ := h
  have hlen : (ctEntry s.mem sym).len ≠ 0 := fun h0 => by simp [h0] at hpos
  simp only [encSymBody]
  rw [if_neg (by simp [hvalid]), if_neg hlen, if_neg (by omega), if_neg (by omega)]

theorem exec_encSym_accepted {s : State} {sym : Byte} (hm : s.mode = .enc)
    (h : acceptedEntry s.params (ctEntry s.mem sym))
    (hroom : encodeRoom s (ctEntry s.mem sym).len.toNat ≤ freeRoom s) :
    exec (.encSym sym) s = .next (emitCodeword (ctEntry s.mem sym) s) := by
  rw [exec_legal (by simp [legalIn, hm]), commandBody, encSymBody_accepted h hroom]

/-- Emitting a codeword writes OUT, the BitWriter and the two counters only (R261). -/
theorem emitCodeword_frame (e : CtEntry) (s : State) :
    emitCodeword e s =
      { s with
        out := (emitCodeword e s).out
        wbuf := (emitCodeword e s).wbuf
        wcnt := (emitCodeword e s).wcnt
        syms := s.syms + 1
        bits := s.bits + e.len.setWidth 64 } := by
  apply State.ext_fields <;> simp [emitCodeword]

/-- Emitting a codeword appends its bits to the stream (R201, R261). -/
theorem writtenBits_emitCodeword (e : CtEntry) {s : State} (h : s.wcnt.toNat ≤ 7) :
    writtenBits (emitCodeword e s) = writtenBits s ++ codewordOf e := writtenBits_writeCode _ _ s h

/-- Emitting a codeword pushes its whole bytes and leaves the rest pending (R261). -/
theorem emitCodeword_count (e : CtEntry) {s : State} (h : s.wcnt.toNat ≤ 7) :
    (emitCodeword e s).wcnt.toNat = (s.wcnt.toNat + e.len.toNat) % 8 ∧
      outCount (emitCodeword e s) = outCount s + (s.wcnt.toNat + e.len.toNat) / 8 := writeCode_count _ _ s h

/-- Settles O38: no check fails, so the codeword is written bit by bit. -/
theorem encSymAppendsItsCodeword : Obligations.EncSymAppendsItsCodeword := by
  intro s sym hm hw haccepted hroom
  obtain ⟨hwcnt, hout⟩ := emitCodeword_count (ctEntry s.mem sym) hw
  exact ⟨_, exec_encSym_accepted hm haccepted hroom, writtenBits_emitCodeword _ hw, hout, hwcnt, emitCodeword_frame _ s⟩

/-- The state after the host has popped all of OUT. -/
def drainOut (s : State) : State := { s with out := [] }

/-- A stream's bits are those the host pops and those still pending (R201). -/
theorem flatMap_out_append_writtenBits_drainOut (s : State) :
    s.out.flatMap byteBits ++ writtenBits (drainOut s) = writtenBits s := rfl

/-- An encode stream between two commands of a host that drains OUT. -/
def drainedEnc (s : State) : Prop := s.mode = .enc ∧ s.out = [] ∧ s.params.wf ∧ writerGood s

/-- A drained OUT has room for the longest codeword and the flush (R9, R236). -/
theorem encodeRoom_le_of_drainedEnc {s : State} {e : CtEntry} (h : drainedEnc s) (he : acceptedEntry s.params e) :
    encodeRoom s e.len.toNat ≤ freeRoom s := by
  obtain ⟨-, hout, ⟨-, hdepth⟩, hw, -, -⟩ := h
  obtain ⟨-, -, hmax⟩ := he
  have hlmax := s.params.lmax.isLt
  simp only [encodeRoom, freeRoom, outCount, hout, List.length_nil]
  omega

theorem drainedEnc_emitCodeword (e : CtEntry) {s : State} (h : drainedEnc s) :
    drainedEnc (drainOut (emitCodeword e s)) := by
  obtain ⟨hm, -, hp, hw⟩ := h
  exact ⟨(writeCode_mode _ _ s).trans hm, rfl, (writeCode_params e.code e.len.toNat s).symm ▸ hp,
    writerGood_writeCode e.code e.len.toNat hm hw⟩

@[simp] theorem drainOut_emitCodeword_mem (e : CtEntry) (s : State) : (drainOut (emitCodeword e s)).mem = s.mem :=
  writeCode_mem e.code e.len.toNat s

@[simp] theorem drainOut_emitCodeword_params (e : CtEntry) (s : State) :
    (drainOut (emitCodeword e s)).params = s.params := writeCode_params e.code e.len.toNat s

theorem length_flatMap_byteBits (bytes : List Byte) : (bytes.flatMap byteBits).length = 8 * bytes.length := by
  induction bytes with
  | nil => rfl
  | cons v bytes ih =>
    rw [List.flatMap_cons, List.length_append, ih, byteBits, length_bitsBelow, List.length_cons]
    omega

/-- The padding fills the last byte (R130). -/
theorem length_add_paddingOf (L : Nat) : L + (paddingOf L).length = 8 * ((L + 7) / 8) := by
  unfold paddingOf
  split
  · simp only [List.length_nil]
    omega
  · simp only [List.length_cons, List.length_replicate]
    omega

/-- A packed stream of L bits is `ceil(L / 8)` bytes (R130, R265). -/
theorem length_of_packed {bytes : List Byte} {code : List Bool}
    (h : bytes.flatMap byteBits = code ++ paddingOf code.length) : bytes.length = (code.length + 7) / 8 := by
  have hlength := congrArg List.length h
  rw [length_flatMap_byteBits, List.length_append, length_add_paddingOf] at hlength
  omega

theorem paddingOf_congr {L L' : Nat} (h : L % 8 = L' % 8) : paddingOf L = paddingOf L' := by
  rw [← paddingOf_mod L, h, paddingOf_mod]

/-- A codeword emitted counts towards the padding as its length (R130, R261). -/
theorem paddingOf_emitCodeword (e : CtEntry) {s : State} (h : s.wcnt.toNat ≤ 7) (n : Nat) :
    paddingOf ((drainOut (emitCodeword e s)).wcnt.toNat + n) =
      paddingOf (s.wcnt.toNat + ((codewordOf e).length + n)) := by
  have hwcnt : (drainOut (emitCodeword e s)).wcnt.toNat = (s.wcnt.toNat + e.len.toNat) % 8 := (emitCodeword_count e h).1
  apply paddingOf_congr
  rw [hwcnt, codewordOf, length_bitsBelow]
  omega

/-- A run of drained commands pops what its first command pushed, then what the rest pop. -/
theorem runDrained_cons {i : Instr} {is : List Instr} {s t u : State} {later : List Byte} (h : exec i s = .next t)
    (hlater : runDrained is (drainOut t) = some (later, u)) : runDrained (i :: is) s = some (t.out ++ later, u) := by
  rw [drainOut] at hlater
  simp only [runDrained, h, hlater]

/-- The state in which a drained encode stream is closed, so many symbols and codeword bits on (R263, R265). -/
def closedStream (s : State) (symbols codeBits : Nat) : State :=
  { s with
    mode := .idle
    out := []
    wbuf := 0
    wcnt := 0
    syms := s.syms + BitVec.ofNat 64 symbols
    bits := s.bits + BitVec.ofNat 64 codeBits }

/-- A codeword emitted first is one symbol more and its length in bits more at the end (R261). -/
theorem closedStream_emitCodeword (e : CtEntry) (s : State) (symbols codeBits : Nat) :
    closedStream (drainOut (emitCodeword e s)) symbols codeBits =
      closedStream s (symbols + 1) ((codewordOf e).length + codeBits) := by
  have hsyms : s.syms + 1 + BitVec.ofNat 64 symbols = s.syms + BitVec.ofNat 64 (symbols + 1) := by
    rw [Nat.add_comm, BitVec.ofNat_add, BitVec.add_assoc]
    rfl
  have hbits : s.bits + e.len.setWidth 64 + BitVec.ofNat 64 codeBits =
      s.bits + BitVec.ofNat 64 ((codewordOf e).length + codeBits) := by
    rw [codewordOf, length_bitsBelow, BitVec.ofNat_add, BitVec.ofNat_toNat, BitVec.add_assoc]
  rw [emitCodeword_frame]
  simp only [closedStream, drainOut, hsyms, hbits]

/-- ENC_FINISH pops the pending bits and the padding and closes the stream (R130, R202, R263). -/
theorem runDrained_encFinish {s : State} (h : drainedEnc s) :
    ∃ bytes, runDrained [.encFinish] s = some (bytes, closedStream s 0 0) ∧
      bytes.flatMap byteBits = writtenBits s ++ paddingOf s.wcnt.toNat := by
  obtain ⟨hm, hout, -, hw⟩ := h
  obtain ⟨bytes, hbytes : (encFinishBody s).out = s.out ++ bytes, hbits⟩ := finish_stream (s := s) hw.1
  rw [hout, List.nil_append] at hbytes
  have hclosed : drainOut (encFinishBody s) = closedStream s 0 0 := by
    have hwbuf := finish_wbuf s (wbuf_eq_zero_of_wcnt hw)
    apply State.ext_fields <;> simp [drainOut, encFinishBody, closedStream, finish_wcnt, hwbuf]
  have hexec : exec .encFinish s = .next (encFinishBody s) := exec_legal (by simp [legalIn, hm])
  refine ⟨bytes ++ [], ?_, ?_⟩
  · rw [← hclosed, ← hbytes]
    exact runDrained_cons hexec rfl
  · rw [List.append_nil, hbits, writtenBits, hout]
    rfl

/-- The codewords of a text, one after another (R130). -/
def codeOf (m : List Host.Cell) (text : List Byte) : List Bool := text.flatMap (fun x => codewordOf (ctEntry m x))

theorem codeOf_cons (m : List Host.Cell) (x : Byte) (text : List Byte) :
    codeOf m (x :: text) = codewordOf (ctEntry m x) ++ codeOf m text := rfl

/-- The rest of an encode stream pops the bits already written, the text's codewords and the padding (R264, R265). -/
theorem runDrained_text (text : List Byte) {s : State} (h : drainedEnc s)
    (ha : ∀ x ∈ text, acceptedEntry s.params (ctEntry s.mem x)) :
    ∃ bytes, runDrained (text.map Instr.encSym ++ [.encFinish]) s =
        some (bytes, closedStream s text.length (codeOf s.mem text).length) ∧
      bytes.flatMap byteBits =
        writtenBits s ++ codeOf s.mem text ++ paddingOf (s.wcnt.toNat + (codeOf s.mem text).length) := by
  induction text generalizing s with
  | nil =>
    obtain ⟨bytes, hrun, hbits⟩ := runDrained_encFinish h
    exact ⟨bytes, hrun, by simpa [codeOf] using hbits⟩
  | cons x text ih =>
    obtain ⟨hx, htext⟩ := List.forall_mem_cons.mp ha
    obtain ⟨hm, -, -, hw, -, -⟩ := id h
    have hexec := exec_encSym_accepted hm hx (encodeRoom_le_of_drainedEnc h hx)
    obtain ⟨later, hlater, hbits⟩ := ih (drainedEnc_emitCodeword (ctEntry s.mem x) h) (by simpa using htext)
    simp only [drainOut_emitCodeword_mem] at hlater hbits
    rw [closedStream_emitCodeword, ← List.length_append, ← codeOf_cons] at hlater
    rw [paddingOf_emitCodeword _ hw] at hbits
    refine ⟨_, runDrained_cons hexec hlater, ?_⟩
    calc ((emitCodeword (ctEntry s.mem x) s).out ++ later).flatMap byteBits
        = writtenBits (emitCodeword (ctEntry s.mem x) s) ++ codeOf s.mem text ++
            paddingOf (s.wcnt.toNat + ((codewordOf (ctEntry s.mem x)).length + (codeOf s.mem text).length)) := by
          rw [List.flatMap_append, hbits, ← List.append_assoc, ← List.append_assoc,
            flatMap_out_append_writtenBits_drainOut]
      _ = writtenBits s ++ codeOf s.mem (x :: text) ++
            paddingOf (s.wcnt.toNat + (codeOf s.mem (x :: text)).length) := by
          rw [writtenBits_emitCodeword _ hw, codeOf_cons, List.length_append, List.append_assoc (writtenBits s)]

/-- The state ENC_OPEN leaves (R260). -/
def openedStream (s : State) : State := { s with wbuf := 0, wcnt := 0, syms := 0, bits := 0, mode := .enc }

theorem exec_encOpen_empty {s : State} (hm : s.mode = .idle) (hout : s.out = []) :
    exec .encOpen s = .next (openedStream s) := by
  rw [exec_legal (by simp [legalIn, hm]), commandBody, encOpenBody, if_neg (by simp [outCount, hout]), openedStream]

/-- Settles O44: ENC_OPEN starts an empty stream, each ENC_SYM appends its codeword to it, and ENC_FINISH pads it. -/
theorem encodeStreamIsPackedCodewords : Obligations.EncodeStreamIsPackedCodewords := by
  intro s text hp hm hout ha code
  have hdrained : drainedEnc (drainOut (openedStream s)) :=
    ⟨rfl, rfl, hp, by simp [drainOut, openedStream], by simp [drainOut, openedStream], fun _ => ⟨rfl, rfl⟩⟩
  obtain ⟨bytes, hrun, hbits⟩ := runDrained_text text hdrained ha
  have hpacked : bytes.flatMap byteBits = codeOf s.mem text ++ paddingOf (codeOf s.mem text).length := by
    simpa [writtenBits, drainOut, openedStream, bitsBelow] using hbits
  refine ⟨(openedStream s).out ++ bytes, _, runDrained_cons (exec_encOpen_empty hm hout) hrun, ?_, ?_, ?_⟩
  · rw [openedStream, hout]
    exact hpacked
  · rw [openedStream, hout]
    exact length_of_packed hpacked
  · apply State.ext_fields <;> simp [closedStream, drainOut, openedStream, codeOf, code, hm, hout]

end Sys2Proof.Machine
end

section
/-! PROOF. Node words by tag and field, and one bit of the tree walk by the tags of node and child (R125, R126, R294). -/

namespace Sys2Proof.Machine

open Sys2Proof Sys2Proof.Safety

theorem nodeOfWord_of_tag_zero {n : Word} (h : n.extractLsb' 30 2 = 0) : nodeOfWord n = .empty := by
  simp [nodeOfWord, h]

theorem nodeOfWord_of_tag_one {n : Word} (h : n.extractLsb' 30 2 = 1) : nodeOfWord n = .leaf (n.extractLsb' 0 8) := by
  simp [nodeOfWord, h]

theorem nodeOfWord_of_tag_two {n : Word} (h : n.extractLsb' 30 2 = 2) :
    nodeOfWord n = .internal (n.extractLsb' 0 9) (n.extractLsb' 16 9) := by
  simp [nodeOfWord, h]

theorem nodeOfWord_of_tag_three {n : Word} (h : n.extractLsb' 30 2 = 3) : nodeOfWord n = .rsvd := by
  simp [nodeOfWord, h]

/-- A leaf's word as a number (R126). -/
theorem toNat_leafWord (sym : Byte) : (leafWord sym).toNat = 2 ^ 30 + sym.toNat := by
  have hsym := sym.isLt
  rw [leafWord, BitVec.toNat_or, BitVec.toNat_setWidth, Nat.mod_eq_of_lt (by omega)]
  exact (Nat.two_pow_add_eq_or_of_lt (i := 30) (by omega) 1).symm

/-- An internal node's word as a number (R126). -/
theorem toNat_internalWord (l r : NodeIndex) : (internalWord l r).toNat = 2 ^ 31 + 2 ^ 16 * r.toNat + l.toNat := by
  have hl := l.isLt
  have hr := r.isLt
  have hright : (r.setWidth 32 <<< 16).toNat = 2 ^ 16 * r.toNat := by
    rw [BitVec.toNat_shiftLeft, BitVec.toNat_setWidth, Nat.shiftLeft_eq]
    omega
  have hleft : (l.setWidth 32).toNat = l.toNat := by
    rw [BitVec.toNat_setWidth]
    omega
  rw [internalWord, BitVec.toNat_or, BitVec.toNat_or, hright, hleft, Nat.or_assoc,
    ← Nat.two_pow_add_eq_or_of_lt (by omega), Nat.add_assoc]
  exact (Nat.two_pow_add_eq_or_of_lt (i := 31) (by omega) 1).symm

/-- The word a host writes for a leaf is a LEAF node of its symbol (R125, R126). -/
theorem nodeOfWord_leafWord (sym : Byte) : nodeOfWord (leafWord sym) = .leaf sym := by
  have hsym := sym.isLt
  have hword := toNat_leafWord sym
  have htag : (leafWord sym).extractLsb' 30 2 = 1 := extractLsb'_eq_of_toNat (show _ = 1 by omega)
  have hfield : (leafWord sym).extractLsb' 0 8 = sym := extractLsb'_eq_of_toNat (by omega)
  rw [nodeOfWord_of_tag_one htag, hfield]

/-- The word a host writes for an internal node is an INTERNAL node of its children (R125, R126). -/
theorem nodeOfWord_internalWord (l r : NodeIndex) : nodeOfWord (internalWord l r) = .internal l r := by
  have hl := l.isLt
  have hr := r.isLt
  have hword := toNat_internalWord l r
  have htag : (internalWord l r).extractLsb' 30 2 = 2 := extractLsb'_eq_of_toNat (show _ = 2 by omega)
  have hleft : (internalWord l r).extractLsb' 0 9 = l := extractLsb'_eq_of_toNat (by omega)
  have hright : (internalWord l r).extractLsb' 16 9 = r := extractLsb'_eq_of_toNat (by omega)
  rw [nodeOfWord_of_tag_two htag, hleft, hright]

theorem walkStep_of_leaf {s : State} {sym : Byte} (b : Bool) (v : Byte) (i : BitVec 3)
    (h : nodeAt s.mem s.cur = .leaf sym) :
    walkStep b v i s = if b then .raised (raise .walkPastLeaf v i s) else .running (emitSymbol sym s) := by
  rw [walkStep, h]

theorem walkStep_of_malformed {s : State} (b : Bool) (v : Byte) (i : BitVec 3)
    (h : nodeAt s.mem s.cur = .empty ∨ nodeAt s.mem s.cur = .rsvd) :
    walkStep b v i s = .raised (raise .malformedTree v i s) := by
  rcases h with h | h <;> rw [walkStep, h]

theorem walkStep_to_leaf {s : State} {b : Bool} (v : Byte) (i : BitVec 3) {l r : NodeIndex} {sym : Byte}
    (h : nodeAt s.mem s.cur = .internal l r) (hc : nodeAt s.mem (childOf l r b) = .leaf sym) :
    walkStep b v i s = .running (toRoot (emitSymbol sym s)) := by
  simp only [walkStep, h, hc]

theorem walkStep_to_internal {s : State} {b : Bool} (v : Byte) (i : BitVec 3) {l r l' r' : NodeIndex}
    (h : nodeAt s.mem s.cur = .internal l r) (hc : nodeAt s.mem (childOf l r b) = .internal l' r') :
    walkStep b v i s =
      if Config.depthLimit ≤ s.depth.toNat + 1 then .raised (raise .depthExceeded v i s)
      else .running { s with cur := childOf l r b, depth := s.depth + 1, bits := s.bits + 1 } := by
  simp only [walkStep, h, hc]

theorem walkStep_to_malformed {s : State} {b : Bool} (v : Byte) (i : BitVec 3) {l r : NodeIndex}
    (h : nodeAt s.mem s.cur = .internal l r)
    (hc : nodeAt s.mem (childOf l r b) = .empty ∨ nodeAt s.mem (childOf l r b) = .rsvd) :
    walkStep b v i s = .raised (raise .malformedTree v i s) := by
  rcases hc with hc | hc <;> simp only [walkStep, h, hc]

theorem childOf_eq_ite (l r : NodeIndex) (b : Bool) : childOf l r b = if b = false then l else r := by
  cases b <;> rfl

/-- Settles O47: the tag picks the node, the two words a host writes have their fields, and the walk looks at the node at
the cursor and at the child the bit selects. -/
theorem walkStepByNodeTags : Obligations.WalkStepByNodeTags := by
  refine ⟨fun n => ⟨nodeOfWord_of_tag_zero, nodeOfWord_of_tag_one, nodeOfWord_of_tag_two, nodeOfWord_of_tag_three⟩,
    fun sym => ⟨rfl, nodeOfWord_leafWord sym⟩, fun l r => ⟨rfl, nodeOfWord_internalWord l r⟩, by decide, by decide,
    fun s b v i => ⟨fun _ => rfl, fun sym h => walkStep_of_leaf b v i h, walkStep_of_malformed b v i,
      fun l r h => ?_⟩⟩
  rw [← childOf_eq_ite]
  exact ⟨fun sym hc => walkStep_to_leaf v i h hc, fun l' r' hc => walkStep_to_internal v i h hc,
    walkStep_to_malformed v i h⟩

end Sys2Proof.Machine
end

section
/-! PROOF. The codewords of a tree of two leaves or more do not begin with each other (R166, R169). -/

namespace Sys2Proof.Machine.Offline

open Sys2Proof Sys2Proof.Machine Sys2Proof.Safety

theorem beginsWith_trans {x y z : List Bool} (hxy : beginsWith x y) (hyz : beginsWith y z) : beginsWith x z := by
  obtain ⟨b, rfl⟩ := hxy
  obtain ⟨a, rfl⟩ := hyz
  exact ⟨a ++ b, List.append_assoc ..⟩

/-- Every codeword of a subtree begins with the path to the subtree (R166). -/
theorem beginsWith_path_of_mem_pathsFrom {path : List Bool} {t : Tree} {x : Byte × List Bool}
    (h : x ∈ pathsFrom path t) : beginsWith x.2 path := by
  induction t generalizing path with
  | leaf i w s =>
    obtain rfl : x = (s, path) := by simpa [pathsFrom] using h
    exact ⟨[], (List.append_nil path).symm⟩
  | internal i w l r ihl ihr =>
    rcases List.mem_append.mp h with hl | hr
    · exact beginsWith_trans (ihl hl) ⟨[false], rfl⟩
    · exact beginsWith_trans (ihr hr) ⟨[true], rfl⟩

/-- No sequence begins with both children's paths (R166). -/
theorem not_beginsWith_both_children {path bits : List Bool} (hl : beginsWith bits (path ++ [false]))
    (hr : beginsWith bits (path ++ [true])) : False := by
  obtain ⟨a, rfl⟩ := hl
  obtain ⟨b, h⟩ := hr
  simp at h

/-- Codewords that leave a node by different children do not begin with each other (R166, R169). -/
theorem not_beginsWith_of_diverge {path : List Bool} {l r : Tree} {x y : Byte × List Bool}
    (hx : x ∈ pathsFrom (path ++ [false]) l) (hy : y ∈ pathsFrom (path ++ [true]) r) :
    ¬beginsWith x.2 y.2 ∧ ¬beginsWith y.2 x.2 := by
  have hleft := beginsWith_path_of_mem_pathsFrom hx
  have hright := beginsWith_path_of_mem_pathsFrom hy
  exact ⟨fun h => not_beginsWith_both_children hleft (beginsWith_trans h hright),
    fun h => not_beginsWith_both_children (beginsWith_trans h hleft) hright⟩

/-- The paths to the leaves of a tree do not begin with each other, whatever leads to the tree (R166, R169). -/
theorem pathsFrom_pairwise_not_beginsWith (path : List Bool) (t : Tree) :
    (pathsFrom path t).Pairwise (fun x y => ¬beginsWith x.2 y.2 ∧ ¬beginsWith y.2 x.2) := by
  induction t generalizing path with
  | leaf i w s => exact List.pairwise_singleton _ _
  | internal i w l r ihl ihr =>
    exact List.pairwise_append.mpr ⟨ihl _, ihr _, fun x hx y hy => not_beginsWith_of_diverge hx hy⟩

/-- Settles O60: two leaves or more stand below an internal root, and two paths of a tree part at some node. -/
theorem codewordsArePrefixFree : Obligations.CodewordsArePrefixFree := by
  intro t hleaves
  cases t with
  | leaf i w s => simp [leavesOf] at hleaves
  | internal i w l r => exact pathsFrom_pairwise_not_beginsWith [] _

end Sys2Proof.Machine.Offline
end

section
/-! PROOF. The two-queue merge keeps the leaves and the weight of its forest and makes a node for each pair it takes
(R163 to R165). -/

namespace Sys2Proof.Machine.Offline

open Sys2Proof Sys2Proof.Machine Sys2Proof.Safety

/-- A tree that stands for a forest: the forest's leaves and weight, and one node more than the forest's for each tree
beyond the first (R164, R165). -/
structure Joins (t : Tree) (forest : List Tree) : Prop where
  leaves : (leavesOf t).Perm (forest.flatMap leavesOf)
  nodes : nodesOf t + 1 = (forest.map nodesOf).sum + forest.length
  weight : t.weight = (forest.map Tree.weight).sum

theorem joins_singleton (t : Tree) : Joins t [t] := ⟨by simp, by simp, by simp⟩

theorem Joins.of_perm {t : Tree} {forest forest' : List Tree} (h : Joins t forest) (hp : forest.Perm forest') :
    Joins t forest' :=
  ⟨h.leaves.trans (hp.flatMap_right _), by rw [h.nodes, (hp.map _).sum_eq, hp.length_eq],
    by rw [h.weight, (hp.map _).sum_eq]⟩

/-- Two trees put under a new node leave the forest's leaves and weight, and there is a node more and a tree less (R164). -/
theorem Joins.of_merged {t a b : Tree} {i : Nat} {rest : List Tree}
    (h : Joins t (.internal i (a.weight + b.weight) a b :: rest)) : Joins t (a :: b :: rest) := by
  obtain ⟨hleaves, hnodes, hweight⟩ := h
  refine ⟨?_, ?_, ?_⟩
  · simpa [leavesOf] using hleaves
  · simp only [List.map_cons, List.sum_cons, List.length_cons, nodesOf] at hnodes ⊢
    omega
  · simpa [Tree.weight, Nat.add_assoc] using hweight

/-- The selection takes one tree out of the two queues (R163). -/
theorem select_perm {qa qb : List Tree} {c : Selected} (h : select qa qb = some c) :
    (qa ++ qb).Perm (c.node :: (c.queueA ++ c.queueB)) := by
  unfold select at h
  split at h
  · cases h
  · cases h
    exact .refl _
  · cases h
    exact .refl _
  · split at h
    · cases h
      exact .refl _
    · cases h
      exact List.perm_middle

/-- There is nothing to select only in two empty queues (R163). -/
theorem append_eq_nil_of_select_none {qa qb : List Tree} (h : select qa qb = none) : qa ++ qb = [] := by
  unfold select at h
  split at h
  · rfl
  · cases h
  · cases h
  · split at h <;> cases h

/-- With fuel for each tree of the queues the merge ends in one tree that stands for all of them (R164, R165). -/
theorem mergeQueues_joins {fuel next : Nat} {qa qb : List Tree} (hne : qa ++ qb ≠ []) (hfuel : (qa ++ qb).length ≤ fuel) :
    ∃ t, mergeQueues fuel next qa qb = some t ∧ Joins t (qa ++ qb) := by
  induction fuel generalizing next qa qb with
  | zero => exact absurd (List.eq_nil_of_length_eq_zero (by omega)) hne
  | succ fuel ih =>
    rw [mergeQueues]
    cases h₁ : select qa qb with
    | none => exact absurd (append_eq_nil_of_select_none h₁) hne
    | some c₁ =>
      have hp₁ := select_perm h₁
      cases h₂ : select c₁.queueA c₁.queueB with
      | none =>
        rw [append_eq_nil_of_select_none h₂] at hp₁
        exact ⟨_, by simp only [h₂], (joins_singleton c₁.node).of_perm hp₁.symm⟩
      | some c₂ =>
        have hp := hp₁.trans ((select_perm h₂).cons c₁.node)
        have hlength := hp.length_eq
        simp only [List.length_cons, List.length_append] at hlength hfuel
        obtain ⟨t, ht, hjoins⟩ := ih (next := next + 1) (qa := c₂.queueA)
          (qb := c₂.queueB ++ [.internal next (c₁.node.weight + c₂.node.weight) c₁.node c₂.node]) (by simp)
          (by simp only [List.length_append, List.length_singleton]; omega)
        refine ⟨t, by simp only [h₂, ht], ?_⟩
        rw [← List.append_assoc] at hjoins
        exact (hjoins.of_perm (List.perm_append_singleton _ _)).of_merged.of_perm hp.symm

@[simp] theorem flatMap_leavesOf_leavesFrom (i : Nat) (xs : List Weighted) :
    (leavesFrom i xs).flatMap leavesOf = xs := by
  induction xs generalizing i with
  | nil => rfl
  | cons x xs ih => rw [leavesFrom, List.flatMap_cons, ih, leavesOf, List.singleton_append]

@[simp] theorem map_nodesOf_leavesFrom (i : Nat) (xs : List Weighted) :
    (leavesFrom i xs).map nodesOf = List.replicate xs.length 1 := by
  induction xs generalizing i with
  | nil => rfl
  | cons x xs ih => rw [leavesFrom, List.map_cons, ih, nodesOf, List.length_cons, List.replicate_succ]

@[simp] theorem map_weight_leavesFrom (i : Nat) (xs : List Weighted) :
    (leavesFrom i xs).map Tree.weight = xs.map Weighted.weight := by
  induction xs generalizing i with
  | nil => rfl
  | cons x xs ih => rw [leavesFrom, List.map_cons, ih, Tree.weight, List.map_cons]

@[simp] theorem length_leavesFrom (i : Nat) (xs : List Weighted) : (leavesFrom i xs).length = xs.length := by
  rw [← List.length_map (f := Tree.weight), map_weight_leavesFrom, List.length_map]

/-- Settles O59: the builder merges the alphabet's leaves, and the merge keeps leaves and weight. -/
theorem treeBuilderKeepsLeavesAndWeight : Obligations.TreeBuilderKeepsLeavesAndWeight := by
  intro sorted hne
  have hpos : 0 < sorted.length := List.length_pos_iff.mpr hne
  have hforest : leavesFrom 0 sorted ++ [] ≠ [] := List.ne_nil_of_length_pos (by simpa using hpos)
  obtain ⟨t, ht, hleaves, hnodes, hweight⟩ :=
    mergeQueues_joins (fuel := sorted.length) (next := sorted.length) hforest (by simp)
  simp only [List.append_nil, flatMap_leavesOf_leavesFrom, map_nodesOf_leavesFrom, map_weight_leavesFrom,
    length_leavesFrom, List.sum_replicate_nat] at hleaves hnodes hweight
  exact ⟨t, ht, hleaves, by omega, hweight⟩

end Sys2Proof.Machine.Offline
end

section
/-! PROOF. The persisted file: a header read back entry by entry, and the file of an alphabet opened again (R161, R174 to
R177). -/

namespace Sys2Proof.Machine.Offline

open Sys2Proof Sys2Proof.Machine Sys2Proof.Safety

/-- The bytes of one header entry (R174). -/
def entryBytes (e : HeaderEntry) : List Byte := e.sym :: headerInt e.freq

theorem headerBytes_eq (entries : List HeaderEntry) :
    headerBytes entries = headerInt (BitVec.ofNat 32 entries.length) ++ entries.flatMap entryBytes := rfl

theorem length_flatMap_entryBytes (entries : List HeaderEntry) :
    (entries.flatMap entryBytes).length = 5 * entries.length := by
  induction entries with
  | nil => rfl
  | cons e es ih =>
    rw [List.flatMap_cons, List.length_append, ih, List.length_cons]
    simp only [entryBytes, headerInt, List.length_cons, List.length_nil]
    omega

/-- A header takes `4 + 5·n` bytes (R174). -/
theorem length_headerBytes (entries : List HeaderEntry) : (headerBytes entries).length = 4 + 5 * entries.length := by
  rw [headerBytes_eq, List.length_append, length_flatMap_entryBytes]
  rfl

/-- The entries of a header read back, and the payload is what follows them (R174, R177). -/
theorem readEntries_flatMap_entryBytes (entries : List HeaderEntry) (payload : List Byte) :
    readEntries entries.length (entries.flatMap entryBytes ++ payload) = some (entries, payload) := by
  induction entries with
  | nil => rfl
  | cons e es ih =>
    simp only [List.flatMap_cons, entryBytes, headerInt, List.cons_append, List.nil_append, List.length_cons,
      readEntries, ih, Memory.lanes_append]

/-- A written header parses back (R174, R177). -/
theorem parseFile_headerBytes {entries : List HeaderEntry} (h : entries.length < 2 ^ 32) (payload : List Byte) :
    parseFile (headerBytes entries ++ payload) = .done (entries, payload) := by
  rw [headerBytes_eq]
  simp only [headerInt, List.cons_append, List.nil_append, parseFile]
  rw [Memory.lanes_append, BitVec.toNat_ofNat, Nat.mod_eq_of_lt h, readEntries_flatMap_entryBytes]

/-- The header entry of a weighted symbol whose weight has a 4-byte form (R174). -/
def entryOfWeighted (x : Weighted) : HeaderEntry := { sym := x.sym, freq := BitVec.ofNat 32 x.weight }

theorem toNat_freq_entryOfWeighted {x : Weighted} (h : x.weight < 2 ^ 32) :
    (entryOfWeighted x).freq.toNat = x.weight := by
  rw [entryOfWeighted, BitVec.toNat_ofNat, Nat.mod_eq_of_lt h]

/-- The alphabet of a header has the pairs its entries were made from (R162, R175). -/
theorem acceptedPairs_headerAlphabet {xs : List Weighted} (h : ∀ x ∈ xs, x.weight < 2 ^ 32) :
    acceptedPairs (headerAlphabet (xs.map entryOfWeighted)) = some xs := by
  induction xs with
  | nil => rfl
  | cons x xs ih =>
    obtain ⟨hx, hxs⟩ := List.forall_mem_cons.mp h
    rw [headerAlphabet, List.map_cons, List.map_cons, ← headerAlphabet, acceptedPairs, ih hxs,
      toNat_freq_entryOfWeighted hx]
    rfl

/-- Accepted pairs without a symbol twice are a valid alphabet (R160). -/
theorem validate_of_acceptedPairs {alphabet : List (Byte × Weight)} {ps : List Weighted}
    (h : acceptedPairs alphabet = some ps) (hne : ps ≠ []) (hnodup : (ps.map Weighted.sym).Nodup) :
    validate alphabet = .done ps := by
  unfold validate
  rw [h]
  cases ps with
  | nil => exact absurd rfl hne
  | cons p ps => exact if_pos hnodup

/-- The count of a header is the sum of the weights it was made from (R176). -/
theorem headerCount_map_entryOfWeighted {xs : List Weighted} (h : ∀ x ∈ xs, x.weight < 2 ^ 32) :
    headerCount (xs.map entryOfWeighted) = BitVec.ofNat 64 (xs.map Weighted.weight).sum := by
  have key : ∀ n : Count, (xs.map entryOfWeighted).foldl (fun n e => n + e.freq.setWidth 64) n =
      n + BitVec.ofNat 64 (xs.map Weighted.weight).sum := by
    induction xs with
    | nil => simp
    | cons x xs ih =>
      obtain ⟨hx, hxs⟩ := List.forall_mem_cons.mp h
      intro n
      have hfreq : (entryOfWeighted x).freq.setWidth 64 = BitVec.ofNat 64 x.weight := by
        rw [← BitVec.ofNat_toNat, toNat_freq_entryOfWeighted hx]
      rw [List.map_cons, List.foldl_cons, ih hxs, hfreq, List.map_cons, List.sum_cons, BitVec.ofNat_add,
        BitVec.add_assoc]
  rw [headerCount, key]
  simp

/-- An alphabet without a symbol twice has at most 256 symbols. -/
theorem length_le_of_nodup_syms {ps : List Weighted} (h : (ps.map Weighted.sym).Nodup) : ps.length ≤ 256 := by
  have hcard := h.length_le_card
  rw [List.length_map] at hcard
  exact hcard.trans_eq FinEnum.card_eq_fintypeCard.symm

/-- The tree builder answers a tree for every valid alphabet (R160, R164). -/
theorem treeOf_of_validate {alphabet : List (Byte × Weight)} {ps : List Weighted} (h : validate alphabet = .done ps) :
    ∃ t, treeOf alphabet = .done t := by
  obtain ⟨-, hne, -⟩ := validate_done h
  have hsorted : sortAlphabet ps ≠ [] := fun h0 => hne ((h0 ▸ sortAlphabet_perm ps).nil_eq.symm)
  obtain ⟨t, ht, -⟩ := treeBuilderKeepsLeavesAndWeight _ hsorted
  exact ⟨t, by simp only [treeOf, h, ht]⟩

/-- The file of a valid alphabet: the entries of its sorted pairs, then the payload (R161, R174). -/
theorem writeFile_of_validate {alphabet : List (Byte × Weight)} {ps : List Weighted} (h : validate alphabet = .done ps)
    (hlt : ∀ x ∈ sortAlphabet ps, x.weight < 2 ^ 32) (payload : List Byte) :
    writeFile alphabet payload = .done (headerBytes ((sortAlphabet ps).map entryOfWeighted) ++ payload) := by
  simp only [writeFile, h, headerOf, headerEntries_of_lt hlt]
  rfl

/-- The alphabet of the written header is valid, with the pairs in sorted order (R161, R175). -/
theorem validate_headerAlphabet_sortAlphabet {alphabet : List (Byte × Weight)} {ps : List Weighted}
    (h : validate alphabet = .done ps) (hlt : ∀ x ∈ sortAlphabet ps, x.weight < 2 ^ 32) :
    validate (headerAlphabet ((sortAlphabet ps).map entryOfWeighted)) = .done (sortAlphabet ps) := by
  obtain ⟨-, hne, hnodup⟩ := validate_done h
  have hperm := sortAlphabet_perm ps
  exact validate_of_acceptedPairs (acceptedPairs_headerAlphabet hlt) (fun h0 => hne ((h0 ▸ hperm).nil_eq.symm))
    ((hperm.map _).nodup_iff.mpr hnodup)

/-- Both hosts build one tree: a second sort by the same key changes nothing (R161, R175). -/
theorem treeOf_headerAlphabet_sortAlphabet {alphabet : List (Byte × Weight)} {ps : List Weighted}
    (h : validate alphabet = .done ps) (hlt : ∀ x ∈ sortAlphabet ps, x.weight < 2 ^ 32) :
    treeOf (headerAlphabet ((sortAlphabet ps).map entryOfWeighted)) = treeOf alphabet := by
  simp only [treeOf, h, validate_headerAlphabet_sortAlphabet h hlt, sortAlphabet_of_sorted (sortAlphabet_sorted ps)]

/-- Settles O58: the header's lanes read back as its integers, and the sorted pairs of a written header give the encoder's
tree and the sum of its weights. -/
theorem headerRoundTrip : Obligations.HeaderRoundTrip := by
  refine ⟨fun entries payload hcount => ⟨parseFile_headerBytes hcount payload, length_headerBytes entries⟩,
    fun alphabet ps payload hvalid hweights => ?_⟩
  obtain ⟨-, -, hnodup⟩ := validate_done hvalid
  obtain ⟨t, ht⟩ := treeOf_of_validate hvalid
  have hperm := sortAlphabet_perm ps
  have hlt : ∀ x ∈ sortAlphabet ps, x.weight < 2 ^ 32 := fun x hx => hweights x (hperm.mem_iff.mp hx)
  have hlength : ((sortAlphabet ps).map entryOfWeighted).length < 2 ^ 32 := by
    have := length_le_of_nodup_syms hnodup
    rw [List.length_map, hperm.length_eq]
    omega
  refine ⟨_, t, writeFile_of_validate hvalid hlt payload, ht, ?_⟩
  simp only [openFile, parseFile_headerBytes hlength, treeOf_headerAlphabet_sortAlphabet hvalid hlt, ht,
    headerCount_map_entryOfWeighted hlt, (hperm.map Weighted.weight).sum_eq]

end Sys2Proof.Machine.Offline
end

section
/-! PROOF. The tree walk over a sequence of bits: what it does not look at, and what a codeword and a text of codewords make
of the state (R166, R167, R292, R294, R296). -/

namespace Sys2Proof.Machine

open Sys2Proof Sys2Proof.Safety

/-- The state a walk goes on from, if it raised nothing. -/
def Walk.running? : Walk → Option State
  | .running s => some s
  | .raised _ => none

@[simp] theorem Walk.running?_eq_some_iff {w : Walk} {t : State} : w.running? = some t ↔ w = .running t := by
  cases w <;> simp [Walk.running?]

@[simp] theorem walkList_nil (s : State) : walkList [] s = some s := rfl

theorem walkList_cons (b : Bool) (bs : List Bool) (s : State) :
    walkList (b :: bs) s = (walkStep b 0 0 s).running?.bind (walkList bs) := by
  rw [walkList]
  cases walkStep b 0 0 s <;> rfl

theorem walkList_cons_of_running {b : Bool} {s t : State} (h : walkStep b 0 0 s = .running t) (bs : List Bool) :
    walkList (b :: bs) s = walkList bs t := by
  rw [walkList_cons, h]
  rfl

/-- A walk of a sequence whose first bit does not raise goes through the state after that bit. -/
theorem walkList_cons_eq_some {b : Bool} {bs : List Bool} {s t : State} (h : walkList (b :: bs) s = some t) :
    ∃ u, walkStep b 0 0 s = .running u ∧ walkList bs u = some t := by
  simpa [walkList_cons, Option.bind_eq_some_iff] using h

/-- Bits are walked one part after the other (R292). -/
theorem walkList_append (p q : List Bool) (s : State) : walkList (p ++ q) s = (walkList p s).bind (walkList q) := by
  induction p generalizing s with
  | nil => rfl
  | cons b p ih =>
    simp only [List.cons_append, walkList_cons, Option.bind_assoc]
    exact congrArg _ (funext ih)

/-- The state after a text of so many codeword bits, the cursor back at the root (R294, R301). -/
def decoded (s : State) (text : List Byte) (codeBits : Nat) : State :=
  { s with
    out := s.out ++ text
    syms := s.syms + BitVec.ofNat 64 text.length
    bits := s.bits + BitVec.ofNat 64 codeBits
    cur := s.rroot
    depth := 0 }

/-- A bit walked to an INTERNAL child counts towards the codeword it belongs to (R294). -/
theorem decoded_of_edge (s : State) (k : NodeIndex) (d : Byte) (text : List Byte) (n : Nat) :
    decoded { s with cur := k, depth := d, bits := s.bits + 1 } text n = decoded s text (n + 1) := by
  have hbits : s.bits + 1 + BitVec.ofNat 64 n = s.bits + BitVec.ofNat 64 (n + 1) := by
    rw [Nat.add_comm, BitVec.ofNat_add, BitVec.add_assoc]
    rfl
  simp only [decoded, hbits]

/-- A path has a first bit; its node is INTERNAL, and the child is the LEAF where the path ends, or INTERNAL with the rest of
the path (R166). -/
theorem leadsTo_cons {m : List Host.Cell} {i : NodeIndex} {b : Bool} {bs : List Bool} {sym : Byte}
    (h : leadsTo m i (b :: bs) sym) :
    ∃ l r, nodeAt m i = .internal l r ∧
      ((bs = [] ∧ nodeAt m (childOf l r b) = .leaf sym) ∨
        (bs ≠ [] ∧ (∃ l' r', nodeAt m (childOf l r b) = .internal l' r') ∧ leadsTo m (childOf l r b) bs sym)) := by
  cases bs with
  | nil =>
    obtain ⟨l, r, hnode, hleaf⟩ := h
    exact ⟨l, r, hnode, .inl ⟨rfl, hleaf⟩⟩
  | cons c cs =>
    obtain ⟨l, r, hnode, hchild, hrest⟩ := h
    exact ⟨l, r, hnode, .inr ⟨List.cons_ne_nil _ _, hchild, hrest⟩⟩

theorem walkStep_to_internal_below_limit {s : State} {b : Bool} (v : Byte) (i : BitVec 3) {l r l' r' : NodeIndex}
    (h : nodeAt s.mem s.cur = .internal l r) (hc : nodeAt s.mem (childOf l r b) = .internal l' r')
    (hdepth : s.depth.toNat + 1 < 255) :
    walkStep b v i s = .running { s with cur := childOf l r b, depth := s.depth + 1, bits := s.bits + 1 } := by
  rw [walkStep_to_internal v i h hc, if_neg]
  simpa only [Config.depthLimit, Nat.not_le] using hdepth

/-- A path walked to its leaf within the depth limit emits the leaf's symbol and returns to the root (R292, R294, R296). -/
theorem walkList_of_leadsTo {s : State} {bits : List Bool} {sym : Byte} (h : leadsTo s.mem s.cur bits sym)
    (hdepth : s.depth.toNat + bits.length ≤ 255) : walkList bits s = some (decoded s [sym] bits.length) := by
  induction bits generalizing s with
  | nil => exact h.elim
  | cons b bs ih =>
    rw [List.length_cons] at hdepth
    obtain ⟨l, r, hnode, ⟨rfl, hleaf⟩ | ⟨hne, ⟨l', r', hchild⟩, hrest⟩⟩ := leadsTo_cons h
    · exact walkList_cons_of_running (walkStep_to_leaf 0 0 hnode hleaf) []
    · have hpos := List.length_pos_iff.mpr hne
      have hstep : (s.depth + 1).toNat = s.depth.toNat + 1 := by
        rw [BitVec.toNat_add]
        exact Nat.mod_eq_of_lt (show s.depth.toNat + 1 < 256 by omega)
      rw [walkList_cons_of_running (walkStep_to_internal_below_limit 0 0 hnode hchild (by omega)),
        ih hrest (by simp only [hstep]; omega), decoded_of_edge, List.length_cons]

/-- The cursor is at the root (R51, R290, R294). -/
def atRoot (s : State) : Prop := s.cur = s.rroot ∧ s.depth = 0

theorem atRoot_decoded (s : State) (text : List Byte) (n : Nat) : atRoot (decoded s text n) := ⟨rfl, rfl⟩

/-- A codeword walked from the root emits its symbol and returns to the root (R166, R167, R294). -/
theorem walkList_of_isCodeword {s : State} {bits : List Bool} {sym : Byte} (h : isCodeword s.mem s.rroot bits sym)
    (hlength : bits.length ≤ 255) (hroot : atRoot s) : walkList bits s = some (decoded s [sym] bits.length) := by
  obtain ⟨hcur, hdepth⟩ := hroot
  rcases h with ⟨hleaf, rfl⟩ | hpath
  · rw [← hcur] at hleaf
    have hstay : emitSymbol sym s = decoded s [sym] 1 := by
      apply State.ext_fields <;> simp [decoded, hcur, hdepth]
    rw [walkList_cons_of_running (walkStep_of_leaf false 0 0 hleaf), hstay]
    rfl
  · exact walkList_of_leadsTo (hcur ▸ hpath) (by simpa [hdepth] using hlength)

/-- Settles O49: at a LEAF root the one bit emits and stays; from an INTERNAL root the path is walked edge by edge. -/
theorem walkingACodewordEmitsItsSymbol : Obligations.WalkingACodewordEmitsItsSymbol := by
  intro s bits sym hcode hlength hcur hdepth
  rw [walkList_of_isCodeword hcode hlength ⟨hcur, hdepth⟩, decoded, ← hcur, ← hdepth]
  rfl

end Sys2Proof.Machine
end

section
/-! PROOF. The walk of a text of codewords, and that no proper beginning of its bits completes the text (R166, R291, R294). -/

namespace Sys2Proof.Machine

open Sys2Proof Sys2Proof.Safety

/-- One text decoded after another is their concatenation decoded (R294). -/
theorem decoded_decoded (s : State) (text later : List Byte) (m n : Nat) :
    decoded (decoded s text m) later n = decoded s (text ++ later) (m + n) := by
  simp only [decoded, List.append_assoc, List.length_append, BitVec.ofNat_add, BitVec.add_assoc]

/-- Every symbol of a text has a codeword of at most 255 bits in the tree at a root (R166, R167, R296). -/
def hasCodewords (m : List Host.Cell) (root : NodeIndex) (code : Byte → List Bool) (text : List Byte) : Prop :=
  ∀ x ∈ text, isCodeword m root (code x) x ∧ (code x).length ≤ 255

/-- The codewords of a text walked from the root emit the text (R294, R301). -/
theorem walkList_flatMap_code {code : Byte → List Bool} {text : List Byte} {s : State}
    (h : hasCodewords s.mem s.rroot code text) (hroot : atRoot s) :
    walkList (text.flatMap code) s = some (decoded s text (text.flatMap code).length) := by
  induction text generalizing s with
  | nil =>
    obtain ⟨hcur, hdepth⟩ := hroot
    rw [List.flatMap_nil, walkList_nil, Option.some.injEq]
    apply State.ext_fields <;> simp [decoded, hcur, hdepth]
  | cons x text ih =>
    obtain ⟨⟨hcode, hlength⟩, htext⟩ := List.forall_mem_cons.mp h
    rw [List.flatMap_cons, walkList_append, walkList_of_isCodeword hcode hlength hroot, Option.bind_some,
      ih (s := decoded s [x] (code x).length) htext (atRoot_decoded ..), decoded_decoded, List.length_append]
    rfl

/-- Inside a path nothing is emitted yet (R294). -/
theorem counts_of_walkList_inside_path {s t : State} {p q : List Bool} {sym : Byte}
    (h : leadsTo s.mem s.cur (p ++ q) sym) (hq : q ≠ []) (ht : walkList p s = some t) :
    t.syms = s.syms ∧ t.target = s.target := by
  induction p generalizing s with
  | nil =>
    obtain rfl : s = t := by simpa using ht
    exact ⟨rfl, rfl⟩
  | cons b p ih =>
    obtain ⟨u, hu, ht⟩ := walkList_cons_eq_some ht
    obtain ⟨l, r, hnode, ⟨hnil, -⟩ | ⟨-, ⟨l', r', hchild⟩, hrest⟩⟩ := leadsTo_cons h
    · exact absurd (List.append_eq_nil_iff.mp hnil).2 hq
    · rw [walkStep_to_internal 0 0 hnode hchild] at hu
      split at hu
      · cases hu
      · cases hu
        exact ih (s := { s with cur := childOf l r b, depth := s.depth + 1, bits := s.bits + 1 }) hrest ht

/-- Inside a codeword nothing is emitted yet (R166, R167, R294). -/
theorem counts_of_walkList_inside_codeword {s t : State} {p q : List Bool} {sym : Byte}
    (h : isCodeword s.mem s.rroot (p ++ q) sym) (hroot : atRoot s) (hq : q ≠ []) (ht : walkList p s = some t) :
    t.syms = s.syms ∧ t.target = s.target := by
  rcases h with ⟨-, hbits⟩ | hpath
  · obtain ⟨rfl, -⟩ : p = [] ∧ q = [false] := by
      simpa [List.append_eq_singleton_iff, hq] using hbits
    obtain rfl : s = t := by simpa using ht
    exact ⟨rfl, rfl⟩
  · exact counts_of_walkList_inside_path (hroot.1 ▸ hpath) hq ht

/-- A beginning of two sequences one after the other ends inside the first or takes all of it. -/
theorem append_eq_append_cases {p q c rest : List Bool} (h : p ++ q = c ++ rest) :
    (∃ q', c = p ++ q' ∧ q' ≠ []) ∨ ∃ p', p = c ++ p' ∧ rest = p' ++ q := by
  rcases List.append_eq_append_iff.mp h with ⟨q', hc, hq⟩ | ⟨p', hp, hrest⟩
  · rcases eq_or_ne q' [] with rfl | hne
    · exact .inr ⟨[], by simpa using hc.symm, by simpa using hq.symm⟩
    · exact .inl ⟨q', hc, hne⟩
  · exact .inr ⟨p', hp, hrest⟩

/-- A text's bits do not reach the count early: a symbol is emitted by the last bit of its codeword only, and fewer symbols
than the text has do not reach it (R291, R294). -/
theorem countNotReachedBefore_flatMap_code {code : Byte → List Bool} {text : List Byte} {s : State}
    (h : hasCodewords s.mem s.rroot code text) (hroot : atRoot s)
    (hcount : ∀ k < text.length, s.syms + BitVec.ofNat 64 k ≠ s.target) :
    countNotReachedBefore (text.flatMap code) s := by
  induction text generalizing s with
  | nil =>
    intro p q hpq hq
    exact absurd (List.append_eq_nil_iff.mp hpq.symm).2 hq
  | cons x text ih =>
    intro p q hpq hq t ht
    obtain ⟨⟨hcode, hlength⟩, htext⟩ := List.forall_mem_cons.mp h
    rw [List.flatMap_cons] at hpq
    obtain ⟨q', hc, hq'⟩ | ⟨p', rfl, hrest⟩ := append_eq_append_cases hpq.symm
    · obtain ⟨hsyms, htarget⟩ := counts_of_walkList_inside_codeword (hc ▸ hcode) hroot hq' ht
      rw [hsyms, htarget]
      simpa using hcount 0 (by simp)
    · rw [walkList_append, walkList_of_isCodeword hcode hlength hroot, Option.bind_some] at ht
      refine ih (s := decoded s [x] (code x).length) htext (atRoot_decoded ..) (fun k hk => ?_) p' q hrest hq t ht
      have hnext : s.syms + BitVec.ofNat 64 1 + BitVec.ofNat 64 k = s.syms + BitVec.ofNat 64 (k + 1) := by
        rw [Nat.add_comm, BitVec.ofNat_add, BitVec.add_assoc]
      show s.syms + BitVec.ofNat 64 1 + BitVec.ofNat 64 k ≠ s.target
      rw [hnext]
      exact hcount (k + 1) (by simpa using hk)

end Sys2Proof.Machine
end

section
/-! PROOF. DEC_BYTE as a walk of its byte's bits, and what the walk does not look at (R291, R293, R298). -/

namespace Sys2Proof.Machine

open Sys2Proof Sys2Proof.Safety

/-- A state with bytes put before OUT's and another BitReader: a walk looks at neither (R294). -/
def reframed (earlier : List Byte) (v : Byte) (r : BitVec 4) (s : State) : State :=
  { s with out := earlier ++ s.out, rbuf := v, rcnt := r }

theorem emitSymbol_reframed (sym : Byte) (earlier : List Byte) (v : Byte) (r : BitVec 4) (s : State) :
    emitSymbol sym (reframed earlier v r s) = reframed earlier v r (emitSymbol sym s) := by
  apply State.ext_fields <;> simp [reframed]

/-- A bit does the same whatever OUT and the BitReader hold and whatever an error would record (R294). -/
theorem walkStep_reframed (b : Bool) (w : Byte) (i : BitVec 3) (earlier : List Byte) (v : Byte) (r : BitVec 4)
    (s : State) :
    (walkStep b w i (reframed earlier v r s)).running? =
      (walkStep b 0 0 s).running?.map (reframed earlier v r) := by
  cases hnode : nodeAt s.mem s.cur with
  | leaf sym =>
    rw [walkStep_of_leaf b 0 0 hnode, walkStep_of_leaf (s := reframed earlier v r s) b w i hnode, emitSymbol_reframed]
    cases b <;> rfl
  | internal left right =>
    cases hchild : nodeAt s.mem (childOf left right b) with
    | leaf sym =>
      rw [walkStep_to_leaf 0 0 hnode hchild, walkStep_to_leaf (s := reframed earlier v r s) w i hnode hchild,
        emitSymbol_reframed]
      rfl
    | internal l' r' =>
      rw [walkStep_to_internal 0 0 hnode hchild, walkStep_to_internal (s := reframed earlier v r s) w i hnode hchild]
      by_cases hdepth : Config.depthLimit ≤ s.depth.toNat + 1
      · rw [if_pos hdepth, if_pos (show Config.depthLimit ≤ (reframed earlier v r s).depth.toNat + 1 from hdepth)]
        rfl
      · rw [if_neg hdepth, if_neg (show ¬Config.depthLimit ≤ (reframed earlier v r s).depth.toNat + 1 from hdepth)]
        rfl
    | empty | rsvd =>
      have hbad : nodeAt s.mem (childOf left right b) = .empty ∨ nodeAt s.mem (childOf left right b) = .rsvd := by
        simp [hchild]
      rw [walkStep_to_malformed 0 0 hnode hbad, walkStep_to_malformed (s := reframed earlier v r s) w i hnode hbad]
      rfl
  | empty | rsvd =>
    have hbad : nodeAt s.mem s.cur = .empty ∨ nodeAt s.mem s.cur = .rsvd := by simp [hnode]
    rw [walkStep_of_malformed b 0 0 hbad, walkStep_of_malformed (s := reframed earlier v r s) b w i hbad]
    rfl

theorem walkStep_reframed_of_running {b : Bool} {s t : State} (h : walkStep b 0 0 s = .running t) (w : Byte)
    (i : BitVec 3) (earlier : List Byte) (v : Byte) (r : BitVec 4) :
    walkStep b w i (reframed earlier v r s) = .running (reframed earlier v r t) := by
  have hrunning := walkStep_reframed b w i earlier v r s
  rw [h] at hrunning
  exact Walk.running?_eq_some_iff.mp hrunning

theorem walkList_reframed (bits : List Bool) (earlier : List Byte) (v : Byte) (r : BitVec 4) (s : State) :
    walkList bits (reframed earlier v r s) = (walkList bits s).map (reframed earlier v r) := by
  induction bits generalizing s with
  | nil => rfl
  | cons b bits ih =>
    rw [walkList_cons, walkList_cons, walkStep_reframed]
    cases (walkStep b 0 0 s).running? with
    | none => rfl
    | some t => exact ih t

/-- A walk changes neither the mode nor the build's parameters (R294). -/
theorem walkList_mode_params {bits : List Bool} {s t : State} (h : walkList bits s = some t) :
    t.mode = s.mode ∧ t.params = s.params := by
  induction bits generalizing s with
  | nil =>
    obtain rfl : s = t := by simpa using h
    exact ⟨rfl, rfl⟩
  | cons b bits ih =>
    obtain ⟨u, hu, ht⟩ := walkList_cons_eq_some h
    obtain ⟨sym, rfl⟩ | ⟨sym, rfl⟩ | ⟨k, l, r, -, -, rfl⟩ := walkStep_running hu <;>
      obtain ⟨hmode, hparams⟩ := ih ht <;> exact ⟨hmode, hparams⟩

/-- Where the count is not reached before a sequence's end, it is not reached before the end of what remains after a first
part (R291). -/
theorem countNotReachedBefore_of_walked {p q : List Bool} {s t : State} (h : countNotReachedBefore (p ++ q) s)
    (ht : walkList p s = some t) : countNotReachedBefore q t := by
  intro p' q' hq hne u hu
  refine h (p ++ p') q' (by rw [hq, List.append_assoc]) hne u ?_
  rw [walkList_append, ht, Option.bind_some, hu]

theorem syms_ne_target_of_countNotReachedBefore {bits : List Bool} {s : State} (h : countNotReachedBefore bits s)
    (hne : bits ≠ []) : s.syms ≠ s.target := h [] bits rfl hne s rfl

/-- A beginning of a sequence does not reach the count before its end either (R291). -/
theorem countNotReachedBefore_of_append {p q : List Bool} {s : State} (h : countNotReachedBefore (p ++ q) s) :
    countNotReachedBefore p s := by
  intro p' q' hp hne u hu
  exact h p' (q' ++ q) (by rw [hp, List.append_assoc]) (fun h0 => hne (List.append_eq_nil_iff.mp h0).1) u hu

/-- With n + 1 bits left in the BitReader, the next one is bit n and n are left after it (R206). -/
theorem ofNat_four_succ_sub_one (n : Nat) : BitVec.ofNat 4 (n + 1) - 1 = BitVec.ofNat 4 n := by
  rw [BitVec.ofNat_add]
  exact BitVec.add_sub_cancel _ _

theorem toNat_ofNat_four {n : Nat} (h : n ≤ 8) : (BitVec.ofNat 4 n).toNat = n := by
  rw [BitVec.toNat_ofNat]
  exact Nat.mod_eq_of_lt (by omega)

theorem ofNat_four_succ_ne_zero {n : Nat} (h : n + 1 ≤ 8) : BitVec.ofNat 4 (n + 1) ≠ 0 := fun h0 => by
  simpa [toNat_ofNat_four h] using congrArg BitVec.toNat h0

/-- What follows a first part of the bits below a position is the bits below a lower one. -/
theorem eq_bitsBelow_of_append {v : Byte} {n : Nat} {walked rest : List Bool} (h : bitsBelow v n = walked ++ rest) :
    rest = bitsBelow v rest.length := by
  induction walked generalizing n with
  | nil =>
    have hlength : n = rest.length := by simpa using congrArg List.length h
    rw [← hlength]
    exact h.symm
  | cons b walked ih =>
    cases n with
    | zero => exact absurd h (List.cons_ne_nil _ _).symm
    | succ n => exact ih (List.cons.inj h).2

/-- DEC_BYTE's loop over the bits it walks: it stops when the operand is used up or the count is reached (R291, R293). -/
theorem walkBits_of_walkList {v : Byte} {n : Nat} {walked rest : List Bool} {s t : State} (hn : n ≤ 8)
    (hbits : bitsBelow v n = walked ++ rest) (ht : walkList walked s = some t) (hcount : countNotReachedBefore walked s)
    (hend : rest = [] ∨ t.syms = t.target) :
    walkBits v n (reframed [] v (BitVec.ofNat 4 n) s) =
      .running (reframed [] v (BitVec.ofNat 4 rest.length) t) := by
  induction walked generalizing n s with
  | nil =>
    obtain rfl : s = t := by simpa using ht
    have hlength : n = rest.length := by simpa using congrArg List.length hbits
    subst hlength
    cases rest with
    | nil => rfl
    | cons b rest =>
      rw [List.length_cons, walkBits, if_pos (.inr (hend.resolve_left (List.cons_ne_nil _ _)))]
  | cons b walked ih =>
    cases n with
    | zero => exact absurd hbits (List.cons_ne_nil _ _).symm
    | succ n =>
      obtain ⟨hb, hbits⟩ := List.cons.inj hbits
      obtain ⟨u, hu, ht⟩ := walkList_cons_eq_some ht
      have hne : s.syms ≠ s.target := syms_ne_target_of_countNotReachedBefore hcount (List.cons_ne_nil _ _)
      have hlater : countNotReachedBefore walked u :=
        countNotReachedBefore_of_walked (p := [b]) hcount (walkList_cons_of_running hu [])
      have hbit : bitToRead (reframed [] v (BitVec.ofNat 4 (n + 1)) s) = b := by
        show v.getLsbD (BitVec.ofNat 4 (n + 1) - 1).toNat = b
        rw [ofNat_four_succ_sub_one, toNat_ofNat_four (by omega), hb]
      have hconsume : consumeBit (reframed [] v (BitVec.ofNat 4 (n + 1)) s) = reframed [] v (BitVec.ofNat 4 n) s := by
        show reframed [] v (BitVec.ofNat 4 (n + 1) - 1) s = _
        rw [ofNat_four_succ_sub_one]
      have hgo : ¬((reframed [] v (BitVec.ofNat 4 (n + 1)) s).rcnt = 0 ∨
          (reframed [] v (BitVec.ofNat 4 (n + 1)) s).syms = (reframed [] v (BitVec.ofNat 4 (n + 1)) s).target) :=
        not_or.mpr ⟨ofNat_four_succ_ne_zero hn, hne⟩
      rw [walkBits, if_neg hgo, hbit, hconsume, walkStep_reframed_of_running hu]
      exact ih (by omega) hbits ht hlater

/-- The marker and zeros below it are valid padding (R208, R298). -/
theorem paddingError_of_marker : ∀ (v : Byte) (n : Fin 8),
    bitsBelow v (n + 1) = true :: List.replicate n false → paddingError v (n + 1) = none := by
  decide +kernel

theorem finishByte_of_valid_padding {v : Byte} {s : State} (hcount : s.syms = s.target) (hleft : s.rcnt ≠ 0)
    (hpadding : paddingError v s.rcnt.toNat = none) : finishByte v s = { s with rcnt := 0 } := by
  rw [finishByte, if_pos ⟨hcount, hleft⟩, hpadding]

/-- The end of a DEC_BYTE with no bit left, or with the count reached and valid padding left (R291, R298). -/
theorem finishByte_reframed {v : Byte} {t : State} {rest : List Bool} (hrest : rest = bitsBelow v rest.length)
    (hlength : rest.length ≤ 8)
    (hend : rest = [] ∨ (t.syms = t.target ∧ ∃ n, rest = true :: List.replicate n false)) :
    finishByte v (reframed [] v (BitVec.ofNat 4 rest.length) t) = reframed [] v 0 t := by
  rcases hend with rfl | ⟨hcount, n, hmarker⟩
  · exact if_neg (fun h => h.2 rfl)
  · have hn : rest.length = n + 1 := by rw [hmarker, List.length_cons, List.length_replicate]
    have hbelow : bitsBelow v (n + 1) = true :: List.replicate n false := by
      rw [← hn, ← hrest]
      exact hmarker
    have hpadding : paddingError v (BitVec.ofNat 4 (n + 1)).toNat = none := by
      rw [toNat_ofNat_four (by omega)]
      exact paddingError_of_marker v ⟨n, by omega⟩ hbelow
    rw [hn]
    exact finishByte_of_valid_padding hcount (ofNat_four_succ_ne_zero (by omega)) hpadding

/-- DEC_BYTE without an error walks its byte's bits up to the count and finds valid padding after it (R236, R291, R298). -/
theorem exec_decByte_of_walkList {s t : State} {v : Byte} {walked rest : List Bool} (hm : s.mode = .dec)
    (hne : s.syms ≠ s.target) (hroom : decodeRoom s ≤ freeRoom s) (hbits : byteBits v = walked ++ rest)
    (ht : walkList walked s = some t) (hcount : countNotReachedBefore walked s)
    (hend : rest = [] ∨ (t.syms = t.target ∧ ∃ n, rest = true :: List.replicate n false)) :
    exec (.decByte v) s = .next (reframed [] v 0 t) := by
  have hwalk : walkBits v 8 (load v s) = .running (reframed [] v (BitVec.ofNat 4 rest.length) t) :=
    walkBits_of_walkList le_rfl hbits ht hcount (hend.imp_right And.left)
  have hlength : rest.length ≤ 8 := by
    have := congrArg List.length hbits
    rw [byteBits, length_bitsBelow, List.length_append] at this
    omega
  rw [exec_legal (by simp [legalIn, hm]), commandBody, decByteBody, if_neg hne, if_neg (by omega), hwalk]
  exact congrArg _ (finishByte_reframed (eq_bitsBelow_of_append hbits) hlength hend)

end Sys2Proof.Machine
end

section
/-! PROOF. The decode stream with OUT drained after each command, and the round trip (R173, R264, R301). -/

namespace Sys2Proof.Machine

open Sys2Proof Sys2Proof.Safety

/-- What may follow a stream's last codeword: nothing, or the marker and fewer than seven zeros (R130). -/
def isPadding (pad : List Bool) : Prop := pad = [] ∨ ∃ n < 7, pad = true :: List.replicate n false

theorem isPadding_paddingOf (L : Nat) : isPadding (paddingOf L) := by
  unfold paddingOf
  split
  · exact .inl rfl
  · exact .inr ⟨7 - L % 8, by omega, rfl⟩

theorem length_le_of_isPadding {pad : List Bool} (h : isPadding pad) : pad.length ≤ 7 := by
  obtain rfl | ⟨n, hn, rfl⟩ := h
  · simp
  · rw [List.length_cons, List.length_replicate]
    omega

/-- A stream with a byte in it holds more than padding (R130). -/
theorem ne_nil_of_byte {v : Byte} {stream : List Byte} {bits pad : List Bool} (hpad : isPadding pad)
    (h : (v :: stream).flatMap byteBits = bits ++ pad) : bits ≠ [] := by
  rintro rfl
  have hlength := congrArg List.length h
  have hle := length_le_of_isPadding hpad
  rw [length_flatMap_byteBits, List.length_cons, List.nil_append] at hlength
  omega

/-- The first byte of a stream holds codeword bits only, or the last of them and the padding that ends the stream (R130). -/
theorem first_byte_of_stream {v : Byte} {stream : List Byte} {bits pad : List Bool} (hpad : isPadding pad)
    (h : (v :: stream).flatMap byteBits = bits ++ pad) :
    ∃ walked later rest pad', bits = walked ++ later ∧ byteBits v = walked ++ rest ∧
      stream.flatMap byteBits = later ++ pad' ∧ isPadding pad' ∧
      (rest = [] ∨ (later = [] ∧ ∃ n, rest = true :: List.replicate n false)) := by
  rw [List.flatMap_cons] at h
  obtain ⟨later, hbits, hstream⟩ | ⟨rest, hbyte, hrest⟩ := List.append_eq_append_iff.mp h
  · exact ⟨byteBits v, later, [], pad, hbits, (List.append_nil _).symm, hstream, hpad, .inl rfl⟩
  · have hle := length_le_of_isPadding hpad
    rw [hrest, List.length_append, length_flatMap_byteBits] at hle
    obtain rfl : stream = [] := List.length_eq_zero_iff.mp (by omega)
    obtain rfl : pad = rest := by simpa using hrest
    exact ⟨bits, [], pad, [], (List.append_nil _).symm, hbyte, rfl, .inl rfl,
      hpad.imp_right fun ⟨n, _, hmarker⟩ => ⟨rfl, n, hmarker⟩⟩

/-- A decode stream between two commands of a host that drains OUT. -/
def drainedDec (s : State) : Prop := s.mode = .dec ∧ s.out = [] ∧ s.params.wf

/-- A drained OUT has room for every symbol of a byte (R9, R236). -/
theorem decodeRoom_le_of_drainedDec {s : State} (h : drainedDec s) : decodeRoom s ≤ freeRoom s := by
  obtain ⟨-, hout, -, hdepth⟩ := h
  simp only [decodeRoom, freeRoom, outCount, hout, List.length_nil]
  omega

/-- Popped bytes and the old BitReader put back. -/
theorem reframed_drainOut (v : Byte) (r : BitVec 4) (t : State) :
    reframed t.out t.rbuf t.rcnt (drainOut (reframed [] v r t)) = t := by
  apply State.ext_fields <;> simp [reframed, drainOut]

theorem countNotReachedBefore_of_reframed {bits : List Bool} {earlier : List Byte} {v : Byte} {r : BitVec 4} {s : State}
    (h : countNotReachedBefore bits (reframed earlier v r s)) : countNotReachedBefore bits s := by
  intro p q hpq hq u hu
  exact h p q hpq hq (reframed earlier v r u) (by rw [walkList_reframed, hu, Option.map_some])

/-- The state in which a drained decode stream is closed after a walk: BitReader aside, the walk's own with OUT popped
(R299). -/
def closedWalk (f : State) (v : Byte) (r : BitVec 4) : State := { f with mode := .idle, out := [], rbuf := v, rcnt := r }

/-- DEC_END closes a stream whose count is reached (R299). -/
theorem runDrained_decEnd {s : State} (hm : s.mode = .dec) (hend : s.syms = s.target) :
    runDrained [.decEnd] s = some (s.out, closedWalk s s.rbuf s.rcnt) := by
  have hexec : exec .decEnd s = .next { s with mode := .idle } := by
    rw [exec_legal (by simp [legalIn, hm]), commandBody, decEndBody, if_neg (not_not.mpr hend)]
  have hrun := runDrained_cons hexec (is := []) rfl
  rw [List.append_nil] at hrun
  exact hrun

/-- The bytes of a stream fed one by one walk the stream's bits: the host pops what the walk emits (R291, R301). -/
theorem runDrained_decBytes {stream : List Byte} {bits pad : List Bool} {s f : State} (hs : drainedDec s)
    (hpad : isPadding pad) (hstream : stream.flatMap byteBits = bits ++ pad) (hf : walkList bits s = some f)
    (hcount : countNotReachedBefore bits s) (hend : f.syms = f.target) :
    ∃ v r, runDrained (stream.map Instr.decByte ++ [.decEnd]) s = some (f.out, closedWalk f v r) := by
  induction stream generalizing bits pad s f with
  | nil =>
    obtain ⟨rfl, -⟩ := List.append_eq_nil_iff.mp hstream.symm
    obtain rfl : s = f := by simpa using hf
    exact ⟨_, _, runDrained_decEnd hs.1 hend⟩
  | cons v stream ih =>
    have hne := syms_ne_target_of_countNotReachedBefore hcount (ne_nil_of_byte hpad hstream)
    obtain ⟨walked, later, rest, pad', rfl, hbyte, hstream, hpad, hrest⟩ := first_byte_of_stream hpad hstream
    rw [walkList_append] at hf
    obtain ⟨t, ht, hlater⟩ := Option.bind_eq_some_iff.mp hf
    have hexec : exec (.decByte v) s = .next (reframed [] v 0 t) := by
      refine exec_decByte_of_walkList hs.1 hne (decodeRoom_le_of_drainedDec hs) hbyte ht
        (countNotReachedBefore_of_append hcount) (hrest.imp_right fun ⟨hnil, hmarker⟩ => ⟨?_, hmarker⟩)
      obtain rfl : t = f := by simpa [hnil] using hlater
      exact hend
    have hcount := countNotReachedBefore_of_walked hcount ht
    rw [← reframed_drainOut v 0 t] at hlater hcount
    rw [walkList_reframed] at hlater
    obtain ⟨f', hf', rfl⟩ := Option.map_eq_some_iff.mp hlater
    obtain ⟨hmode, hparams⟩ := walkList_mode_params ht
    obtain ⟨v', r', hrun⟩ := ih (s := drainOut (reframed [] v 0 t)) ⟨hmode.trans hs.1, rfl, hparams ▸ hs.2.2⟩ hpad
      hstream hf' (countNotReachedBefore_of_reframed hcount) hend
    have hall := runDrained_cons hexec hrun
    exact ⟨v', r', hall⟩

/-- The state DEC_OPEN leaves (R290). -/
def openedDecode (s : State) : State :=
  { s with
    rroot := s.root
    target := s.symcount
    cur := s.root
    depth := 0
    rcnt := 0
    syms := 0
    bits := 0
    mode := .dec }

theorem exec_decOpen_empty {s : State} (hm : s.mode = .idle) (hout : s.out = []) :
    exec .decOpen s = .next (openedDecode s) := by
  rw [exec_legal (by simp [legalIn, hm]), commandBody, decOpenBody, if_neg (by simp [outCount, hout]), openedDecode]

/-- Fewer symbols than a count of 64 bits do not reach it (R12, R291). -/
theorem ofNat_ne_of_lt {k n : Nat} (hk : k < n) (hn : n < 2 ^ 64) : BitVec.ofNat 64 k ≠ BitVec.ofNat 64 n := by
  intro h
  have := congrArg BitVec.toNat h
  rw [BitVec.toNat_ofNat, BitVec.toNat_ofNat, Nat.mod_eq_of_lt hn, Nat.mod_eq_of_lt (hk.trans hn)] at this
  omega

/-- The bytes that hold a text's codewords and the padding decode to the text (R301). -/
theorem runDrained_decodeCommands {s : State} {code : Byte → List Bool} {text stream : List Byte} (hp : s.params.wf)
    (hm : s.mode = .idle) (hout : s.out = []) (hlength : text.length < 2 ^ 64)
    (hsymcount : s.symcount = BitVec.ofNat 64 text.length) (hcode : hasCodewords s.mem s.root code text)
    (hstream : stream.flatMap byteBits = text.flatMap code ++ paddingOf (text.flatMap code).length) :
    ∃ t, runDrained (decodeCommands stream) s = some (text, t) ∧
      t.mode = .idle ∧ t.error = s.error ∧ t.syms = BitVec.ofNat 64 text.length ∧
      t.bits = BitVec.ofNat 64 (text.flatMap code).length := by
  have hdrained : drainedDec (drainOut (openedDecode s)) := ⟨rfl, rfl, hp⟩
  have hroot : atRoot (drainOut (openedDecode s)) := ⟨rfl, rfl⟩
  have hwalk := walkList_flatMap_code (s := drainOut (openedDecode s)) hcode hroot
  have hcount : countNotReachedBefore (text.flatMap code) (drainOut (openedDecode s)) := by
    refine countNotReachedBefore_flatMap_code hcode hroot fun k hk => ?_
    show 0 + BitVec.ofNat 64 k ≠ s.symcount
    rw [hsymcount, zero_add]
    exact ofNat_ne_of_lt hk hlength
  have hend : (0 : Count) + BitVec.ofNat 64 text.length = s.symcount := by rw [hsymcount, zero_add]
  obtain ⟨v, r, hrun⟩ := runDrained_decBytes hdrained (isPadding_paddingOf _) hstream hwalk hcount hend
  have hall := runDrained_cons (exec_decOpen_empty hm hout) hrun
  rw [show (openedDecode s).out = [] from hout] at hall
  exact ⟨_, hall, rfl, rfl, zero_add _, zero_add _⟩

/-- An accepted entry's codeword has at most 255 bits, the largest LMAX (R9, R129). -/
theorem length_codewordOf_le {p : Params} {e : CtEntry} (h : acceptedEntry p e) : (codewordOf e).length ≤ 255 := by
  obtain ⟨-, -, hmax⟩ := h
  have hlmax := p.lmax.isLt
  rw [codewordOf, length_bitsBelow]
  omega

/-- Settles O56: the encode stream packs the text's codewords, and their bits and padding decode to the text. -/
theorem roundTrip : Obligations.RoundTrip := by
  intro s text hp hm hout hlength hsymcount hentries
  obtain ⟨stream, t, hencode, hpacked, -, rfl⟩ :=
    encodeStreamIsPackedCodewords s text hp hm hout (fun x hx => (hentries x hx).1)
  have hcode : hasCodewords s.mem s.root (fun x => codewordOf (ctEntry s.mem x)) text := fun x hx =>
    ⟨(hentries x hx).2, length_codewordOf_le (hentries x hx).1⟩
  obtain ⟨u, hdecode, hmode, herror, hsyms, hbits⟩ :=
    runDrained_decodeCommands (s := { s with
      wbuf := 0
      wcnt := 0
      syms := BitVec.ofNat 64 text.length
      bits := BitVec.ofNat 64 (text.flatMap (fun x => codewordOf (ctEntry s.mem x))).length })
      hp hm hout hlength hsymcount hcode hpacked
  exact ⟨stream, _, u, hencode, hdecode, hmode, herror, hsyms, hbits⟩

end Sys2Proof.Machine
end

section
/-! PROOF. ENC_FINISH with and without pending bits (R202, R263). -/

namespace Sys2Proof.Machine

open Sys2Proof Sys2Proof.Safety

theorem exec_encFinish {s : State} (hm : s.mode = .enc) : exec .encFinish s = .next { finish s with mode := .idle } :=
  exec_legal (by simp [legalIn, hm])

theorem finish_of_wcnt_zero {s : State} (h : s.wcnt = 0) : finish s = s := if_pos h

theorem finish_of_wcnt_ne_zero {s : State} (h : s.wcnt ≠ 0) :
    finish s = { s with out := s.out ++ [finalByte s.wbuf s.wcnt], wbuf := 0, wcnt := 0 } := if_neg h

/-- Settles O41: `finish()` leaves the state alone when no bit is pending, and else pushes the final byte. -/
theorem encFinishClosesTheStream : Obligations.EncFinishClosesTheStream := by
  refine ⟨decode_encode .encFinish, fun s hm hw => ⟨fun hzero => ?_, fun hpending => ?_⟩⟩
  · rw [exec_encFinish hm, finish_of_wcnt_zero hzero]
  · rw [exec_encFinish hm, finish_of_wcnt_ne_zero hpending]
    exact ⟨finalByte s.wbuf s.wcnt, rfl, byteBits_finalByte _ _ hw hpending⟩

end Sys2Proof.Machine
end

section
/-! PROOF. DEC_BYTE whose remaining bits are no valid padding (R208, R297, R298). -/

namespace Sys2Proof.Machine

open Sys2Proof Sys2Proof.Safety

/-- Where two bytes differ at j and agree from there up to n, j is their highest difference below n (R298). -/
theorem highestDifference_eq {x y : Byte} {n j : Nat} (hj : j < n) (hdiffer : x.getLsbD j ≠ y.getLsbD j)
    (hagree : ∀ k, j < k → k < n → x.getLsbD k = y.getLsbD k) : highestDifference x y n = j := by
  induction n with
  | zero => omega
  | succ n ih =>
    rw [highestDifference]
    rcases Nat.lt_succ_iff_lt_or_eq.mp hj with hlt | rfl
    · rw [if_pos (hagree n hlt (by omega))]
      exact ih hlt fun k hjk hk => hagree k hjk (by omega)
    · rw [if_neg hdiffer]

/-- The mask of the r low bits of a byte (R298). -/
theorem getLsbD_shiftLeft_one_sub_one : ∀ (r : Fin 9) (k : Fin 8),
    ((1#8 <<< r.val) - 1).getLsbD k = decide (k.val < r.val) := by decide

/-- The low bits of a byte are its own below r and 0 from r on (R298). -/
theorem getLsbD_lowBits (v : Byte) {r k : Nat} (hr : r ≤ 8) (hk : k < 8) :
    (lowBits v r).getLsbD k = (v.getLsbD k && decide (k < r)) := by
  rw [lowBits, BitVec.getLsbD_and, getLsbD_shiftLeft_one_sub_one ⟨r, by omega⟩ ⟨k, hk⟩]

/-- Valid padding of r bits has its one 1 at position r − 1 (R208). -/
theorem getLsbD_expectedPadding {r k : Nat} (hk : k < 8) :
    (expectedPadding r).getLsbD k = decide (k = r - 1) := by
  rw [expectedPadding, ← BitVec.twoPow_eq, BitVec.getLsbD_twoPow, ← Bool.decide_and, decide_eq_decide]
  omega

/-- The padding check names the highest of the remaining positions that differs from the marker 1 and zeros (R298). -/
theorem paddingError_of_highest {v : Byte} {r j : Nat} (hr : r ≤ 8) (hj : j < r)
    (hwrong : v.getLsbD j ≠ decide (j = r - 1)) (hright : ∀ k, j < k → k < r → v.getLsbD k = decide (k = r - 1)) :
    paddingError v r = some (BitVec.ofNat 3 j) := by
  have hdiffer : (lowBits v r).getLsbD j ≠ (expectedPadding r).getLsbD j := by
    rw [getLsbD_lowBits v hr (by omega), getLsbD_expectedPadding (by omega), decide_eq_true hj, Bool.and_true]
    exact hwrong
  have hagree : ∀ k, j < k → k < 8 → (lowBits v r).getLsbD k = (expectedPadding r).getLsbD k := by
    intro k hjk hk
    rw [getLsbD_lowBits v hr hk, getLsbD_expectedPadding hk]
    by_cases hkr : k < r
    · rw [decide_eq_true hkr, Bool.and_true, hright k hjk hkr]
    · rw [decide_eq_false hkr, Bool.and_false, decide_eq_false (by omega)]
  have hinvalid : lowBits v r ≠ expectedPadding r := fun h => hdiffer (by rw [h])
  rw [paddingError, if_neg hinvalid, highestDifference_eq (by omega) hdiffer hagree]

/-- The end of a DEC_BYTE with the count reached and bad padding left records its highest wrong position (R298). -/
theorem finishByte_of_bad_padding {v : Byte} {t : State} {r j : Nat} (hmode : t.mode ≠ .enc)
    (hcount : t.syms = t.target) (hr : r ≤ 8) (hj : j < r) (hwrong : v.getLsbD j ≠ decide (j = r - 1))
    (hright : ∀ k, j < k → k < r → v.getLsbD k = decide (k = r - 1)) :
    finishByte v (reframed [] v (BitVec.ofNat 4 r) t) =
      { t with
        rbuf := v
        rcnt := 0
        error := errorRecord .badPadding v (BitVec.ofNat 3 j)
        mode := .error } := by
  have hrcnt : (reframed [] v (BitVec.ofNat 4 r) t).rcnt.toNat = r := toNat_ofNat_four hr
  have hleft : (reframed [] v (BitVec.ofNat 4 r) t).rcnt ≠ 0 := fun h0 => by
    have hzero : r = 0 := hrcnt.symm.trans (congrArg BitVec.toNat h0)
    omega
  rw [finishByte, if_pos ⟨hcount, hleft⟩, hrcnt, paddingError_of_highest hr hj hwrong hright]
  exact raise_of_not_enc hmode

/-- A DEC_BYTE whose walk reaches the count ends as `finishByte` says of the bits left (R236, R291). -/
theorem exec_decByte_of_count_reached {s t : State} {v : Byte} {walked rest : List Bool} (hm : s.mode = .dec)
    (hne : s.syms ≠ s.target) (hroom : decodeRoom s ≤ freeRoom s) (hbits : byteBits v = walked ++ rest)
    (ht : walkList walked s = some t) (hcount : countNotReachedBefore walked s) (hend : t.syms = t.target) :
    exec (.decByte v) s = .next (finishByte v (reframed [] v (BitVec.ofNat 4 rest.length) t)) := by
  have hwalk : walkBits v 8 (load v s) = .running (reframed [] v (BitVec.ofNat 4 rest.length) t) :=
    walkBits_of_walkList le_rfl hbits ht hcount (.inr hend)
  rw [exec_legal (by simp [legalIn, hm]), commandBody, decByteBody, if_neg hne, if_neg (by omega), hwalk]

/-- Settles O52: the walk stops at the count, and the padding check names the highest wrong bit of those left. -/
theorem decByteRejectsBadPadding : Obligations.DecByteRejectsBadPadding := by
  intro s t v walked r j hm hne hroom _ hbits ht hcount hend hj hwrong hright
  have hr8 : r ≤ 8 := by
    have := congrArg List.length hbits
    rw [byteBits, length_bitsBelow, List.length_append, length_bitsBelow] at this
    omega
  have hmode : t.mode ≠ .enc := by
    rw [(walkList_mode_params ht).1, hm]
    decide
  rw [exec_decByte_of_count_reached hm hne hroom hbits ht hcount hend, length_bitsBelow,
    finishByte_of_bad_padding hmode hend hr8 hj hwrong hright]
  rfl

end Sys2Proof.Machine
end

section
/-! PROOF. The engine's step on a legal word, an illegal word and a dropped word, and CMD's latch (R230 to R235, R239). -/

namespace Sys2Proof.Machine

open Sys2Proof Sys2Proof.Safety

/-- A command outside its legal modes is dropped in ERROR mode (R232). -/
theorem exec_dropped {i : Instr} {s : State} (hl : legalIn i s.mode = false) (hm : s.mode = .error) :
    exec i s = .next s := by
  rw [exec_eq_dispatch, dispatchCommand, if_neg (by simp [hl]), if_pos hm]

/-- A command outside its legal modes raises WRONG_MODE elsewhere (R234). -/
theorem exec_wrongMode {i : Instr} {s : State} (hl : legalIn i s.mode = false) (hm : s.mode ≠ .error) :
    exec i s = .next (raise .wrongMode i.opcode 0 s) := by
  rw [exec_eq_dispatch, dispatchCommand, if_neg (by simp [hl]), if_neg hm]

theorem illegalCommand_of_error {s : State} (w : Word) (hm : s.mode = .error) : illegalCommand w s = s := if_pos hm

theorem illegalCommand_of_not_error {s : State} (w : Word) (hm : s.mode ≠ .error) :
    illegalCommand w s = raise .illegalCommand (opcodeField w) 0 s := if_neg hm

/-- An illegal word, dropped or raised, leaves the latch and the script alone (R232, R233, R366). -/
theorem illegalCommand_frame (w : Word) (s : State) :
    (illegalCommand w s).pending = s.pending ∧ (illegalCommand w s).script = s.script := by
  unfold illegalCommand
  split <;> simp

/-- A step in the engine's turn on a command's word runs the command, then BUSY <- 0 (R231, R235). -/
theorem step_command {s t : State} {i : Instr} (hb : s.busy = true) (hd : s.delay = 0 ∨ s.script = [])
    (hw : decode s.pending = .command i) (h : exec i s = .next t) : step s = .next (retire t) := by
  rw [step, if_pos ((engineTurn_iff s).2 ⟨hb, hd⟩)]
  simp only [engineStep, hw, h]

/-- A step in the engine's turn on a word that is no command drops or raises it, then BUSY <- 0 (R231 to R233). -/
theorem step_illegal {s : State} {r : Reject} (hb : s.busy = true) (hd : s.delay = 0 ∨ s.script = [])
    (hw : decode s.pending = .illegal r) : step s = .next (retire (illegalCommand s.pending s)) := by
  rw [step, if_pos ((engineTurn_iff s).2 ⟨hb, hd⟩)]
  simp only [engineStep, hw]

/-- Settles O4: every command answers a next state, and the engine's step retires it. -/
theorem stepRunsTheDecodedCommand : Obligations.StepRunsTheDecodedCommand := by
  intro s i hb hd hw
  obtain ⟨t, ht⟩ := exec_answers_next i s
  rw [step_command hb hd hw ht, ht]
  rfl

/-- Settles O5: no command faults, and neither a command nor error entry touches the latch or the script. -/
theorem engineStepAlwaysCompletes : Obligations.EngineStepAlwaysCompletes := by
  intro s hb hd
  cases hw : decode s.pending with
  | command i =>
    obtain ⟨t, ht⟩ := exec_answers_next i s
    obtain ⟨-, -, hpending, -, -, -, hscript, -⟩ := exec_frame ht
    exact ⟨retire t, step_command hb hd hw ht, rfl, hscript, hpending⟩
  | illegal r =>
    obtain ⟨hpending, hscript⟩ := illegalCommand_frame s.pending s
    exact ⟨_, step_illegal hb hd hw, rfl, hscript, hpending⟩

/-- Settles O7: the only word of a command legal in ERROR mode is CLEAR's; every other word leaves the state alone. -/
theorem errorModeDropsAllButClear : Obligations.ErrorModeDropsAllButClear := by
  intro s hb hd hm hne
  cases hw : decode s.pending with
  | command i =>
    have hl : legalIn i s.mode = false := by
      rw [hm, Bool.eq_false_iff]
      intro hlegal
      obtain rfl := eq_clear_of_legalIn_error hlegal
      exact hne (eq_encode_of_decode hw)
    exact step_command hb hd hw (exec_dropped hl hm)
  | illegal r =>
    rw [step_illegal hb hd hw, illegalCommand_of_error _ hm]
    rfl

/-- Settles O8: a word that decodes would match its command's row. -/
theorem illegalWordRaises : Obligations.IllegalWordRaises := by
  intro s hb hd hm hnorow
  cases hw : decode s.pending with
  | command i =>
    obtain ⟨hrow, -⟩ := decoderAgreesWithOpcodeMap s.pending
    obtain ⟨r, hr, -, hmatch⟩ := hrow i hw
    exact absurd hmatch (hnorow r hr)
  | illegal r =>
    rw [step_illegal hb hd hw, illegalCommand_of_not_error _ hm]
    rfl

/-- Settles O9: the modes listed for each command are those it is not legal in, ERROR aside. -/
theorem wrongModeRaises : Obligations.WrongModeRaises := by
  intro s i hm hwrong
  have hl : legalIn i s.mode = false := by
    cases i <;> simpa [legalIn, hm] using hwrong
  exact exec_wrongMode hl hm

/-- Settles O15: CMD is a register, so no table lock reaches it, and BUSY alone decides. -/
theorem cmdWriteLatches : Obligations.CmdWriteLatches := by
  refine fun s w => ⟨fun hb => ?_, fun hb => ?_⟩
  · rw [busWrite, if_pos hb]
  · exact ⟨s.schedule.headD 0, s.schedule.tail, busWrite_register w (by decide) hb⟩

end Sys2Proof.Machine
end

section
/-! PROOF. The end of BUSY within the host accesses its schedule lets come first (R231, R413). -/

namespace Sys2Proof.Machine

open Sys2Proof Sys2Proof.Safety

/-- The bus stops at no admitted access (R80, R91). -/
theorem perform_admitted {op : HostOp} (h : admitted op) (s : State) : ∃ t, perform op s = .next t := by
  cases op with
  | read a size =>
    obtain ⟨rfl, ha, hw⟩ := h
    exact ⟨_, by rw [perform, checkedAccess_ok ha hw]⟩
  | write a size d =>
    obtain ⟨rfl, ha, hw⟩ := h
    exact ⟨_, by rw [perform, checkedAccess_ok ha hw]⟩
  | wait => exact ⟨_, rfl⟩
  | drain => exact ⟨_, rfl⟩
  | reset => exact ⟨_, rfl⟩

theorem busRead_after_busy_delay (a : Nat) (s : State) :
    (busRead a s).after.busy = s.busy ∧ (busRead a s).after.delay = s.delay := by
  obtain h | ⟨-, h⟩ | ⟨-, v, rest, -, -, h, -⟩ := busRead_after a s <;> rw [h] <;> exact ⟨rfl, rfl⟩

theorem busWrite_of_busy (a : Nat) (d : Word) {s : State} (hb : s.busy = true) :
    busWrite a d s = { s with overrun := true } := if_pos hb

/-- While BUSY = 1 a host access uses up one of the accesses the schedule lets come before the engine's step and asks for
none that was not in the script; or it is a reset, which ends BUSY (R336, R400). -/
theorem platformStep_of_busy {s t : State} (hb : s.busy = true) (hne : s.script ≠ [])
    (h : platformStep s = .next t) :
    t.busy = false ∨ (t.busy = true ∧ t.delay = s.delay - 1 ∧ t.script ⊆ s.script) := by
  obtain ⟨hnil, -⟩ | ⟨op, rest, hs, haction⟩ := platformStep_cases h
  · exact absurd hnil hne
  have hbegin : (beginAction rest s).delay = s.delay - 1 := by simp [hb]
  have hrest : rest ⊆ s.script := hs ▸ List.subset_cons_self op rest
  obtain ⟨a, k, hk, rfl⟩ | ⟨a, d, -, -, -, rfl⟩ | ⟨-, rfl⟩ := haction
  · obtain ⟨hbusy, hdelay⟩ := busRead_after_busy_delay a (beginAction rest s)
    refine .inr ⟨hbusy.trans hb, hdelay.trans hbegin, ?_⟩
    obtain rfl | rfl := hk
    · exact hrest
    · simp [hs]
  · rw [busWrite_of_busy a d (s := beginAction rest s) hb]
    exact .inr ⟨hb, hbegin, hrest⟩
  · exact .inl rfl

/-- A run from a step that answers with BUSY = 0 ends there. -/
theorem busyEnds_of_step {s t : State} {n : Nat} (h : step s = .next t) (ht : t.busy = false) :
    ∃ k u, k ≤ n + 1 ∧ runSteps k s = .next u ∧ u.busy = false :=
  ⟨1, t, by omega, by rw [runSteps_succ 0 h, runSteps], ht⟩

/-- Settles O6, by induction on the accesses the schedule still lets come: the engine's step ends BUSY, and every access
before it uses one up. -/
theorem busyEndsWithinItsDelay : Obligations.BusyEndsWithinItsDelay := by
  intro s hb hadmitted
  induction hn : s.delay generalizing s with
  | zero =>
    obtain ⟨t, hstep, ht, -⟩ := engineStepAlwaysCompletes s hb (.inl hn)
    exact busyEnds_of_step hstep ht
  | succ n ih =>
    cases hs : s.script with
    | nil =>
      obtain ⟨t, hstep, ht, -⟩ := engineStepAlwaysCompletes s hb (.inr hs)
      exact busyEnds_of_step hstep ht
    | cons op rest =>
      have turn : engineTurn s = false := by simp [engineTurn, hn, hs]
      obtain ⟨t, ht⟩ := perform_admitted (hadmitted op (by simp [hs])) (beginAction rest s)
      have hstep : step s = .next t := (step_eq_perform turn hs).trans ht
      have hplatform : platformStep s = .next t := by simp only [platformStep, hs, ht]
      obtain hdone | ⟨hbusy, hdelay, hscript⟩ := platformStep_of_busy hb (by simp [hs]) hplatform
      · exact busyEnds_of_step hstep hdone
      · obtain ⟨k, u, hk, hrun, hu⟩ := ih t hbusy (fun o ho => hadmitted o (hscript ho)) (by omega)
        exact ⟨k + 1, u, by omega, (runSteps_succ k hstep).trans hrun, hu⟩

end Sys2Proof.Machine
end

section
/-! PROOF. ENC_SYM's four checks, each reached only once those before it pass (R238, R261). -/

namespace Sys2Proof.Machine

open Sys2Proof Sys2Proof.Safety

theorem encSymBody_of_invalid {s : State} {sym : Byte} (hv : (ctEntry s.mem sym).valid = false) :
    encSymBody sym s = raise .notInTable sym 0 s := if_pos hv

theorem encSymBody_of_len_zero {s : State} {sym : Byte} (hv : (ctEntry s.mem sym).valid = true)
    (hzero : (ctEntry s.mem sym).len = 0) : encSymBody sym s = raise .zeroLengthCode sym 0 s := by
  simp only [encSymBody]
  rw [if_neg (by simp [hv]), if_pos hzero]

theorem encSymBody_of_too_long {s : State} {sym : Byte} (hv : (ctEntry s.mem sym).valid = true)
    (hlen : (ctEntry s.mem sym).len ≠ 0) (hlong : s.params.lmax.toNat < (ctEntry s.mem sym).len.toNat) :
    encSymBody sym s = raise .codeTooLong sym 0 s := by
  simp only [encSymBody]
  rw [if_neg (by simp [hv]), if_neg hlen, if_pos hlong]

theorem encSymBody_of_no_room {s : State} {sym : Byte} (h : acceptedEntry s.params (ctEntry s.mem sym))
    (hroom : freeRoom s < encodeRoom s (ctEntry s.mem sym).len.toNat) :
    encSymBody sym s = raise .outOverflow 0x02 0 s := by
  obtain ⟨hv, hpos, hmax⟩ := h
  have hlen : (ctEntry s.mem sym).len ≠ 0 := fun h0 => by simp [h0] at hpos
  simp only [encSymBody]
  rw [if_neg (by simp [hv]), if_neg hlen, if_neg (by omega), if_pos hroom]

/-- Settles O39: ENC mode runs ENC_SYM's own rule, whose checks are nested in R238's order. -/
theorem encSymChecksInOrder : Obligations.EncSymChecksInOrder := by
  intro s sym hm
  have hexec : exec (.encSym sym) s = .next (encSymBody sym s) := exec_legal (by simp [legalIn, hm])
  rw [hexec]
  exact ⟨fun hv => congrArg _ (encSymBody_of_invalid hv), fun hv hzero => congrArg _ (encSymBody_of_len_zero hv hzero),
    fun hv hlen hlong => congrArg _ (encSymBody_of_too_long hv hlen hlong),
    fun haccepted hroom => congrArg _ (encSymBody_of_no_room haccepted hroom)⟩

end Sys2Proof.Machine
end

section
/-! PROOF. ENC_OPEN with OUT empty and not, ENC_BIT with and without room, and what the encoder's commands leave alone
(R260 to R263, R366). -/

namespace Sys2Proof.Machine

open Sys2Proof Sys2Proof.Safety

theorem exec_encOpen_not_empty {s : State} (hm : s.mode = .idle) (hout : s.out ≠ []) :
    exec .encOpen s = .next (raise .outNotEmpty 0x01 0 s) := by
  rw [exec_legal (by simp [legalIn, hm]), commandBody, encOpenBody, if_pos (by simpa [outCount] using hout)]

/-- Settles O37: the one check is OUT's, and IDLE mode has nothing to flush when it fails. -/
theorem encOpenOpensAStream : Obligations.EncOpenOpensAStream := by
  refine ⟨by decide, fun s hm => ⟨exec_encOpen_empty hm, fun hout => ?_⟩⟩
  rw [exec_encOpen_not_empty hm hout, raise_of_not_enc (by simp [hm])]
  rfl

theorem exec_encBit {b : Bool} {s : State} (hm : s.mode = .enc) : exec (.encBit b) s = .next (encBitBody b s) :=
  exec_legal (by simp [legalIn, hm])

theorem encBitBody_of_room {b : Bool} {s : State} (hroom : encodeRoom s 1 ≤ freeRoom s) :
    encBitBody b s = { writeBit b s with bits := (writeBit b s).bits + 1 } := if_neg (by omega)

theorem encBitBody_of_no_room {b : Bool} {s : State} (hroom : freeRoom s < encodeRoom s 1) :
    encBitBody b s = raise .outOverflow 0x03 0 s := if_pos hroom

/-- A bit written and counted changes OUT, the BitWriter and BITS only (R200, R262). -/
theorem countedBit_frame (b : Bool) (s : State) :
    { writeBit b s with bits := (writeBit b s).bits + 1 } =
      { s with
        out := (writeBit b s).out
        wbuf := (writeBit b s).wbuf
        wcnt := (writeBit b s).wcnt
        bits := s.bits + 1 } := by
  apply State.ext_fields <;> simp

/-- Settles O40: with room the body is `write_bit` and the count, without it the raise. -/
theorem encBitAppendsItsBit : Obligations.EncBitAppendsItsBit := by
  refine ⟨by decide, by decide, fun s b hm hw => ⟨fun hroom => ?_, fun hroom => ?_⟩⟩ <;> rw [exec_encBit hm]
  · obtain ⟨hwcnt, hout⟩ := writeBit_count b s hw
    rw [encBitBody_of_room hroom]
    exact ⟨_, rfl, writtenBits_writeBit b s hw, hout, hwcnt, countedBit_frame b s⟩
  · rw [encBitBody_of_no_room hroom]

theorem writeCode_pushes (c : CodeValue) (n : Nat) (s : State) : ∃ pushed, (writeCode c n s).out = s.out ++ pushed := by
  induction n generalizing s with
  | zero => exact ⟨[], (List.append_nil _).symm⟩
  | succ n ih =>
    obtain ⟨first, hfirst⟩ := writeBit_pushes (c.getLsbD n) s
    obtain ⟨later, hlater⟩ := ih (writeBit (c.getLsbD n) s)
    exact ⟨first ++ later, by rw [writeCode, hlater, hfirst, List.append_assoc]⟩

theorem finish_pushes (s : State) : ∃ pushed, (finish s).out = s.out ++ pushed := by
  unfold finish
  split
  · exact ⟨[], (List.append_nil _).symm⟩
  · exact ⟨_, rfl⟩

theorem raise_pushes (c : ErrorCause) (arg : Byte) (i : BitVec 3) (s : State) :
    ∃ pushed, (raise c arg i s).out = s.out ++ pushed := by
  by_cases hm : s.mode = .enc
  · rw [raise_of_enc hm]
    exact finish_pushes s
  · rw [raise_of_not_enc hm]
    exact ⟨[], (List.append_nil _).symm⟩

/-- What `finish()` and the return to IDLE can change (R202, R263). -/
theorem encFinishBody_frame (s : State) :
    encFinishBody s =
      { s with out := (finish s).out, wbuf := (finish s).wbuf, wcnt := (finish s).wcnt, mode := .idle } := by
  apply State.ext_fields <;> simp [encFinishBody]

/-- What an encoder command makes of a state: error entry, which touches neither counter, or a change of the stream (MODE,
OUT, the BitWriter and those counters that are the command's own) and of nothing else (R260 to R263, R366). -/
inductive EncoderOutcome (i : Instr) (s t : State) : Prop where
  | raised (c : ErrorCause) (arg : Byte) (entry : t = raise c arg 0 s)
  | streamed
      (mode : t.mode = .error → s.mode = .error)
      (rest : t = { s with
        mode := t.mode, out := t.out, wbuf := t.wbuf, wcnt := t.wcnt, syms := t.syms, bits := t.bits })
      (pushes : ∃ pushed, t.out = s.out ++ pushed)
      (syms : i ≠ .encOpen → (∀ sym, i ≠ .encSym sym) → t.syms = s.syms)
      (bits : i = .encFinish → t.bits = s.bits)

/-- A command dropped in ERROR mode (R232). -/
theorem encoderOutcome_dropped (i : Instr) (s : State) : EncoderOutcome i s s :=
  .streamed id rfl ⟨[], (List.append_nil _).symm⟩ (fun _ _ => rfl) (fun _ => rfl)

theorem encoderOutcome_encOpenBody (s : State) : EncoderOutcome .encOpen s (encOpenBody s) := by
  obtain ⟨c, arg, e⟩ | ⟨-, e⟩ := encOpenBody_cases s <;> rw [e]
  · exact .raised c arg rfl
  · exact .streamed (by simp) rfl ⟨[], (List.append_nil _).symm⟩ (by simp) (by simp)

theorem encoderOutcome_encSymBody (sym : Byte) (s : State) : EncoderOutcome (.encSym sym) s (encSymBody sym s) := by
  obtain ⟨c, arg, e⟩ | ⟨-, e⟩ := encSymBody_cases sym s <;> rw [e]
  · exact .raised c arg rfl
  · have hframe := emitCodeword_frame (ctEntry s.mem sym) s
    exact .streamed (fun h => by rwa [hframe] at h) (by rw [hframe]) (writeCode_pushes _ _ s)
      (fun _ h => absurd rfl (h sym)) (by simp)

theorem encoderOutcome_encBitBody (b : Bool) (s : State) : EncoderOutcome (.encBit b) s (encBitBody b s) := by
  obtain ⟨c, arg, e⟩ | ⟨-, e⟩ := encBitBody_cases b s <;> rw [e]
  · exact .raised c arg rfl
  · rw [countedBit_frame]
    exact .streamed id rfl (writeBit_pushes b s) (fun _ _ => rfl) (by simp)

theorem encoderOutcome_encFinishBody (s : State) : EncoderOutcome .encFinish s (encFinishBody s) := by
  rw [encFinishBody_frame]
  exact .streamed (by simp) rfl (finish_pushes s) (fun _ _ => rfl) (fun _ => rfl)

/-- An encoder command runs its own rule, is dropped, or raises WRONG_MODE (R232, R234, R235). -/
theorem encoderOutcome_of_exec {i : Instr} {s t : State}
    (hi : i = .encOpen ∨ (∃ sym, i = .encSym sym) ∨ (∃ b, i = .encBit b) ∨ i = .encFinish) (h : exec i s = .next t) :
    EncoderOutcome i s t := by
  rw [exec_eq_dispatch] at h
  obtain ⟨-, rfl⟩ | ⟨-, -, rfl⟩ | ⟨-, -, rfl⟩ := dispatchCommand_cases h
  · obtain rfl | ⟨sym, rfl⟩ | ⟨b, rfl⟩ | rfl := hi
    · exact encoderOutcome_encOpenBody s
    · exact encoderOutcome_encSymBody sym s
    · exact encoderOutcome_encBitBody b s
    · exact encoderOutcome_encFinishBody s
  · exact encoderOutcome_dropped i _
  · exact .raised _ _ rfl

/-- Settles O42: error entry keeps both counters, and a command that raises nothing changes only its stream. -/
theorem encoderCommandsFrame : Obligations.EncoderCommandsFrame := by
  intro s t i hi h
  cases encoderOutcome_of_exec hi h with
  | raised c arg entry =>
    subst entry
    exact ⟨by simp, by simp, raise_pushes c arg 0 s, fun hne => absurd rfl hne, by simp, by simp, by simp⟩
  | streamed mode rest pushes syms bits =>
    exact ⟨by rw [rest]; simp, by rw [rest]; simp, pushes, fun _ => by rw [rest]; simp,
      fun ht hs => absurd (mode ht) hs, syms, bits⟩

end Sys2Proof.Machine
end

section
/-! PROOF. DEC_OPEN and DEC_END with their checks, DEC_BYTE's checks before any bit is read, and the decode stream
(R290, R291, R299 to R301). -/

namespace Sys2Proof.Machine

open Sys2Proof Sys2Proof.Safety

theorem exec_decOpen_not_empty {s : State} (hm : s.mode = .idle) (hout : s.out ≠ []) :
    exec .decOpen s = .next (raise .outNotEmpty 0x11 0 s) := by
  rw [exec_legal (by simp [legalIn, hm]), commandBody, decOpenBody, if_pos (by simpa [outCount] using hout)]

/-- Settles O45: the one check is OUT's, and IDLE mode has nothing to flush when it fails. -/
theorem decOpenLatchesTreeAndCount : Obligations.DecOpenLatchesTreeAndCount := by
  refine ⟨decode_encode .decOpen, fun s hm => ⟨exec_decOpen_empty hm, fun hout => ?_⟩⟩
  rw [exec_decOpen_not_empty hm hout, raise_of_not_enc (by simp [hm])]
  rfl

theorem exec_decByte {v : Byte} {s : State} (hm : s.mode = .dec) : exec (.decByte v) s = .next (decByteBody v s) :=
  exec_legal (by simp [legalIn, hm])

theorem decByteBody_of_trailing {v : Byte} {s : State} (hend : s.syms = s.target) :
    decByteBody v s = raise .trailingData v 0 s := if_pos hend

theorem decByteBody_of_no_room {v : Byte} {s : State} (hne : s.syms ≠ s.target) (hroom : freeRoom s < decodeRoom s) :
    decByteBody v s = raise .outOverflow 0x12 0 s := by
  rw [decByteBody, if_neg hne, if_pos hroom]

/-- Settles O46: both checks end in error entry, which flushes nothing in DEC mode. -/
theorem decByteChecksBeforeReading : Obligations.DecByteChecksBeforeReading := by
  intro s v hm
  have hmode : s.mode ≠ .enc := by simp [hm]
  refine ⟨fun hend => ?_, fun hne hroom => ?_⟩ <;> rw [exec_decByte hm]
  · rw [decByteBody_of_trailing hend, raise_of_not_enc hmode]
    rfl
  · rw [decByteBody_of_no_room hne hroom, raise_of_not_enc hmode]
    rfl

theorem exec_decEnd {s : State} (hm : s.mode = .dec) : exec .decEnd s = .next (decEndBody s) :=
  exec_legal (by simp [legalIn, hm])

theorem decEndBody_of_count_reached {s : State} (hend : s.syms = s.target) : decEndBody s = { s with mode := .idle } :=
  if_neg (not_not.mpr hend)

theorem decEndBody_of_premature {s : State} (hne : s.syms ≠ s.target) :
    decEndBody s = raise .prematureEnd 0 0 s := if_pos hne

/-- Settles O53: the stream closes at the count, and before it error entry flushes nothing in DEC mode. -/
theorem decEndChecksTheCount : Obligations.DecEndChecksTheCount := by
  refine ⟨decode_encode .decEnd, fun s hm => ⟨fun hend => ?_, fun hne => ?_⟩⟩ <;> rw [exec_decEnd hm]
  · rw [decEndBody_of_count_reached hend]
  · rw [decEndBody_of_premature hne, raise_of_not_enc (by simp [hm])]
    rfl

/-- Settles O55: DEC_OPEN puts the cursor on the root, the bytes' bits walk the text's codewords, and DEC_END finds the
count reached. -/
theorem decodeStreamGivesTheText : Obligations.DecodeStreamGivesTheText := by
  intro s code text stream hp hm hout hlength hsymcount hcode hstream
  exact runDrained_decodeCommands hp hm hout hlength hsymcount hcode hstream

end Sys2Proof.Machine
end

section
/-! PROOF. The walk at a leaf root, and DEC_BYTE as a walk of its bits: without an error, and up to the bit that raises
(R291, R293 to R295, R297, R298, R362). -/

namespace Sys2Proof.Machine

open Sys2Proof Sys2Proof.Safety

/-- One more counted before n others is n + 1 counted (R12). -/
theorem add_one_add_ofNat (c : Count) (n : Nat) : c + 1#64 + BitVec.ofNat 64 n = c + BitVec.ofNat 64 (n + 1) := by
  rw [Nat.add_comm, BitVec.ofNat_add, BitVec.add_assoc]

/-- Settles O48: the leaf stays under the cursor, so every 0 finds it again. -/
theorem leafRootEmitsOnZeros : Obligations.LeafRootEmitsOnZeros := by
  intro s sym n hleaf
  refine ⟨?_, fun v i => walkStep_of_leaf true v i hleaf⟩
  induction n generalizing s with
  | zero => simp
  | succ n ih =>
    rw [List.replicate_succ, walkList_cons_of_running (walkStep_of_leaf false 0 0 hleaf), ih (emitSymbol sym s) hleaf]
    simp [add_one_add_ofNat, List.replicate_succ]

/-- Settles O50: the walk of the byte's bits is DEC_BYTE's loop, and valid padding is discarded. -/
theorem decByteWalksItsBits : Obligations.DecByteWalksItsBits := by
  intro s t v walked rest hm hne hroom hbits ht hcount hend
  exact exec_decByte_of_walkList hm hne hroom hbits ht hcount hend

/-- A bit with an error raises it from the state it is read in (R294 to R296). -/
theorem walkStep_of_walkError {b : Bool} {s : State} {c : ErrorCause} (h : walkError b s = some c) (v : Byte)
    (i : BitVec 3) : walkStep b v i s = .raised (raise c v i s) := by
  cases hnode : nodeAt s.mem s.cur with
  | leaf sym =>
    obtain ⟨rfl, rfl⟩ : b = true ∧ ErrorCause.walkPastLeaf = c := by simpa [walkError, hnode] using h
    exact walkStep_of_leaf true v i hnode
  | internal l r =>
    cases hchild : nodeAt s.mem (childOf l r b) with
    | leaf sym => simp [walkError, hnode, hchild] at h
    | internal l' r' =>
      obtain ⟨hdepth, rfl⟩ : Config.depthLimit ≤ s.depth.toNat + 1 ∧ ErrorCause.depthExceeded = c := by
        simpa [walkError, hnode, hchild, Config.depthLimit] using h
      rw [walkStep_to_internal v i hnode hchild, if_pos hdepth]
    | empty | rsvd =>
      obtain rfl : ErrorCause.malformedTree = c := by simpa [walkError, hnode, hchild] using h
      exact walkStep_to_malformed v i hnode (by simp [hchild])
  | empty | rsvd =>
    obtain rfl : ErrorCause.malformedTree = c := by simpa [walkError, hnode] using h
    exact walkStep_of_malformed b v i (by simp [hnode])

/-- The loop of DEC_BYTE goes on after a bit that does not raise (R291). -/
theorem walkBits_succ_of_running {v : Byte} {n : Nat} {s t : State} (hleft : s.rcnt ≠ 0) (hne : s.syms ≠ s.target)
    (h : walkStep (bitToRead s) v ((s.rcnt - 1).setWidth 3) (consumeBit s) = .running t) :
    walkBits v (n + 1) s = walkBits v n t := by
  rw [walkBits, if_neg (not_or.mpr ⟨hleft, hne⟩), h]

/-- The loop of DEC_BYTE ends at a bit that raises (R291, R366). -/
theorem walkBits_succ_of_raised {v : Byte} {n : Nat} {s t : State} (hleft : s.rcnt ≠ 0) (hne : s.syms ≠ s.target)
    (h : walkStep (bitToRead s) v ((s.rcnt - 1).setWidth 3) (consumeBit s) = .raised t) :
    walkBits v (n + 1) s = .raised t := by
  rw [walkBits, if_neg (not_or.mpr ⟨hleft, hne⟩), h]

/-- With n + 1 bits left the loop's turn reads the highest of them, whose position is n (R206, R291). -/
theorem walkStep_of_highest_bit {v : Byte} {n : Nat} {b : Bool} {rest : List Bool} (s : State) (hn : n < 8)
    (hbits : bitsBelow v (n + 1) = b :: rest) :
    let u := reframed [] v (BitVec.ofNat 4 (n + 1)) s
    walkStep (bitToRead u) v ((u.rcnt - 1).setWidth 3) (consumeBit u) =
      walkStep b v (BitVec.ofNat 3 n) (reframed [] v (BitVec.ofNat 4 n) s) := by
  have hbit : v.getLsbD (BitVec.ofNat 4 n).toNat = b := by
    rw [toNat_ofNat_four (by omega)]
    exact (List.cons.inj hbits).1
  have hposition : (BitVec.ofNat 4 n).setWidth 3 = BitVec.ofNat 3 n := BitVec.setWidth_ofNat_of_le (by decide) n
  simp only [bitToRead, consumeBit, reframed, ofNat_four_succ_sub_one, hbit, hposition]

/-- DEC_BYTE's loop goes through the walk of any first part of the bits that are left (R291). -/
theorem walkBits_walks_first_part {v : Byte} {n : Nat} {walked rest : List Bool} {s t : State} (hn : n ≤ 8)
    (hbits : bitsBelow v n = walked ++ rest) (ht : walkList walked s = some t)
    (hcount : countNotReachedBefore walked s) :
    walkBits v n (reframed [] v (BitVec.ofNat 4 n) s) =
      walkBits v rest.length (reframed [] v (BitVec.ofNat 4 rest.length) t) := by
  induction walked generalizing n s with
  | nil =>
    obtain rfl : s = t := by simpa using ht
    obtain rfl : n = rest.length := by simpa using congrArg List.length hbits
    rfl
  | cons b walked ih =>
    cases n with
    | zero => exact absurd hbits (List.cons_ne_nil _ _).symm
    | succ n =>
      obtain ⟨u, hu, ht⟩ := walkList_cons_eq_some ht
      have hne := syms_ne_target_of_countNotReachedBefore hcount (List.cons_ne_nil _ _)
      have hlater : countNotReachedBefore walked u :=
        countNotReachedBefore_of_walked (p := [b]) hcount (walkList_cons_of_running hu [])
      have hturn := (walkStep_of_highest_bit s hn hbits).trans (walkStep_reframed_of_running hu v _ [] v _)
      calc walkBits v (n + 1) (reframed [] v (BitVec.ofNat 4 (n + 1)) s)
        _ = walkBits v n (reframed [] v (BitVec.ofNat 4 n) u) :=
          walkBits_succ_of_running (ofNat_four_succ_ne_zero hn) hne hturn
        _ = _ := ih (by omega) (List.cons.inj hbits).2 ht hlater

/-- DEC_BYTE's loop ends at a bit that raises, with what the earlier bits did (R294, R297). -/
theorem walkBits_of_walkError {v : Byte} {n : Nat} {walked later : List Bool} {b : Bool} {c : ErrorCause} {s t : State}
    (hn : n ≤ 8) (hbits : bitsBelow v n = walked ++ b :: later) (ht : walkList walked s = some t)
    (hcount : countNotReachedBefore (walked ++ [b]) s) (herror : walkError b t = some c) :
    walkBits v n (reframed [] v (BitVec.ofNat 4 n) s) =
      .raised (raise c v (BitVec.ofNat 3 later.length) (reframed [] v (BitVec.ofNat 4 later.length) t)) := by
  have hleft := eq_bitsBelow_of_append hbits
  have hlength : later.length + 1 ≤ n := by
    have := congrArg List.length hbits
    rw [length_bitsBelow, List.length_append, List.length_cons] at this
    omega
  have hne : t.syms ≠ t.target :=
    syms_ne_target_of_countNotReachedBefore (countNotReachedBefore_of_walked hcount ht) (List.cons_ne_nil b [])
  have hturn := (walkStep_of_highest_bit t (by omega) hleft.symm).trans
    (walkStep_of_walkError (s := reframed [] v (BitVec.ofNat 4 later.length) t) herror v _)
  rw [walkBits_walks_first_part hn hbits ht (countNotReachedBefore_of_append hcount)]
  exact walkBits_succ_of_raised (ofNat_four_succ_ne_zero (by omega)) hne hturn

theorem decByteBody_of_walk_raised {v : Byte} {s t : State} (hne : s.syms ≠ s.target)
    (hroom : decodeRoom s ≤ freeRoom s) (hwalk : walkBits v 8 (load v s) = .raised t) : decByteBody v s = t := by
  rw [decByteBody, if_neg hne, if_neg (Nat.not_lt.mpr hroom), hwalk]

/-- Settles O51: the loop walks the earlier bits, and error entry in DEC mode records the failing one and flushes nothing. -/
theorem decByteFailsAtItsBit : Obligations.DecByteFailsAtItsBit := by
  intro s t v walked later b c hm hroom hbits ht hcount herror
  have hne := syms_ne_target_of_countNotReachedBefore hcount (by simp)
  have hmode : t.mode ≠ .enc := by simp [(walkList_mode_params ht).1, hm]
  have hwalk : walkBits v 8 (load v s) =
      .raised (raise c v (BitVec.ofNat 3 later.length) (reframed [] v (BitVec.ofNat 4 later.length) t)) :=
    walkBits_of_walkError le_rfl hbits ht hcount herror
  rw [exec_decByte hm, decByteBody_of_walk_raised hne hroom hwalk]
  exact congrArg _ (raise_of_not_enc hmode)

end Sys2Proof.Machine
end

section
/-! PROOF. What the decoder's commands leave alone (R290, R291, R299, R366). -/

namespace Sys2Proof.Machine

open Sys2Proof Sys2Proof.Safety

/-- What a DEC_BYTE in DEC mode leaves alone beside what every command does: the latched stream, the flags and the BitWriter
stay, OUT only grows, and the error record changes only with the mode (R291, R294, R366). -/
structure WalkedFrom (s t : State) : Prop where
  notEnc : t.mode ≠ .enc
  flags : t.overrun = s.overrun ∧ t.lockvio = s.lockvio
  writer : t.wbuf = s.wbuf ∧ t.wcnt = s.wcnt
  latched : t.rroot = s.rroot ∧ t.target = s.target
  pushes : ∃ pushed, t.out = s.out ++ pushed
  error : t.mode ≠ .error → t.error = s.error

theorem walkedFrom_refl {s : State} (hm : s.mode ≠ .enc) : WalkedFrom s s :=
  ⟨hm, ⟨rfl, rfl⟩, ⟨rfl, rfl⟩, ⟨rfl, rfl⟩, ⟨[], (List.append_nil _).symm⟩, fun _ => rfl⟩

theorem WalkedFrom.after_raise {s t : State} (h : WalkedFrom s t) (c : ErrorCause) (arg : Byte) (i : BitVec 3) :
    WalkedFrom s (raise c arg i t) := by
  rw [raise_of_not_enc h.notEnc]
  exact { h with notEnc := by simp, error := fun hne => absurd rfl hne }

theorem WalkedFrom.after_symbol {s t : State} (h : WalkedFrom s t) (sym : Byte) : WalkedFrom s (emitSymbol sym t) := by
  obtain ⟨pushed, hout⟩ := h.pushes
  exact { h with pushes := ⟨pushed ++ [sym], by rw [emitSymbol_out, hout, List.append_assoc]⟩ }

theorem WalkedFrom.after_bit {bit : Bool} {v : Byte} {i : BitVec 3} {s t u : State} (h : WalkedFrom s t)
    (hu : walkStep bit v i (consumeBit t) = .running u) : WalkedFrom s u := by
  obtain ⟨sym, rfl⟩ | ⟨sym, rfl⟩ | ⟨k, l, r, -, -, rfl⟩ := walkStep_running hu
  · exact { h.after_symbol sym with }
  · exact { h.after_symbol sym with }
  · exact { h with }

theorem walkedFrom_decByteBody (v : Byte) {s : State} (hm : s.mode = .dec) : WalkedFrom s (decByteBody v s) := by
  have hs : WalkedFrom s s := walkedFrom_refl (by simp [hm])
  exact decByteBody_keeps (fun c arg => hs.after_raise c arg 0) (fun _ _ => { hs with })
    (fun _ _ _ _ h hu => h.after_bit hu) (fun c i h => h.after_raise c v i) (fun _ h => { h with })

/-- What a decoder command makes of a state: it is dropped, it raises before anything else, or it opens a stream, walks its
byte or closes the stream (R232, R234, R290, R291, R299). -/
inductive DecoderOutcome (i : Instr) (s t : State) : Prop where
  | dropped (same : t = s)
  | raised (c : ErrorCause) (arg : Byte) (entry : t = raise c arg 0 s)
  | opened (command : i = .decOpen) (latch : t = openedDecode s)
  | walked (v : Byte) (command : i = .decByte v) (frame : WalkedFrom s t)
  | closed (command : i = .decEnd) (idle : t = { s with mode := .idle })

theorem decoderOutcome_of_exec {i : Instr} {s t : State} (hi : i = .decOpen ∨ (∃ v, i = .decByte v) ∨ i = .decEnd)
    (h : exec i s = .next t) : DecoderOutcome i s t := by
  rw [exec_eq_dispatch] at h
  obtain ⟨hl, rfl⟩ | ⟨-, -, rfl⟩ | ⟨-, -, rfl⟩ := dispatchCommand_cases h
  · obtain rfl | ⟨v, rfl⟩ | rfl := hi
    · obtain ⟨c, arg, e⟩ | e := decOpenBody_cases s
      · exact .raised c arg e
      · exact .opened rfl e
    · exact .walked v rfl (walkedFrom_decByteBody v (by simpa [legalIn] using hl))
    · obtain ⟨c, arg, e⟩ | e := decEndBody_cases s
      · exact .raised c arg e
      · exact .closed rfl e
  · exact .dropped rfl
  · exact .raised _ _ rfl

/-- Error entry outside ENC mode pushes nothing and leaves the BitWriter (R366). -/
theorem raise_writer_of_not_enc {c : ErrorCause} {arg : Byte} {i : BitVec 3} {s : State} (hm : s.mode ≠ .enc) :
    (raise c arg i s).out = s.out ∧ (raise c arg i s).wbuf = s.wbuf ∧ (raise c arg i s).wcnt = s.wcnt := by
  rw [raise_of_not_enc hm]
  exact ⟨rfl, rfl, rfl⟩

/-- Settles O54: what every command leaves alone stays, and each outcome of a decoder command changes only the decoder's own
state and appends to OUT. -/
theorem decoderCommandsFrame : Obligations.DecoderCommandsFrame := by
  intro s t i hi h
  obtain ⟨hparams, hbusy, hpending, hroot, hsymcount, hmem, hscript, hheard, hschedule, hdelay, hdraws⟩ := exec_frame h
  cases decoderOutcome_of_exec hi h with
  | dropped same =>
    subst same
    simp
  | raised c arg entry =>
    subst entry
    exact ⟨by simp, by simp, fun hm => (raise_writer_of_not_enc hm).2, raise_pushes c arg 0 s, fun hne => absurd rfl hne,
      by simp, by simp, by simp, fun hm _ => (raise_writer_of_not_enc hm).1⟩
  | opened command latch =>
    subst command latch
    simp [openedDecode]
  | walked v command frame =>
    subst command
    obtain ⟨-, ⟨hoverrun, hlockvio⟩, hwriter, hlatched, hpushes, herror⟩ := frame
    exact ⟨⟨hparams, hbusy, hpending, hoverrun, hlockvio, hroot, hsymcount, hscript, hheard, hschedule, hdelay, hdraws⟩,
      fun a => by rw [hmem], fun _ => hwriter, hpushes, herror, fun _ => hlatched, fun hne => absurd rfl (hne v),
      by simp, by simp⟩
  | closed command idle =>
    subst command idle
    simp

end Sys2Proof.Machine
end

section
/-! PROOF. A host write by R338's precedence, while BUSY = 1, at a locked table and elsewhere; and CLEAR in each mode
(R330, R331, R336 to R338). -/

namespace Sys2Proof.Machine

open Sys2Proof Sys2Proof.Safety

/-- CT RAM's range is the window from 0x4000 on (R82, R85). -/
theorem inCtRam_targetOf_iff (a : Nat) : (targetOf a).inCtRam = true ↔ 0x4000 ≤ a := by
  unfold targetOf
  split_ifs <;> simp only [Target.inCtRam, Bool.false_eq_true, true_iff, false_iff] <;> omega

/-- NODE RAM's range is 0x0800 to 0x0FFF (R82, R84). -/
theorem inNodeRam_targetOf_iff (a : Nat) : (targetOf a).inNodeRam = true ↔ 0x0800 ≤ a ∧ a < 0x1000 := by
  unfold targetOf
  split_ifs <;> simp only [Target.inNodeRam, Bool.false_eq_true, true_iff, false_iff] <;> omega

/-- The locks by offset (R337). -/
theorem locked_targetOf_iff (a : Nat) (m : Mode) :
    locked (targetOf a) m = true ↔ (m = .enc ∧ 0x4000 ≤ a) ∨ (m = .dec ∧ 0x0800 ≤ a ∧ a < 0x1000) := by
  simp [locked, inCtRam_targetOf_iff, inNodeRam_targetOf_iff]

theorem busWrite_of_locked {a : Nat} (d : Word) {s : State} (hb : s.busy = false)
    (hl : locked (targetOf a) s.mode = true) : busWrite a d s = { s with lockvio := true } := by
  rw [busWrite, if_neg (by simp [hb]), if_pos hl]

theorem busWrite_of_not_locked {a : Nat} (d : Word) {s : State} (hb : s.busy = false)
    (hl : ¬ locked (targetOf a) s.mode = true) : busWrite a d s = acceptWrite (targetOf a) d s := by
  rw [busWrite, if_neg (by simp [hb]), if_neg hl]

/-- No accepted write is a lock violation (R334). -/
theorem acceptWrite_lockvio (t : Target) (d : Word) (s : State) : (acceptWrite t d s).lockvio = s.lockvio := by
  cases t with
  | reg r => cases r <;> rfl
  | node | ctHeader | ctCode | ctReserved | unmapped => rfl

/-- Settles O16: with BUSY = 0 the lock alone decides, and no accepted write touches LOCKVIO. -/
theorem lockedTableWriteIsDropped : Obligations.LockedTableWriteIsDropped := by
  intro s a d hb _ _
  have hlocked := locked_targetOf_iff a s.mode
  refine ⟨fun hm hct => ?_, fun hm hlo hhi => ?_, fun hct hnode => ?_⟩
  · exact busWrite_of_locked d hb (hlocked.mpr (.inl ⟨hm, hct⟩))
  · exact busWrite_of_locked d hb (hlocked.mpr (.inr ⟨hm, hlo, hhi⟩))
  · have haccept := busWrite_of_not_locked d hb (mt hlocked.mp (not_or.mpr ⟨hct, hnode⟩))
    exact ⟨haccept, haccept ▸ acceptWrite_lockvio (targetOf a) d s⟩

/-- Settles O14: the step is the bus's write, which BUSY = 1 drops; the delay is the model's count of accesses. -/
theorem busyWriteIsDropped : Obligations.BusyWriteIsDropped := by
  intro s a d rest hb turn hs ha hw
  obtain ⟨hadmitted, -⟩ := hostAccessReachesTheBusOrStops s a 4 d rest turn
  obtain ⟨n, -, -, hwrite⟩ := hadmitted rfl ha hw
  exact ⟨n, by rw [hwrite hs, busWrite_of_busy a d (s := { s with script := rest, delay := n }) hb]⟩

/-- Settles O57: CLEAR is legal in IDLE and ERROR, where its rule is `clearErrors`; R234 answers in ENC and DEC. -/
theorem clearLeavesErrorMode : Obligations.ClearLeavesErrorMode := by
  refine ⟨decode_encode .clear, fun w hw => eq_encode_of_decode hw, fun s => ⟨fun hm => ?_, fun hm => ?_⟩⟩
  · have hl : legalIn .clear s.mode = true := by simpa [legalIn] using hm
    exact exec_legal hl
  · obtain ⟨hl, hne⟩ : legalIn .clear s.mode = false ∧ s.mode ≠ .error := by
      obtain hm | hm := hm <;> rw [hm] <;> decide
    exact exec_wrongMode hl hne

end Sys2Proof.Machine
end

section
/-! PROOF. What a read returns while BUSY = 1: the registers left unspecified, DOUT, and every other offset (R333). -/

namespace Sys2Proof.Machine

open Sys2Proof Sys2Proof.Safety

/-- A register that reads alike with BUSY = 0 and BUSY = 1: not DOUT, and not one R333 leaves unspecified. -/
def Reg.busyStable (r : Reg) : Prop := r ≠ .dout ∧ r.busyOpen = false

/-- While BUSY = 1 an unspecified register but STATUS returns the next free value (R333). -/
theorem readReg_of_busyOpen {r : Reg} {s : State} (hb : s.busy = true) (ho : r.busyOpen = true) (hne : r ≠ .status) :
    (readReg r s).value = Config.busyReadValue s.draws := by
  have hd : r ≠ .dout := by
    rintro rfl
    cases ho
  rw [readReg, if_neg hd, if_pos ⟨hb, ho⟩]
  exact if_neg hne

/-- While BUSY = 1 STATUS returns the next free value with bit 2 set (R36, R333). -/
theorem readReg_status_of_busy {s : State} (hb : s.busy = true) :
    (readReg .status s).value = Config.busyReadValue s.draws ||| 0x4 := by
  rw [readReg, if_neg (by decide), if_pos ⟨hb, rfl⟩]
  rfl

/-- A stable register returns its word and leaves the state, whatever BUSY is (R332, R333). -/
theorem readReg_of_busyStable {r : Reg} (h : r.busyStable) (s : State) :
    readReg r s = { value := regValue r s, after := s } := by
  obtain ⟨hd, ho⟩ := h
  rw [readReg, if_neg hd, if_neg (by simp [ho])]

/-- Only STATUS shows BUSY (R36). -/
theorem regValue_with_busy {r : Reg} (h : r.busyStable) (b : Bool) (s : State) :
    regValue r { s with busy := b } = regValue r s := by
  cases r
  case status => cases h.2
  all_goals rfl

/-- The register offsets but those R333 names are those of the stable registers. -/
theorem busyStable_regOfIndex : ∀ a < 0x0040, a % 4 = 0 →
    a ∉ [0x00C, 0x014, 0x028, 0x02C, 0x030, 0x034, 0x038, 0x03C] → (regOfIndex (a / 4)).busyStable := by
  unfold Reg.busyStable
  decide

theorem busyStable_of_targetOf {a : Nat} {r : Reg} (ha : a % 4 = 0)
    (hne : a ∉ [0x00C, 0x014, 0x028, 0x02C, 0x030, 0x034, 0x038, 0x03C]) (ht : targetOf a = .reg r) : r.busyStable := by
  by_cases hreg : a < 0x0040
  · rw [targetOf_register hreg, Target.reg.injEq] at ht
    exact ht ▸ busyStable_regOfIndex a hreg ha hne
  · unfold targetOf at ht
    split_ifs at ht

/-- A read that reaches no register but a stable one does not look at BUSY and has no effect (R94, R332). -/
theorem busRead_with_busy {a : Nat} (h : ∀ r, targetOf a = .reg r → r.busyStable) (b : Bool) (s : State) :
    (busRead a s).value = (busRead a { s with busy := b }).value ∧ (busRead a s).after = s := by
  cases ht : targetOf a with
  | reg r =>
    have hr := h r ht
    simp only [busRead, ht, readReg_of_busyStable hr, regValue_with_busy hr, and_self]
  | node | ctHeader | ctCode | ctReserved | unmapped => simp only [busRead, ht, and_self]

/-- Settles O24: the unspecified registers draw the free value, and every other read but DOUT's does not look at BUSY. -/
theorem readsWhileBusy : Obligations.ReadsWhileBusy := by
  intro s hb
  have hstatus : (busRead 0x00C s).value = Config.busyReadValue s.draws ||| 0x4 := readReg_status_of_busy hb
  obtain ⟨-, hdout, -⟩ := doutReadPopsHead s
  refine ⟨hstatus, by simp [hstatus], fun a ha => ?_, hdout (.inl hb), fun a ha _ hne => ?_⟩
  · simp only [List.mem_cons, List.not_mem_nil, or_false] at ha
    rcases ha with rfl | rfl | rfl | rfl | rfl | rfl <;> exact readReg_of_busyOpen hb rfl (by decide)
  · exact busRead_with_busy (fun r => busyStable_of_targetOf ha hne) false s

end Sys2Proof.Machine
end

section
/-! PROOF. Error entry as a whole (R202, R366), and the codes of the causes (R360, R361). -/

namespace Sys2Proof.Machine

open Sys2Proof

/-- Settles O10: in ENC mode error entry is `finish()` and the record, and `finish()` does nothing without a pending bit. -/
theorem errorEntryRecordsAndFlushes : Obligations.ErrorEntryRecordsAndFlushes := by
  intro c arg j s
  refine ⟨fun hm hpending => ?_, fun h => ?_⟩
  · rw [raise_of_enc hm, finish_of_wcnt_ne_zero hpending]
    rfl
  · by_cases hm : s.mode = .enc
    · have hzero : s.wcnt = 0 := h.resolve_left (not_not_intro hm)
      rw [raise_of_enc hm, finish_of_wcnt_zero hzero]
      rfl
    · exact raise_of_not_enc hm

/-- The causes in R361's order. -/
def errorCauses : List ErrorCause :=
  [.zeroLengthCode, .notInTable, .prematureEnd, .badPadding, .trailingData, .malformedTree, .walkPastLeaf,
    .depthExceeded, .codeTooLong, .illegalCommand, .wrongMode, .outOverflow, .outNotEmpty]

theorem mem_errorCauses (c : ErrorCause) : c ∈ errorCauses := by
  cases c <;> decide

/-- No two rows of R361's table share both codes. -/
theorem errorCauses_codes_nodup : (errorCauses.map fun c => (c.kind, c.sub)).Nodup := by decide

/-- Settles O11: the codes cause by cause, and the list of all causes without a pair of codes twice. -/
theorem errorCodesAsTabulated : Obligations.ErrorCodesAsTabulated := by
  refine ⟨fun c => ?_, fun c₁ c₂ hkind hsub => ?_⟩
  · cases c <;> rfl
  · exact List.inj_on_of_nodup_map errorCauses_codes_nodup (mem_errorCauses c₁) (mem_errorCauses c₂)
      (Prod.ext hkind hsub)

end Sys2Proof.Machine
end

section
/-! PROOF. The reset input as a step of the machine (R400, R401). -/

namespace Sys2Proof.Machine

open Sys2Proof

/-- Reset keeps the build's parameters and the host's own affairs only, so the latched command and the count of accesses
let in before it are gone (R401, assumption log 15). -/
theorem resetBlock_beginAction (rest : List HostOp) (s : State) :
    resetBlock (beginAction rest s) =
      { State.resetWith s.params with
        script := rest
        heard := s.heard
        schedule := s.schedule
        draws := s.draws } := by
  rw [resetBlock, beginAction_params, beginAction_script, beginAction_heard, beginAction_schedule, beginAction_draws]

/-- Settles O30: with reset at the head of the script the step is `resetBlock`, which does not look at the latch. -/
theorem resetInputRestoresResetState : Obligations.ResetInputRestoresResetState := by
  intro s rest turn hs
  rw [step_eq_perform turn hs, perform, resetBlock_beginAction]

end Sys2Proof.Machine
end
